-- ==== Sys2Proof/Word.lean ====
section
/-! DEFINITION. The bit patterns the spec deals in: command words, bytes, samples, stream names. -/

namespace Sys2Proof

/-- A command word, 32 bits (30_encoding R100). -/
abbrev Word := BitVec 32

/-- A byte, 8 bits (00_scope R13). -/
abbrev Byte := BitVec 8

/-- A sample: the bit pattern of an IEEE 754 binary32 value (00_scope R10). -/
abbrev Sample := BitVec 32

/-- A stream name register or field: exactly 16 bytes (00_scope R8 `NAME_LEN`). -/
abbrev Name := Vector Byte 16

end Sys2Proof
end

