-- ==== Sys2Proof/Config.lean ====
section
/-! DEFINITION. What the spec fixes (00_scope R8), what an implementation fixes (00_scope R9), and the values the spec leaves
open, as opaque constants that no proof can see. -/

namespace Sys2Proof

/-- `HDR_SIZE` (00_scope R8). -/
abbrev Config.hdrSize : Nat := 28

/-- `SR_COUNT` (00_scope R8). -/
abbrev Config.srCount : Nat := 21

/-- `NCH_MAX` (00_scope R8). -/
abbrev Config.nchMax : Nat := 254

/-- `NS_MAX` (00_scope R8). -/
abbrev Config.nsMax : Nat := 256

/-- `MAX_PAYLOAD` (00_scope R8). -/
abbrev Config.maxPayload : Nat := 1436

/-- `NAME_CHARS` (00_scope R8). -/
abbrev Config.nameChars : Nat := 15

/-- `DEFAULT_PORT` (00_scope R8). -/
abbrev Config.defaultPort : BitVec 16 := 13251#16

/-- `DEFAULT_DEST`, the nine ASCII bytes of `127.0.0.1` (00_scope R8, 10_state R32). -/
abbrev Config.defaultDest : List Byte :=
  [0x31#8, 0x32#8, 0x37#8, 0x2E#8, 0x30#8, 0x2E#8, 0x30#8, 0x2E#8, 0x31#8]

/-- The quantizer's overflow policy `QOVF_POLICY` (40_sample_codec R146). -/
inductive QovfPolicy where
  | wrap
  | saturate
  deriving DecidableEq, Repr

/-- The two values of `SUBPROTO_CHECK_MASK` (30_encoding R122). -/
inductive SubprotoCheck where
  /-- `0xE0`: the reserved bit 7 is part of the test. -/
  | withReserved
  /-- `0x60`: bit 7 is ignored. -/
  | withoutReserved
  deriving DecidableEq, Repr

/-- The implementation's parameters (00_scope R9; 92_eei_decisions, open parameters). A State carries them, no step
changes them, and a statement about every state holds for every value of them (DESIGN CHOICE, unsafe at reset: log entry 5). -/
structure Params where
  /-- `SR_TABLE`, 21 naturals in hertz (00_scope R12). -/
  srTable : Vector Nat 21
  /-- `ABUF_CAP` beyond its least value 2900 (00_scope R9: `ABUF_CAP ≥ 28 + 2 × 1436`; DEDUCED, safe: log entry 8). -/
  abufExtra : Nat
  /-- `QOVF_POLICY`. -/
  qovfPolicy : QovfPolicy
  /-- `SUBPROTO_CHECK_MASK`. -/
  subprotoCheck : SubprotoCheck
  /-- `SUBPROTO_AUDIO`. -/
  subprotoAudio : BitVec 2
  /-- `RES_PCM16`. -/
  resPcm16 : BitVec 3
  /-- `CODEC_PCM`. -/
  codecPcm : BitVec 5
  deriving DecidableEq, Repr

/-- The spec's default `SR_TABLE` (00_scope R12). -/
def Config.defaultSrTable : Vector Nat 21 :=
  #v[6000, 12000, 24000, 48000, 96000, 192000, 384000,
     8000, 16000, 32000, 64000, 128000, 256000, 512000,
     11025, 22050, 44100, 88200, 176400, 352800, 705600]

/-- The spec's decided and default parameters: `ABUF_CAP = 2^21` (00_scope R9), policy `wrap`, mask `0xE0`, codes 0, 1, 0. -/
def Config.defaultParams : Params where
  srTable := Config.defaultSrTable
  abufExtra := 2094252
  qovfPolicy := .wrap
  subprotoCheck := .withReserved
  subprotoAudio := 0#2
  resPcm16 := 1#3
  codecPcm := 0#5

/-- `ABUF_CAP` in bytes (10_state R41). -/
def Params.abufCap (p : Params) : Nat := 2900 + p.abufExtra

/-- The wire codes stand at the values that 00_scope R9 decides; the table, the buffer size, the overflow policy and the
sub-protocol mask stay free. -/
def Params.DecidedCodes (p : Params) : Prop := p.subprotoAudio = 0#2 ∧ p.resPcm16 = 1#3 ∧ p.codecPcm = 0#5

/-- The byte windows and buffers that a command can read (20_memory R70). -/
inductive ByteSpace where
  | bin
  | cin
  | abuf
  deriving DecidableEq, Repr

/-- FREE VALUE. What a byte of a window or buffer that nothing has written since the reset number `epoch` reads as
(10_state R61, R63; DESIGN CHOICE, safe: log entry 3). -/
opaque Config.unwrittenByte (epoch : Nat) (space : ByteSpace) (offset : Nat) : Byte

/-- FREE VALUE. What an element of `FIN` that nothing has written since the reset number `epoch` reads as
(10_state R61, R63; DESIGN CHOICE, safe: log entry 3). -/
opaque Config.unwrittenSample (epoch : Nat) (index : Nat) : Sample

/-- FREE VALUE. What the k-th sampling of an undriven `HOST_RATE` gives (10_state R36; DESIGN CHOICE, safe: log entry 4). -/
opaque Config.undrivenRate (k : Nat) : BitVec 20

end Sys2Proof
end

