-- ==== Sys2Proof/Syntax.lean ====
section
/-! DEFINITION. The sixteen commands of 30_encoding R104, one constructor per row of spec/opcode_table.json. -/

namespace Sys2Proof

/-- The session unit a command selects: `u = 0` is the send unit, `u = 1` the receive unit (10_state R30). -/
inductive SessionUnit where
  | tx
  | rx
  deriving DecidableEq, Repr

/-- The two command ports (30_encoding R100, 60_exceptions R330). -/
inductive Port where
  | audio
  | control
  deriving DecidableEq, Repr

/-- A command with its operands as its word holds them (30_encoding R104, R105). -/
inductive Instr where
  /-- `Q.F2I`: quantize `FIN[0]` (40_sample_codec R148). -/
  | qF2I
  /-- `Q.I2F w`: dequantize the word `w` (40_sample_codec R152). -/
  | qI2F (w : BitVec 16)
  /-- `FRM.ENC N`: encode one frame of `N` channels (40_sample_codec R156). -/
  | frmEnc (n : BitVec 9)
  /-- `FRM.DEC N`: decode one frame of `N` channels (40_sample_codec R160). -/
  | frmDec (n : BitVec 9)
  /-- `HDR.ENC`: serialize the send unit's current header (41_header_codec R186). -/
  | hdrEnc
  /-- `HDR.DEC L`: parse a header from `L` bytes (41_header_codec R192). -/
  | hdrDec (len : BitVec 16)
  /-- `BLK.BEGIN u`: the callback boundary (44_session_control R272). -/
  | blkBegin (u : SessionUnit)
  /-- `TX.PUSH`: append one frame (42_packet_assembler R212). -/
  | txPush
  /-- `TX.END`: emit every full packet (42_packet_assembler R216). -/
  | txEnd
  /-- `RX.PARSE L`: validate and de-interleave a datagram of `L` bytes (43_packet_parser R243). -/
  | rxParse (len : BitVec 16)
  /-- `CFG.HOST u, len`: set the host string (44_session_control R291). -/
  | cfgHost (u : SessionUnit) (len : BitVec 8)
  /-- `CFG.PORT u, port`: set the port number (44_session_control R292). -/
  | cfgPort (u : SessionUnit) (port : BitVec 16)
  /-- `CFG.NCH u, n`: set the channel count, clamped (44_session_control R293). -/
  | cfgNch (u : SessionUnit) (n : BitVec 20)
  /-- `CFG.NAME u, len`: set the stream name (44_session_control R294). -/
  | cfgName (u : SessionUnit) (len : BitVec 8)
  /-- `CFG.RUN u, b`: record a start or stop request (44_session_control R295). -/
  | cfgRun (u : SessionUnit) (b : Bool)
  /-- `CFG.SRCLR u`: release the fixed sample-rate index (44_session_control R296). -/
  | cfgSrclr (u : SessionUnit)
  deriving DecidableEq, Repr

end Sys2Proof
end

