-- ==== Sys2Proof/Machine/State.lean ====
section
/-! DEFINITION. The block's state (10_state), all of it as plain data, and the state after reset (10_state R60). -/

namespace Sys2Proof.Machine

/-- A window or buffer: the elements written since reset, as (address, value) pairs at strictly rising addresses. An
address that is not listed has not been written (10_state R61); over bytes this is a list of Host.Cell. -/
abbrev Memory (α : Type) := List (Nat × α)

/-- The four configuration fields that exist as a pending and an active copy (10_state R31, R32). -/
structure Bank where
  /-- `HOST`: its length is `HOSTLEN`, at most 255 (DEDUCED, safe: log entry 10). -/
  host : List Byte
  /-- `PORT`. -/
  port : BitVec 16
  /-- `NCH`, 1..254. -/
  nch : BitVec 8
  /-- `NAME`. -/
  name : Name
  deriving DecidableEq, Repr

/-- The registers of one session unit (10_state R30 to R35). -/
structure Session where
  /-- `P_HOST`, `P_PORT`, `P_NCH`, `P_NAME`. -/
  pending : Bank
  /-- `A_HOST`, `A_PORT`, `A_NCH`, `A_NAME`. -/
  active : Bank
  /-- `P_EN`: the last start/stop command. -/
  pEn : Bool
  /-- `P_SRCLR`: a request to release the fixed sample-rate index. -/
  pSrclr : Bool
  /-- `DIRTY`. -/
  dirty : Bool
  /-- `RUN`: false is Idle, true is Streaming. -/
  run : Bool
  /-- `SR_IDX`. -/
  srIdx : BitVec 5
  /-- `SR_FIXED`. -/
  srFixed : Bool
  deriving DecidableEq, Repr

/-- The header record of 41_header_codec R180; the `HD_*` result registers hold one (10_state R46). -/
structure Header where
  /-- `format_SR[4:0]`; as a register `HD_SR`. -/
  srIndex : BitVec 5
  /-- `format_SR[6:5]`; as a register `HD_SUBP`. -/
  subproto : BitVec 2
  /-- `format_SR[7]`; as a register `HD_RSV`. -/
  rsv7 : BitVec 1
  /-- `format_nbs`; as a register `HD_NBS`. -/
  nbs : Byte
  /-- `format_nbc`; as a register `HD_NBC`. -/
  nbc : Byte
  /-- `format_bit`; as a register `HD_BIT`. -/
  bit : Byte
  /-- `streamname`; as a register `HD_NAME`. -/
  name : Name
  /-- `nuFrame`; as a register `HD_NUFRAME`. -/
  nuFrame : BitVec 32
  deriving DecidableEq, Repr

/-- An event of the link output stream (10_state R50). -/
inductive LinkEvent where
  /-- `Open(u, host, port)`, from `start(u)`. -/
  | opened (u : SessionUnit) (host : List Byte) (port : BitVec 16)
  /-- `Close(u)`, from `stop(u)`. -/
  | closed (u : SessionUnit)
  /-- `Send(bytes)`, from `TX.END`: one complete datagram. -/
  | send (bytes : List Byte)
  deriving DecidableEq, Repr

/-- One step of an agent, of the link or of the platform, as presented to the block (00_scope R17; DESIGN CHOICE, safe: log entry 1). -/
inductive Input where
  /-- An agent presents a command word on a port (30_encoding R100). -/
  | command (port : Port) (word : Word)
  /-- The audio agent writes `FIN[index]` (10_state R48). -/
  | writeFin (index : BitVec 8) (x : Sample)
  /-- The audio agent writes `BIN[offset]` (10_state R48). -/
  | writeBin (offset : BitVec 16) (b : Byte)
  /-- The control agent writes `CIN[offset]`, `offset` in 0..254 (10_state R48). -/
  | writeCin (offset : Fin 255) (b : Byte)
  /-- The audio agent drives `HOST_RATE` (10_state R36). -/
  | driveRate (hz : BitVec 20)
  /-- The link places a received datagram in `BIN` (10_state R52). -/
  | deliver (datagram : List Byte)
  /-- The link reports a failed open or send (10_state R53). -/
  | linkFailure
  /-- The hardware reset input (70_reset_and_hazards R350). -/
  | reset
  deriving DecidableEq, Repr

/-- Everything the spec gives the machine, and the model's own fields `par`, `inputs`, `epoch`, `rateSamples`. -/
structure State where
  /-- MODEL'S OWN: the implementation's parameters (00_scope R9; DESIGN CHOICE, unsafe at reset: log entry 5). No step changes them. -/
  par : Params
  /-- MODEL'S OWN: the events the agents present, oldest first, in the total order of 20_memory R84 (DESIGN CHOICE, safe: log entry 1). -/
  inputs : List Input
  /-- The send unit's registers, `u = 0`. -/
  tx : Session
  /-- The receive unit's registers, `u = 1`. -/
  rx : Session
  /-- `HOST_RATE`, an input port; `none` while the host does not drive it (10_state R36; DESIGN CHOICE, safe: log entry 4). -/
  hostRate : Option (BitVec 20)
  /-- `WPOS` (10_state R40; a natural number: DESIGN CHOICE, safe: log entry 9). -/
  wpos : Nat
  /-- `ABUF` (10_state R41). -/
  abuf : Memory Byte
  /-- `NUFRAME` (10_state R42). -/
  nuFrame : BitVec 32
  /-- `RX_REASON` (10_state R44). -/
  rxReason : BitVec 4
  /-- `RX_VALID` (10_state R44). -/
  rxValid : Bool
  /-- `RX_NCH` (10_state R44). -/
  rxNch : BitVec 9
  /-- `RX_NS` (10_state R44). -/
  rxNs : BitVec 9
  /-- `RX_SRIDX` (10_state R44). -/
  rxSrIdx : BitVec 5
  /-- `RX_NUFRAME` (10_state R44). -/
  rxNuFrame : BitVec 32
  /-- `CHBUF[c][i]`, at address `256 × c + i` (10_state R45). -/
  chbuf : Memory Sample
  /-- `Q_RES` (10_state R46). -/
  qRes : BitVec 16
  /-- `HDR_OK` (10_state R46). -/
  hdrOk : Bool
  /-- `HD_SR`, `HD_SUBP`, `HD_RSV`, `HD_NBS`, `HD_NBC`, `HD_BIT`, `HD_NAME`, `HD_NUFRAME` (10_state R46). -/
  hd : Header
  /-- `STATUS`, six sticky bits (10_state R47). -/
  status : BitVec 6
  /-- `FIN`, 256 samples (10_state R48). -/
  fin : Memory Sample
  /-- `FOUT`, 256 samples (10_state R48). -/
  fout : Memory Sample
  /-- `BIN`, 65536 bytes (10_state R48). -/
  bin : Memory Byte
  /-- `BOUT`, 512 bytes (10_state R48). -/
  bout : Memory Byte
  /-- `CIN`, 255 bytes (10_state R48). -/
  cin : Memory Byte
  /-- `LINK_OUT`, oldest event first (10_state R50). -/
  linkOut : List LinkEvent
  /-- MODEL'S OWN: hardware resets so far, an argument of the unwritten contents' free values (DESIGN CHOICE, safe: log entry 3). -/
  epoch : Nat
  /-- MODEL'S OWN: samplings of an undriven `HOST_RATE` so far, the argument of their free value (DESIGN CHOICE, safe: log entry 4). -/
  rateSamples : Nat
  deriving DecidableEq, Repr

/-- The block has no fault: "No command traps. Every command, legal or not, runs to completion as one atomic step"
(60_exceptions R310). No constructor, so no step can answer one. -/
inductive Fault
  deriving DecidableEq, Repr

/-- Why a step answers no meaning. -/
inductive Refusal where
  /-- Raised by an arm of `exec` for an instruction that has no meaning yet; safe. Every arm has its meaning, so no step
  answers it. -/
  | notModelled (mnemonic : String)
  deriving DecidableEq, Repr

/-- Sixteen `00` bytes, the reset value of `NAME` and `HD_NAME` (10_state R32, R60). -/
def Name.empty : Name := Vector.replicate 16 0#8

/-- The reset value of a configuration bank whose `HOST` is `host` (10_state R32). -/
def Bank.resetWith (host : List Byte) : Bank where
  host := host
  port := Config.defaultPort
  nch := 1#8
  name := Name.empty

/-- The reset value of a session unit (10_state R60). -/
def Session.resetWith (host : List Byte) : Session where
  pending := Bank.resetWith host
  active := Bank.resetWith host
  pEn := false
  pSrclr := false
  dirty := false
  run := false
  srIdx := 0#5
  srFixed := false

/-- The reset value of the `HD_*` registers (10_state R46, R60). -/
def Header.zero : Header where
  srIndex := 0#5
  subproto := 0#2
  rsv7 := 0#1
  nbs := 0#8
  nbc := 0#8
  bit := 0#8
  name := Name.empty
  nuFrame := 0#32

/-- The block right after reset (10_state R60, R61, 70_reset_and_hazards R350), with nothing presented and the spec's default
parameters (DESIGN CHOICE: log entries 2, 5). -/
def State.reset : State where
  par := Config.defaultParams
  inputs := []
  tx := Session.resetWith Config.defaultDest
  rx := Session.resetWith []
  hostRate := none
  wpos := 28
  abuf := []
  nuFrame := 0#32
  rxReason := 0#4
  rxValid := false
  rxNch := 0#9
  rxNs := 0#9
  rxSrIdx := 0#5
  rxNuFrame := 0#32
  chbuf := []
  qRes := 0#16
  hdrOk := false
  hd := Header.zero
  status := 0#6
  fin := []
  fout := []
  bin := []
  bout := []
  cin := []
  linkOut := []
  epoch := 0
  rateSamples := 0

end Sys2Proof.Machine
end

