-- ==== Sys2Proof/Machine/Ops.lean ====
section
/-! DEFINITION. The named operations over memory and registers that the meanings are written in. The block takes no exception and
has no return from one (60_exceptions R310, R315, R316), so no such operation stands here: an abnormal outcome is a result
register or a sticky bit (Machine/Flags.lean). -/

namespace Sys2Proof.Machine

/-! ## Memory -/

/-- The value written at an address, or none where nothing has been written since reset (10_state R61). -/
def Memory.read {α : Type} : Memory α → Nat → Option α
  | [], _ => none
  | (k, v) :: m, a => if k = a then some v else Memory.read m a

/-- Consecutive entries from an address upward. -/
def Memory.cells {α : Type} : Nat → List α → Memory α
  | _, [] => []
  | base, v :: vs => (base, v) :: Memory.cells (base + 1) vs

/-- `W[base .. base + n) <- vs` for `n` values `vs` (00_scope R14): the old entries below, the new ones, the old ones above. -/
def Memory.store {α : Type} (m : Memory α) (base : Nat) (vs : List α) : Memory α :=
  m.filter (fun c => decide (c.1 < base)) ++ Memory.cells base vs ++ m.filter (fun c => decide (base + vs.length ≤ c.1))

/-- `W[base .. base + n)` (00_scope R14), where `unwritten` gives what an unwritten element reads as (10_state R63). -/
def Memory.load {α : Type} (m : Memory α) (unwritten : Nat → α) (base n : Nat) : List α :=
  (List.range n).map (fun k => (m.read (base + k)).getD (unwritten (base + k)))

/-- The canonical form: strictly rising addresses. No entry can equal what an unlisted address reads as, since an unlisted
address has no value. -/
abbrev Memory.wf {α : Type} (m : Memory α) : Prop := m.Pairwise (fun x y => x.1 < y.1)

/-- Every listed address lies in a space of `size` elements (20_memory R70). -/
abbrev Memory.within {α : Type} (size : Nat) (m : Memory α) : Prop := ∀ c ∈ m, c.1 < size

/-- The address of `CHBUF[c][i]` (10_state R45). -/
def chKey (c i : Nat) : Nat := 256 * c + i

/-! ## Names -/

/-- The first `n` of the bytes, `00` bytes after them where there are fewer. -/
def padTo (n : Nat) (bytes : List Byte) : List Byte := (bytes ++ List.replicate n 0#8).take n

theorem padTo_length (n : Nat) (bytes : List Byte) : (padTo n bytes).length = n := by
  simp [padTo]

/-- The 16-byte register or field that holds the bytes, null-padded (30_encoding R126). -/
def nameOfBytes (bytes : List Byte) : Name := ⟨⟨padTo 16 bytes⟩, padTo_length 16 bytes⟩

/-- The bytes before the first `00` byte, or all of them: `str` of 43_packet_parser R252. -/
def nullTerminated (bytes : List Byte) : List Byte := bytes.takeWhile (fun b => b != 0#8)

/-- The name `CFG.NAME` keeps of a string: at most its first 15 bytes, cut at the first `00` byte, null-padded
(44_session_control R294). -/
def configuredName (bytes : List Byte) : Name := nameOfBytes (nullTerminated (bytes.take Config.nameChars))

/-! ## Session registers -/

/-- `REG[u]`: the registers of session unit `u` (00_scope R14). -/
def State.sess (s : State) : SessionUnit → Session
  | .tx => s.tx
  | .rx => s.rx

/-- Write of the registers of session unit `u`. -/
def State.setSess (s : State) (u : SessionUnit) (x : Session) : State :=
  match u with
  | .tx => { s with tx := x }
  | .rx => { s with rx := x }

/-- `emit`: append an event to `LINK_OUT` (10_state R50). -/
def State.emit (s : State) (e : LinkEvent) : State := { s with linkOut := s.linkOut ++ [e] }

/-! ## Packet size (10_state R43, 42_packet_assembler R211) -/

/-- `S(C) = min(256, 2 × ((1436 div (2 × C)) div 2))`. -/
def samplesPerChannel (c : Nat) : Nat := min Config.nsMax (2 * ((Config.maxPayload / (2 * c)) / 2))

/-- `CAP(C) = S(C) × C × 2`. -/
def payloadCap (c : Nat) : Nat := samplesPerChannel c * c * 2

/-- `A_NCH[0]` as a number, the `C` of the send unit (10_state R43). -/
def State.txChannels (s : State) : Nat := s.tx.active.nch.toNat

/-! ## Hardware reset -/

/-- The hardware reset input (70_reset_and_hazards R350): every register at its reset value, every window and buffer
unspecified anew, `LINK_OUT` empty. What stands outside the block stays: the parameters, what the agents present, the rate the
host drives (DEDUCED, unsafe for the pending events: log entry 7). -/
def State.hardwareReset (s : State) : State :=
  { State.reset with
    par := s.par
    inputs := s.inputs
    hostRate := s.hostRate
    epoch := s.epoch + 1
    rateSamples := s.rateSamples }

end Sys2Proof.Machine
end

