-- ==== Sys2Proof/Machine/Flags.lean ====
section
/-! DEFINITION. The sticky bits of `STATUS` and every way a command sets one (10_state R47). There are no condition codes
(10_state R22). -/

namespace Sys2Proof.Machine

/-- The bits of `STATUS` (10_state R47). -/
inductive StatusBit where
  | qovf
  | qinv
  | illcmd
  | cfgerr
  | abufovf
  | linkerr
  deriving DecidableEq, Repr

/-- The bit's number in `STATUS` (10_state R47). -/
def statusIndex : StatusBit → Nat
  | .qovf => 0
  | .qinv => 1
  | .illcmd => 2
  | .cfgerr => 3
  | .abufovf => 4
  | .linkerr => 5

/-- The `STATUS` word with that bit alone. -/
def statusMask (b : StatusBit) : BitVec 6 := 1#6 <<< statusIndex b

/-- Set the bits of a mask; a bit that is set stays set (10_state R47). -/
def State.raise (s : State) (mask : BitVec 6) : State := { s with status := s.status ||| mask }

/-- `flag F` (00_scope R14). -/
def State.flag (s : State) (b : StatusBit) : State := s.raise (statusMask b)

/-- Whether a sticky bit is set. -/
def State.hasFlag (s : State) (b : StatusBit) : Bool := s.status.getLsbD (statusIndex b)

/-- The outcome the quantizer reports beside its word: none, `QOVF` or `QINV` (40_sample_codec R140). -/
inductive QFlag where
  | none
  | qovf
  | qinv
  deriving DecidableEq, Repr

/-- The `STATUS` bits of one quantizer outcome (40_sample_codec R148). -/
def quantMask : QFlag → BitVec 6
  | .none => 0#6
  | .qovf => statusMask .qovf
  | .qinv => statusMask .qinv

/-- The `STATUS` bits of a frame: the union over its channels (40_sample_codec R154). -/
def frameMask (fs : List QFlag) : BitVec 6 := fs.foldr (fun f m => quantMask f ||| m) 0#6

/-- An illegal command: `flag ILLCMD` and nothing else (30_encoding R108). -/
def State.illegalCommand (s : State) : State := s.flag .illcmd

end Sys2Proof.Machine
end

