-- ==== Sys2Proof/Machine/Operands.lean ====
section
/-! DEFINITION. The operand forms: reads and writes of the windows (10_state R48, 30_encoding R106), byte order (20_memory R71),
and what the agents can read back (60_exceptions R330). -/

namespace Sys2Proof.Machine

/-! ## Byte order -/

/-- A 16-bit word from its low and high byte (20_memory R71). -/
def le16 (lo hi : Byte) : BitVec 16 := hi ++ lo

/-- The bytes of a 16-bit word, low byte first (20_memory R71). -/
def bytes16 (w : BitVec 16) : List Byte := [w.extractLsb' 0 8, w.extractLsb' 8 8]

/-- A 32-bit word from its bytes, the byte at the lowest offset first (20_memory R71). -/
def le32 (b0 b1 b2 b3 : Byte) : BitVec 32 := b3 ++ b2 ++ b1 ++ b0

/-- The bytes of a 32-bit word, low byte first (20_memory R71). -/
def bytes32 (n : BitVec 32) : List Byte :=
  [n.extractLsb' 0 8, n.extractLsb' 8 8, n.extractLsb' 16 8, n.extractLsb' 24 8]

/-! ## Windows the block reads -/

/-- `FIN[i]`; an unwritten element reads an unspecified value (10_state R63). -/
def State.finAt (s : State) (i : Nat) : Sample := (s.fin.read i).getD (Config.unwrittenSample s.epoch i)

/-- `FIN[0..n-1]`. -/
def State.finFrame (s : State) (n : Nat) : List Sample := (List.range n).map s.finAt

/-- `BIN[a]`; an unwritten byte reads an unspecified value (10_state R63). -/
def State.binAt (s : State) (a : Nat) : Byte := (s.bin.read a).getD (Config.unwrittenByte s.epoch .bin a)

/-- `CIN[0 .. n)`; an unwritten byte reads an unspecified value (10_state R63). -/
def State.cinBytes (s : State) (n : Nat) : List Byte := s.cin.load (Config.unwrittenByte s.epoch .cin) 0 n

/-- `n` bytes of a content of `ABUF` from offset `a`; an unwritten byte reads an unspecified value (10_state R63). -/
def State.abufBytes (s : State) (m : Memory Byte) (a n : Nat) : List Byte :=
  m.load (Config.unwrittenByte s.epoch .abuf) a n

/-! ## Windows the block writes -/

/-- `BOUT[0 .. n) <- bytes`. -/
def State.writeBout (s : State) (bytes : List Byte) : State := { s with bout := s.bout.store 0 bytes }

/-- `FOUT[0 .. n-1] <- xs`. -/
def State.writeFout (s : State) (xs : List Sample) : State := { s with fout := s.fout.store 0 xs }

/-! ## What the audio agent reads back -/

/-- `CHBUF[c][i]` as the audio agent may use it: meaningful only while `RX_VALID = 1`, for `c < RX_NCH` and `i < RX_NS`;
every other element has no value (10_state R45; DEDUCED, safe: log entry 11). -/
def State.chbufAt (s : State) (c i : Nat) : Option Sample :=
  if s.rxValid = true ∧ c < s.rxNch.toNat ∧ i < s.rxNs.toNat then s.chbuf.read (chKey c i) else none

end Sys2Proof.Machine
end

