-- ==== Sys2Proof/Machine/HeaderCodec.lean ====
section
/-! DEFINITION. The Header Codec (41_header_codec): the 28-byte header's serializer and parser, the codes of the wire format
(30_encoding R120 to R127), and the commands `HDR.ENC`, `HDR.DEC`. -/

namespace Sys2Proof.Machine

/-- The magic `56 42 41 4E` (20_memory R72). -/
def magic : List Byte := [0x56#8, 0x42#8, 0x41#8, 0x4E#8]

/-- Bytes 0..3 are the magic, compared byte for byte (20_memory R72). -/
def hasMagic (b : Nat → Byte) : Bool := (List.range 4).map b == magic

/-- The `PCM_16` byte: `CODEC_PCM` above `RES_PCM16` (30_encoding R125). -/
def pcm16 (p : Params) : Byte := p.codecPcm ++ p.resPcm16

/-- Field `sr_index` of `format_SR` (30_encoding R121). -/
def srIndexOf (formatSR : Byte) : BitVec 5 := formatSR.extractLsb' 0 5

/-- Field `subproto` of `format_SR` (30_encoding R121). -/
def subprotoOf (formatSR : Byte) : BitVec 2 := formatSR.extractLsb' 5 2

/-- Field `rsv7` of `format_SR` (30_encoding R121). -/
def rsv7Of (formatSR : Byte) : BitVec 1 := formatSR.extractLsb' 7 1

/-- The byte `format_SR` from its fields (41_header_codec R184). -/
def formatSR (rsv7 : BitVec 1) (subproto : BitVec 2) (srIndex : BitVec 5) : Byte := rsv7 ++ subproto ++ srIndex

/-- Field `resolution` of `format_bit` (30_encoding R125). -/
def resolutionOf (formatBit : Byte) : BitVec 3 := formatBit.extractLsb' 0 3

/-- Field `codec` of `format_bit` (30_encoding R125). -/
def codecOf (formatBit : Byte) : BitVec 5 := formatBit.extractLsb' 3 5

/-- `hdr_encode` (41_header_codec R184). -/
def hdrEncode (h : Header) : List Byte :=
  magic ++ [formatSR h.rsv7 h.subproto h.srIndex, h.nbs, h.nbc, h.bit] ++ h.name.toList ++ bytes32 h.nuFrame

/-- `tx_header()`, the header the send unit stamps (41_header_codec R185). -/
def txHeader (s : State) : Header where
  srIndex := s.tx.srIdx
  subproto := s.par.subprotoAudio
  rsv7 := 0#1
  nbs := BitVec.ofNat 8 (samplesPerChannel s.txChannels - 1)
  nbc := s.tx.active.nch - 1#8
  bit := pcm16 s.par
  name := s.tx.active.name
  nuFrame := s.nuFrame

/-- The header record in the first 28 bytes (41_header_codec R190). -/
def headerOf (b : Nat → Byte) : Header where
  srIndex := srIndexOf (b 4)
  subproto := subprotoOf (b 4)
  rsv7 := rsv7Of (b 4)
  nbs := b 5
  nbc := b 6
  bit := b 7
  name := nameOfBytes ((List.range 16).map (fun k => b (8 + k)))
  nuFrame := le32 (b 24) (b 25) (b 26) (b 27)

/-- `hdr_decode` (41_header_codec R190), `none` for `InvalidHeader`. The third check, `format_nbc + 1 < 1`, is never true. -/
def hdrDecode (p : Params) (b : Nat → Byte) (len : Nat) : Option Header :=
  if len < Config.hdrSize then none
  else if !hasMagic b then none
  else if (b 6).toNat + 1 < 1 then none
  else if Config.srCount ≤ (srIndexOf (b 4)).toNat then none
  else if b 7 ≠ pcm16 p then none
  else some (headerOf b)

/-- `HDR.ENC` (41_header_codec R186). -/
def execHdrEnc (s : State) : Host.Outcome State Fault Refusal :=
  .next (s.writeBout (hdrEncode (txHeader s)))

/-- `HDR.DEC L` (41_header_codec R192). -/
def execHdrDec (len : BitVec 16) (s : State) : Host.Outcome State Fault Refusal :=
  .next
    (match hdrDecode s.par s.binAt len.toNat with
    | none => { s with hdrOk := false }
    | some h => { s with hdrOk := true, hd := h })

end Sys2Proof.Machine
end

