-- ==== Sys2Proof/Machine/SampleCodec.lean ====
section
/-! DEFINITION. The Sample Codec (40_sample_codec): the quantizer both ways, the frame interleaver, and the commands `Q.F2I`,
`Q.I2F`, `FRM.ENC`, `FRM.DEC`. -/

namespace Sys2Proof.Machine

/-! ## binary32 (00_scope R11) -/

/-- The sign bit `x[31]`. -/
def signBit (x : Sample) : Bool := x.getLsbD 31

/-- The exponent field `x[30:23]`. -/
def expField (x : Sample) : Nat := (x.extractLsb' 23 8).toNat

/-- The fraction field `x[22:0]`. -/
def fracField (x : Sample) : Nat := (x.extractLsb' 0 23).toNat

/-- Neither a NaN nor an infinity. -/
def isFinite (x : Sample) : Bool := expField x != 255

/-- The exact value of a finite pattern (00_scope R11). -/
def realValue (x : Sample) : ℚ :=
  let sign : ℚ := if signBit x then -1 else 1
  if expField x = 0 then sign * fracField x * (2 : ℚ) ^ (-149 : ℤ)
  else sign * (2 ^ 23 + fracField x) * (2 : ℚ) ^ ((expField x : ℤ) - 150)

/-- `trunc` of 00_scope R13: the floor of a non-negative rational, the ceiling of a negative one. -/
def truncRat (q : ℚ) : ℤ := if 0 ≤ q then ⌊q⌋ else ⌈q⌉

/-! ## float to int16 (40_sample_codec R140 to R147) -/

/-- The magnitude of `trunc(real(x) × 32768)` for a finite `x`, in whole numbers: the scale adds 15 to the exponent
(40_sample_codec R141) and the fraction is discarded (R143). -/
def scaledMagnitude (x : Sample) : Nat :=
  if expField x = 0 then fracField x / 2 ^ 134
  else if expField x < 135 then (2 ^ 23 + fracField x) / 2 ^ (135 - expField x)
  else (2 ^ 23 + fracField x) * 2 ^ (expField x - 135)

/-- `v = trunc(real(x) × 32768)` for a finite `x` (40_sample_codec R143). -/
def scaledTrunc (x : Sample) : Int := if signBit x then -(scaledMagnitude x : Int) else scaledMagnitude x

/-- Whether the truncated integer fits 16 bits (40_sample_codec R144). -/
def fits16 (v : Int) : Bool := decide (-32768 ≤ v ∧ v ≤ 32767)

/-- The output word of a truncated integer under the overflow policy (40_sample_codec R144, R146). -/
def quantWord (policy : QovfPolicy) (v : Int) : BitVec 16 :=
  match policy with
  | .wrap => BitVec.ofInt 16 v
  | .saturate => if 32767 < v then 0x7FFF#16 else if v < -32768 then 0x8000#16 else BitVec.ofInt 16 v

/-- `qenc` (40_sample_codec R140): the word and the flag of every input pattern. -/
def qenc (policy : QovfPolicy) (x : Sample) : BitVec 16 × QFlag :=
  if isFinite x then
    (quantWord policy (scaledTrunc x), if fits16 (scaledTrunc x) then .none else .qovf)
  else (0#16, .qinv)

/-! ## int16 to float (40_sample_codec R150) -/

/-- `qdec` (40_sample_codec R150): the binary32 pattern of `sext_16(w) / 32768`. -/
def qdec (w : BitVec 16) : Sample :=
  let mag := w.toInt.natAbs
  let k := mag.log2
  if w = 0#16 then 0#32
  else
    (if w.msb then 1#1 else 0#1) ++ BitVec.ofNat 8 (127 + k - 15) ++ BitVec.ofNat 23 ((mag - 2 ^ k) * 2 ^ (23 - k))

/-! ## Frames (40_sample_codec R154, R158, R163) -/

/-- `frame_encode`: each channel's word in little-endian order, and each channel's flag (40_sample_codec R154). -/
def frameEncode (policy : QovfPolicy) (xs : List Sample) : List Byte × List QFlag :=
  (xs.flatMap (fun x => bytes16 (qenc policy x).1), xs.map (fun x => (qenc policy x).2))

/-- The sample whose word stands at offset `a`: `qdec(MemRead(b, a, 2))`. -/
def sampleAt (b : Nat → Byte) (a : Nat) : Sample := qdec (le16 (b a) (b (a + 1)))

/-- `frame_decode`: the samples of `n` channels from offset 0 (40_sample_codec R158). -/
def frameDecode (n : Nat) (b : Nat → Byte) : List Sample := (List.range n).map (fun c => sampleAt b (2 * c))

/-- `deinterleave` as the content of `CHBUF`: channel `c` of sample `i` from payload offset `(i × C + c) × 2`, where `b` counts
from the start of the datagram (40_sample_codec R162, R163). -/
def deinterleave (channels samples : Nat) (b : Nat → Byte) : Memory Sample :=
  (List.range channels).flatMap (fun c =>
    (List.range samples).map (fun i => (chKey c i, sampleAt b (Config.hdrSize + (i * channels + c) * 2))))

/-! ## Commands -/

/-- `Q.F2I` (40_sample_codec R148). -/
def execQF2I (s : State) : Host.Outcome State Fault Refusal :=
  let r := qenc s.par.qovfPolicy (s.finAt 0)
  .next (({ s with qRes := r.1 }.writeBout (bytes16 r.1)).raise (quantMask r.2))

/-- `Q.I2F w` (40_sample_codec R152). -/
def execQI2F (w : BitVec 16) (s : State) : Host.Outcome State Fault Refusal :=
  .next (s.writeFout [qdec w])

/-- The channel counts `FRM.ENC` and `FRM.DEC` accept, 1..256 (30_encoding R104). -/
def legalCount (n : BitVec 9) : Bool := decide (1 ≤ n.toNat ∧ n.toNat ≤ 256)

/-- `FRM.ENC N` (40_sample_codec R156); `N` outside 1..256 is illegal (30_encoding R108 (d); DEDUCED, safe: log entry 12). -/
def execFrmEnc (n : BitVec 9) (s : State) : Host.Outcome State Fault Refusal :=
  let r := frameEncode s.par.qovfPolicy (s.finFrame n.toNat)
  .next (if legalCount n then (s.writeBout r.1).raise (frameMask r.2) else s.illegalCommand)

/-- `FRM.DEC N` (40_sample_codec R160); `N` outside 1..256 is illegal (30_encoding R108 (d)). -/
def execFrmDec (n : BitVec 9) (s : State) : Host.Outcome State Fault Refusal :=
  .next (if legalCount n then s.writeFout (frameDecode n.toNat s.binAt) else s.illegalCommand)

end Sys2Proof.Machine
end

