-- ==== Sys2Proof/Machine/PacketAssembler.lean ====
section
/-! DEFINITION. The Packet Assembler (42_packet_assembler): the commands `TX.PUSH`, `TX.END`. -/

namespace Sys2Proof.Machine

/-- A push that fits: quantize the frame, store it at the cursor, advance the cursor (42_packet_assembler R212). -/
def State.appendFrame (s : State) : State :=
  let r := frameEncode s.par.qovfPolicy (s.finFrame s.txChannels)
  { s with abuf := s.abuf.store s.wpos r.1, wpos := s.wpos + 2 * s.txChannels }.raise (frameMask r.2)

/-- `TX.PUSH` (42_packet_assembler R212): ignored in Idle (R214), refused with `ABUFOVF` when the frame does not fit (R213). -/
def execTxPush (s : State) : Host.Outcome State Fault Refusal :=
  .next
    (if s.tx.run then
      if s.par.abufCap < s.wpos + 2 * s.txChannels then s.flag .abufovf else s.appendFrame
    else s)

/-- `ABUF` with the header stamped into offsets 0..27 (42_packet_assembler R216, R219). -/
def State.stampedAbuf (s : State) : Memory Byte := s.abuf.store 0 (hdrEncode (txHeader s))

/-- One turn of the loop of 42_packet_assembler R216: stamp, send `28 + cap` bytes, count, carry the residue down (all of it
read before any of it is written). -/
def State.emitDatagram (s : State) (cap : Nat) : State :=
  let residue := s.wpos - (Config.hdrSize + cap)
  { s with
    abuf := s.stampedAbuf.store Config.hdrSize (s.abufBytes s.stampedAbuf (Config.hdrSize + cap) residue)
    wpos := Config.hdrSize + residue
    nuFrame := s.nuFrame + 1#32
    linkOut := s.linkOut ++ [.send (s.abufBytes s.stampedAbuf 0 (Config.hdrSize + cap))] }

/-- The loop of 42_packet_assembler R216, with a bound on its turns. -/
def emitWhileFull (cap : Nat) : Nat → State → State
  | 0, s => s
  | fuel + 1, s => if Config.hdrSize + cap ≤ s.wpos then emitWhileFull cap fuel (s.emitDatagram cap) else s

/-- `TX.END` (42_packet_assembler R216); ignored in Idle (R214). Every turn takes `cap` bytes off the cursor, so the loop ends
within `(WPOS - 28) div cap` turns (DEDUCED, safe: log entry 18). -/
def execTxEnd (s : State) : Host.Outcome State Fault Refusal :=
  let cap := payloadCap s.txChannels
  .next (if s.tx.run then emitWhileFull cap ((s.wpos - Config.hdrSize) / cap) s else s)

end Sys2Proof.Machine
end

