-- ==== Sys2Proof/Machine/PacketParser.lean ====
section
/-! DEFINITION. The Packet Parser (43_packet_parser): the command `RX.PARSE`. -/

namespace Sys2Proof.Machine

/-- Why a datagram is rejected (43_packet_parser R244). -/
inductive RejectReason where
  | tooShort
  | badMagic
  | unsupportedSubProtocol
  | unsupportedCodec
  | unsupportedResolution
  | badSampleRate
  | streamMismatch
  | truncatedPayload
  deriving DecidableEq, Repr

/-- What an accepted datagram gives (43_packet_parser R243, step 9). -/
structure Accepted where
  /-- `C`, to `RX_NCH`. -/
  channels : Nat
  /-- `S`, to `RX_NS`. -/
  samples : Nat
  /-- to `RX_SRIDX`. -/
  srIndex : BitVec 5
  /-- to `RX_NUFRAME`. -/
  nuFrame : BitVec 32
  /-- to `CHBUF`. -/
  buffers : Memory Sample
  deriving DecidableEq, Repr

/-- The code of a reason in `RX_REASON`, the number of the step (43_packet_parser R244). -/
def reasonCode : RejectReason → BitVec 4
  | .tooShort => 1#4
  | .badMagic => 2#4
  | .unsupportedSubProtocol => 3#4
  | .unsupportedCodec => 4#4
  | .unsupportedResolution => 5#4
  | .badSampleRate => 6#4
  | .streamMismatch => 7#4
  | .truncatedPayload => 8#4

/-- `SUBPROTO_CHECK_MASK` (30_encoding R122). -/
def subprotoMask : SubprotoCheck → Byte
  | .withReserved => 0xE0#8
  | .withoutReserved => 0x60#8

/-- The test "equals Audio" of step 3: the masked bits of `format_SR` are those of an audio header (43_packet_parser R247,
30_encoding R122; DEDUCED, unsafe for other codes: log entry 20). -/
def isAudio (p : Params) (fsr : Byte) : Bool :=
  (fsr &&& subprotoMask p.subprotoCheck) == formatSR 0#1 p.subprotoAudio 0#5

/-- `name_eq` (43_packet_parser R252). -/
def nameEq (field : List Byte) (subscription : Name) : Bool :=
  nullTerminated field == nullTerminated subscription.toList

/-- `parse` (43_packet_parser R240, R243): the first `len` bytes `b` of a datagram against the subscription, the nine steps in
their order. -/
def parse (p : Params) (b : Nat → Byte) (len : Nat) (subscription : Name) : Except RejectReason Accepted :=
  let channels := (b 6).toNat + 1
  let samples := (b 5).toNat + 1
  if len < Config.hdrSize then .error .tooShort
  else if !hasMagic b then .error .badMagic
  else if !isAudio p (b 4) then .error .unsupportedSubProtocol
  else if codecOf (b 7) ≠ p.codecPcm then .error .unsupportedCodec
  else if resolutionOf (b 7) ≠ p.resPcm16 then .error .unsupportedResolution
  else if Config.srCount ≤ (srIndexOf (b 4)).toNat then .error .badSampleRate
  else if !nameEq ((List.range 16).map (fun k => b (8 + k))) subscription then .error .streamMismatch
  else if len < Config.hdrSize + channels * samples * 2 then .error .truncatedPayload
  else
    .ok
      { channels := channels
        samples := samples
        srIndex := srIndexOf (b 4)
        nuFrame := le32 (b 24) (b 25) (b 26) (b 27)
        buffers := deinterleave channels samples b }

/-- `reject R` (43_packet_parser R243): the reason, `RX_VALID` cleared, nothing else. -/
def State.rejectDatagram (s : State) (r : RejectReason) : State :=
  { s with rxReason := reasonCode r, rxValid := false }

/-- Step 9 (43_packet_parser R243, R254): the results, and `CHBUF` holding this datagram's samples and no other. -/
def State.acceptDatagram (s : State) (a : Accepted) : State :=
  { s with
    chbuf := a.buffers
    rxNch := BitVec.ofNat 9 a.channels
    rxNs := BitVec.ofNat 9 a.samples
    rxSrIdx := a.srIndex
    rxNuFrame := a.nuFrame
    rxReason := 0#4
    rxValid := true }

/-- `RX.PARSE L` (43_packet_parser R243); ignored in Idle (R241). -/
def execRxParse (len : BitVec 16) (s : State) : Host.Outcome State Fault Refusal :=
  .next
    (if s.rx.run then
      match parse s.par s.binAt len.toNat s.rx.active.name with
      | .error r => s.rejectDatagram r
      | .ok a => s.acceptDatagram a
    else s)

end Sys2Proof.Machine
end

