-- ==== Sys2Proof/Machine/Session.lean ====
section
/-! DEFINITION. The Session (44_session_control): the command `BLK.BEGIN` with its internal procedures `start` and `stop`, and the
commands `CFG.HOST`, `CFG.PORT`, `CFG.NCH`, `CFG.NAME`, `CFG.RUN`, `CFG.SRCLR`. -/

namespace Sys2Proof.Machine

/-! ## Start and stop -/

/-- The least index whose table entry equals the rate (44_session_control R280, R283). -/
def resolveRate (p : Params) (hz : BitVec 20) : Option (BitVec 5) :=
  (p.srTable.toList.findIdx? (fun entry => entry == hz.toNat)).map (BitVec.ofNat 5)

/-- The value a sampling of `HOST_RATE` gives; unspecified while the host does not drive it (10_state R36, 93 U8). -/
def State.sampledRate (s : State) : BitVec 20 := s.hostRate.getD (Config.undrivenRate s.rateSamples)

/-- Count a sampling of an undriven `HOST_RATE`, so that the next one is a fresh unspecified value (DESIGN CHOICE, safe: log entry 4). -/
def State.countSample (s : State) : State :=
  { s with rateSamples := if s.hostRate.isNone then s.rateSamples + 1 else s.rateSamples }

/-- What a start or a stop resets on its unit's datapath: the cursor of the send unit, the result's validity of the receive
unit (44_session_control R284, R285). -/
def State.resetDatapath (s : State) (u : SessionUnit) : State :=
  match u with
  | .tx => { s with wpos := Config.hdrSize }
  | .rx => { s with rxValid := false }

/-- The end of `start(u)` once the rate is resolved: `Open`, `RUN[u] <- 1`, the datapath reset, and for the send unit
`NUFRAME <- 0` (44_session_control R280, R284). -/
def State.openLink (s : State) (u : SessionUnit) : State :=
  let x := s.sess u
  let t := ((s.emit (.opened u x.active.host x.active.port)).setSess u { x with run := true }).resetDatapath u
  match u with
  | .tx => { t with nuFrame := 0#32 }
  | .rx => t

/-- `start(u)` (44_session_control R280). -/
def State.start (s : State) (u : SessionUnit) : State :=
  if (s.sess u).srFixed then s.openLink u
  else
    match resolveRate s.par s.sampledRate with
    | none => s.countSample.flag .cfgerr
    | some i => (s.countSample.setSess u { s.sess u with srIdx := i, srFixed := true }).openLink u

/-- `stop(u)` (44_session_control R285). -/
def State.stop (s : State) (u : SessionUnit) : State :=
  let t := if (s.sess u).run then s.emit (.closed u) else s
  (t.setSess u { s.sess u with run := false }).resetDatapath u

/-! ## The callback boundary -/

/-- The registers of a unit once a dirty `BLK.BEGIN` has made the pending bank active and consumed `DIRTY` and `P_SRCLR`
(44_session_control R272, R274). -/
def Session.applied (x : Session) : Session :=
  { x with
    dirty := false
    active := x.pending
    srFixed := if x.pSrclr then false else x.srFixed
    pSrclr := false }

/-- `BLK.BEGIN u` on a dirty unit (44_session_control R272). -/
def State.reconfigure (s : State) (u : SessionUnit) : State :=
  let t := (s.setSess u (s.sess u).applied).stop u
  if (s.sess u).pEn then t.start u else t

/-- `BLK.BEGIN u` (44_session_control R272): the exchange of `DIRTY[u]` with 0 changes nothing when it reads 0. -/
def execBlkBegin (u : SessionUnit) (s : State) : Host.Outcome State Fault Refusal :=
  .next (if (s.sess u).dirty then s.reconfigure u else s)

/-! ## Configuration commands (44_session_control R290) -/

/-- Write the pending bank of unit `u` and set `DIRTY[u]` (44_session_control R290). -/
def State.configure (s : State) (u : SessionUnit) (bank : Bank) : State :=
  s.setSess u { s.sess u with pending := bank, dirty := true }

/-- `min(254, max(1, n))` (44_session_control R293). -/
def clampChannels (n : BitVec 20) : BitVec 8 := BitVec.ofNat 8 (min Config.nchMax (max 1 n.toNat))

/-- `CFG.HOST u, len` (44_session_control R291). -/
def execCfgHost (u : SessionUnit) (len : BitVec 8) (s : State) : Host.Outcome State Fault Refusal :=
  .next (s.configure u { (s.sess u).pending with host := s.cinBytes len.toNat })

/-- `CFG.PORT u, port` (44_session_control R292). -/
def execCfgPort (u : SessionUnit) (port : BitVec 16) (s : State) : Host.Outcome State Fault Refusal :=
  .next (s.configure u { (s.sess u).pending with port := port })

/-- `CFG.NCH u, n` (44_session_control R293). -/
def execCfgNch (u : SessionUnit) (n : BitVec 20) (s : State) : Host.Outcome State Fault Refusal :=
  .next (s.configure u { (s.sess u).pending with nch := clampChannels n })

/-- `CFG.NAME u, len` (44_session_control R294): it reads `CIN[0 .. min(len, 15))`. -/
def execCfgName (u : SessionUnit) (len : BitVec 8) (s : State) : Host.Outcome State Fault Refusal :=
  .next (s.configure u
    { (s.sess u).pending with name := configuredName (s.cinBytes (min len.toNat Config.nameChars)) })

/-- `CFG.RUN u, b` (44_session_control R295). -/
def execCfgRun (u : SessionUnit) (b : Bool) (s : State) : Host.Outcome State Fault Refusal :=
  .next (s.setSess u { s.sess u with pEn := b, dirty := true })

/-- `CFG.SRCLR u` (44_session_control R296). -/
def execCfgSrclr (u : SessionUnit) (s : State) : Host.Outcome State Fault Refusal :=
  .next (s.setSess u { s.sess u with pSrclr := true, dirty := true })

end Sys2Proof.Machine
end

