-- ==== Sys2Proof/Machine/Dispatch.lean ====
section
/-! DEFINITION. One arm per command: its meaning. -/

namespace Sys2Proof.Machine

/-- What a command does, on the port that may issue it (30_encoding R104). -/
def exec (i : Instr) (s : State) : Host.Outcome State Fault Refusal :=
  match i with
  | .qF2I => Sys2Proof.Machine.execQF2I s
  | .qI2F w => Sys2Proof.Machine.execQI2F w s
  | .frmEnc n => Sys2Proof.Machine.execFrmEnc n s
  | .frmDec n => Sys2Proof.Machine.execFrmDec n s
  | .hdrEnc => Sys2Proof.Machine.execHdrEnc s
  | .hdrDec len => Sys2Proof.Machine.execHdrDec len s
  | .blkBegin u => Sys2Proof.Machine.execBlkBegin u s
  | .txPush => Sys2Proof.Machine.execTxPush s
  | .txEnd => Sys2Proof.Machine.execTxEnd s
  | .rxParse len => Sys2Proof.Machine.execRxParse len s
  | .cfgHost u len => Sys2Proof.Machine.execCfgHost u len s
  | .cfgPort u port => Sys2Proof.Machine.execCfgPort u port s
  | .cfgNch u n => Sys2Proof.Machine.execCfgNch u n s
  | .cfgName u len => Sys2Proof.Machine.execCfgName u len s
  | .cfgRun u b => Sys2Proof.Machine.execCfgRun u b s
  | .cfgSrclr u => Sys2Proof.Machine.execCfgSrclr u s

end Sys2Proof.Machine
end

