-- ==== Sys2Proof/WellFormed.lean ====
section
/-! DEFINITION. Which commands the spec calls legal as syntax: the operand ranges of 30_encoding R104 and R105 that the
operand's width does not already give. -/

namespace Sys2Proof

/-- The channel count operand of `FRM.ENC` and `FRM.DEC` is 1..256 (30_encoding R104); every other operand is legal at
every value its field holds. -/
def Instr.wellFormed : Instr → Bool
  | .frmEnc n => decide (1 ≤ n.toNat ∧ n.toNat ≤ 256)
  | .frmDec n => decide (1 ≤ n.toNat ∧ n.toNat ≤ 256)
  | .qF2I => true
  | .qI2F _ => true
  | .hdrEnc => true
  | .hdrDec _ => true
  | .blkBegin _ => true
  | .txPush => true
  | .txEnd => true
  | .rxParse _ => true
  | .cfgHost _ _ => true
  | .cfgPort _ _ => true
  | .cfgNch _ _ => true
  | .cfgName _ _ => true
  | .cfgRun _ _ => true
  | .cfgSrclr _ => true

end Sys2Proof
end

