-- ==== Sys2Proof/Decode.lean ====
section
/-! DEFINITION. The command word of 30_encoding R101: its decoder, total and rejecting by name, and after it the encoder, both
written from the opcode map of R104. -/

namespace Sys2Proof

/-- Why a word is no command, whatever the port (30_encoding R108 (a) to (d)). -/
inductive DecodeError where
  /-- (a): `op` is in no row of R104 (R107). -/
  | reservedOp
  /-- (b): `rsv` is not 000. -/
  | reservedBits
  /-- (c): `u = 1` in a command that takes no unit. -/
  | unitNotTaken
  /-- (d): `arg` is outside the range R104 gives. -/
  | argOutOfRange
  deriving DecidableEq, Repr

/-- Field `op`, bits 31:24 (30_encoding R101). -/
def opField (w : Word) : BitVec 8 := w.extractLsb' 24 8

/-- Field `u`, bit 23 (30_encoding R101). -/
def unitField (w : Word) : BitVec 1 := w.extractLsb' 23 1

/-- Field `rsv`, bits 22:20 (30_encoding R101). -/
def rsvField (w : Word) : BitVec 3 := w.extractLsb' 20 3

/-- Field `arg`, bits 19:0 (30_encoding R101). -/
def argField (w : Word) : BitVec 20 := w.extractLsb' 0 20

/-- The session unit a unit bit selects (30_encoding R101). -/
def unitOf (b : BitVec 1) : SessionUnit := if b = 1#1 then .rx else .tx

/-- The unit bit of a session unit (30_encoding R101). -/
def unitBit : SessionUnit → BitVec 1
  | .tx => 0#1
  | .rx => 1#1

/-- A command of R104 whose "unit" column is "no": `u` must be 0 (30_encoding R108 (c)). -/
def withoutUnit (u : BitVec 1) (k : Except DecodeError Instr) : Except DecodeError Instr :=
  if u = 0#1 then k else .error .unitNotTaken

/-- `arg` must be 0. -/
def argZero (arg : BitVec 20) (i : Instr) : Except DecodeError Instr :=
  if arg = 0#20 then .ok i else .error .argOutOfRange

/-- `arg` holds a 1-bit operand; bits 19:1 must be 0. -/
def argBit (arg : BitVec 20) (f : Bool → Instr) : Except DecodeError Instr :=
  if arg.extractLsb' 1 19 = 0#19 then .ok (f (arg.getLsbD 0)) else .error .argOutOfRange

/-- `arg` holds a string length 0..255; bits 19:8 must be 0. -/
def argLength (arg : BitVec 20) (f : BitVec 8 → Instr) : Except DecodeError Instr :=
  if arg.extractLsb' 8 12 = 0#12 then .ok (f (arg.extractLsb' 0 8)) else .error .argOutOfRange

/-- `arg` holds a 16-bit operand; bits 19:16 must be 0. -/
def argHalf (arg : BitVec 20) (f : BitVec 16 → Instr) : Except DecodeError Instr :=
  if arg.extractLsb' 16 4 = 0#4 then .ok (f (arg.extractLsb' 0 16)) else .error .argOutOfRange

/-- `arg` holds a channel count 1..256. -/
def argCount (arg : BitVec 20) (f : BitVec 9 → Instr) : Except DecodeError Instr :=
  if 1 ≤ arg.toNat ∧ arg.toNat ≤ 256 then .ok (f (arg.extractLsb' 0 9)) else .error .argOutOfRange

/-- The row of R104 that `op` selects, applied to the other fields. -/
def decodeOp (op : BitVec 8) (u : BitVec 1) (arg : BitVec 20) : Except DecodeError Instr :=
  match op with
  | 0x01#8 => withoutUnit u (argZero arg .qF2I)
  | 0x02#8 => withoutUnit u (argHalf arg .qI2F)
  | 0x03#8 => withoutUnit u (argCount arg .frmEnc)
  | 0x04#8 => withoutUnit u (argCount arg .frmDec)
  | 0x05#8 => withoutUnit u (argZero arg .hdrEnc)
  | 0x06#8 => withoutUnit u (argHalf arg .hdrDec)
  | 0x10#8 => argZero arg (.blkBegin (unitOf u))
  | 0x11#8 => withoutUnit u (argZero arg .txPush)
  | 0x12#8 => withoutUnit u (argZero arg .txEnd)
  | 0x18#8 => withoutUnit u (argHalf arg .rxParse)
  | 0x20#8 => argLength arg (.cfgHost (unitOf u))
  | 0x21#8 => argHalf arg (.cfgPort (unitOf u))
  | 0x22#8 => .ok (.cfgNch (unitOf u) arg)
  | 0x23#8 => argLength arg (.cfgName (unitOf u))
  | 0x24#8 => argBit arg (.cfgRun (unitOf u))
  | 0x25#8 => argZero arg (.cfgSrclr (unitOf u))
  | _ => .error .reservedOp

/-- The command a word stands for, or the reason it stands for none (30_encoding R104 to R108). The port is no part of the
word; R108 (e) is tested where the word is presented (Machine/Ports.lean). -/
def decode (w : Word) : Except DecodeError Instr :=
  if rsvField w = 0#3 then decodeOp (opField w) (unitField w) (argField w) else .error .reservedBits

/-- The port a command belongs to (30_encoding R104, column "port"; 60_exceptions R330). -/
def Instr.port : Instr → Port
  | .qF2I | .qI2F _ | .frmEnc _ | .frmDec _ | .hdrEnc | .hdrDec _ | .blkBegin _ | .txPush | .txEnd | .rxParse _ => .audio
  | .cfgHost _ _ | .cfgPort _ _ | .cfgNch _ _ | .cfgName _ _ | .cfgRun _ _ | .cfgSrclr _ => .control

/-- A word from its fields: `op ++ u ++ 000 ++ arg` (30_encoding R101). -/
def pack (op : BitVec 8) (u : BitVec 1) (arg : BitVec 20) : Word := op ++ u ++ 0#3 ++ arg

/-- The word of a command (30_encoding R104). -/
def encode : Instr → Word
  | .qF2I => pack 0x01#8 0#1 0#20
  | .qI2F w => pack 0x02#8 0#1 (w.setWidth 20)
  | .frmEnc n => pack 0x03#8 0#1 (n.setWidth 20)
  | .frmDec n => pack 0x04#8 0#1 (n.setWidth 20)
  | .hdrEnc => pack 0x05#8 0#1 0#20
  | .hdrDec len => pack 0x06#8 0#1 (len.setWidth 20)
  | .blkBegin u => pack 0x10#8 (unitBit u) 0#20
  | .txPush => pack 0x11#8 0#1 0#20
  | .txEnd => pack 0x12#8 0#1 0#20
  | .rxParse len => pack 0x18#8 0#1 (len.setWidth 20)
  | .cfgHost u len => pack 0x20#8 (unitBit u) (len.setWidth 20)
  | .cfgPort u port => pack 0x21#8 (unitBit u) (port.setWidth 20)
  | .cfgNch u n => pack 0x22#8 (unitBit u) n
  | .cfgName u len => pack 0x23#8 (unitBit u) (len.setWidth 20)
  | .cfgRun u b => pack 0x24#8 (unitBit u) (if b then 1#20 else 0#20)
  | .cfgSrclr u => pack 0x25#8 (unitBit u) 0#20

/-- The command of a word whose bits, numbered as spec/opcode_table.json numbers them, are `w`. A command is one 32-bit word
presented whole (30_encoding R100), so no byte order comes in; bits above `nbits` are 0. -/
def decodeTableWord (nbits w : Nat) : Option Instr :=
  match decode (BitVec.ofNat 32 (w % 2 ^ nbits)) with
  | .ok i => some i
  | .error _ => none

end Sys2Proof
end

