-- ==== Sys2Proof/Machine/Ports.lean ====
section
/-! DEFINITION. How the agents' events reach the block: taking the next one, a command word on a port, the window writes, the
link's events, the reset input (00_scope R17, 20_memory R84, 30_encoding R100, R108). -/

namespace Sys2Proof.Machine

/-- What the next event asks of the block. -/
inductive Presented where
  /-- The event is done: its whole effect is in the state. -/
  | done (s : State)
  /-- A legal command, still to be executed in the state. -/
  | execute (i : Instr) (s : State)
  deriving DecidableEq, Repr

/-- A command word on a port (30_encoding R108): a word that decodes to no command, or to one of the other port, sets `ILLCMD`
and changes nothing else (the port is tested here: DEDUCED, safe: log entry 14). -/
def presentCommand (p : Port) (w : Word) (s : State) : Presented :=
  match decode w with
  | .error _ => .done s.illegalCommand
  | .ok i => if i.port = p then .execute i s else .done s.illegalCommand

/-- The link places a datagram of 1..65535 bytes in `BIN`, only while the receive unit streams (10_state R52; a delivery
the rule excludes is ignored: DEDUCED, safe: log entry 15). -/
def State.deliverDatagram (s : State) (datagram : List Byte) : State :=
  if s.rx.run = true ∧ 1 ≤ datagram.length ∧ datagram.length ≤ 65535 then { s with bin := s.bin.store 0 datagram } else s

/-- One event, in the state that no longer holds it (10_state R36, R48, R52, R53, 70_reset_and_hazards R350). -/
def present (e : Input) (s : State) : Presented :=
  match e with
  | .command p w => presentCommand p w s
  | .writeFin i x => .done { s with fin := s.fin.store i.toNat [x] }
  | .writeBin a b => .done { s with bin := s.bin.store a.toNat [b] }
  | .writeCin a b => .done { s with cin := s.cin.store a.val [b] }
  | .driveRate hz => .done { s with hostRate := some hz }
  | .deliver d => .done (s.deliverDatagram d)
  | .linkFailure => .done (s.flag .linkerr)
  | .reset => .done s.hardwareReset

/-- Take the oldest event; with nothing presented the block does nothing (00_scope R17). -/
def takeInput (s : State) : Presented :=
  match s.inputs with
  | [] => .done s
  | e :: rest => present e { s with inputs := rest }

/-- The port whose agent may present a word: that of the command it decodes to (60_exceptions R330). -/
def portFor (w : Word) : Port :=
  match decode w with
  | .ok i => i.port
  | .error _ => .audio

/-- A word presented before everything else that is pending, on the port that may present it. -/
def State.withCommand (s : State) (w : Word) : State := { s with inputs := .command (portFor w) w :: s.inputs }

end Sys2Proof.Machine
end

