-- ==== Sys2Proof/Machine/Step.lean ====
section
/-! DEFINITION. One step of the block: the oldest event an agent has presented, executed whole (20_memory R84). -/

namespace Sys2Proof.Machine

/-- One atomic step (00_scope R17, 20_memory R84). -/
def step (s : State) : Host.Outcome State Fault Refusal :=
  match takeInput s with
  | .done t => .next t
  | .execute i t => exec i t

/-- `s` with the word whose bits are `w` presented as the very next event. The block fetches no instructions (10_state R21): a
command word is presented on its port (DESIGN CHOICE, safe: log entry 2). -/
def State.withFetchWord (s : State) (nbits w : Nat) : State := s.withCommand (BitVec.ofNat 32 (w % 2 ^ nbits))

end Sys2Proof.Machine
end

