-- ==== Sys2Proof/Safety.lean ====
section
/-! DEFINITION. What counts as a safe run: the invariant of the block's reachable states, and the agents' duty to fill an operand
window before the command that reads it. -/

namespace Sys2Proof.Safety

open Sys2Proof.Machine

/-- A legal `NAME` register: byte 15 is `00`, and every byte after the first `00` byte is `00` (10_state R32). -/
def NameLegal (n : Name) : Prop :=
  n[15] = 0#8 ∧ ∀ i j : Fin 16, i ≤ j → n[i] = 0#8 → n[j] = 0#8

/-- Legal values of a configuration bank (10_state R32). -/
structure BankLegal (b : Bank) : Prop where
  hostLength : b.host.length ≤ 255
  channelsLow : 1 ≤ b.nch.toNat
  channelsHigh : b.nch.toNat ≤ 254
  name : NameLegal b.name

/-- What holds of a session unit in every reachable state. -/
structure SessionInv (x : Session) : Prop where
  pending : BankLegal x.pending
  active : BankLegal x.active
  /-- `SR_IDX` is 0..20 (10_state R35). -/
  srIdx : x.srIdx.toNat < 21
  /-- A streaming unit has a fixed index (44_session_control R280). -/
  fixedWhileStreaming : x.run = true → x.srFixed = true
  /-- Without `DIRTY` the pending bank is the one last applied (44_session_control R272). -/
  cleanBank : x.dirty = false → x.active = x.pending
  /-- Without `DIRTY` no release of the index is pending (44_session_control R290, R296). -/
  cleanRelease : x.dirty = false → x.pSrclr = false
  /-- Without `DIRTY` a unit last asked to stop is Idle (44_session_control R286). -/
  cleanStop : x.dirty = false → x.pEn = false → x.run = false

/-- What holds in every reachable state. -/
structure Inv (s : State) : Prop where
  tx : SessionInv s.tx
  rx : SessionInv s.rx
  /-- `28 ≤ WPOS ≤ ABUF_CAP` (10_state R40). -/
  cursorLow : 28 ≤ s.wpos
  cursorHigh : s.wpos ≤ s.par.abufCap
  /-- The buffer holds whole frames while streaming (10_state R40, 42_packet_assembler R218 (a)). -/
  wholeFrames : s.tx.run = true → (s.wpos - 28) % (2 * s.tx.active.nch.toNat) = 0
  /-- Every byte of `ABUF` below `WPOS` has been written (10_state R63). -/
  framesWritten : ∀ a, 28 ≤ a → a < s.wpos → (s.abuf.read a).isSome = true
  /-- Codes 9..15 are never written (43_packet_parser R244). -/
  reason : s.rxReason.toNat ≤ 8
  /-- A valid result is an accepted one, of a unit that still streams (10_state R44, 43_packet_parser R255). -/
  valid : s.rxValid = true →
    s.rx.run = true ∧ s.rxReason = 0#4 ∧ 1 ≤ s.rxNch.toNat ∧ s.rxNch.toNat ≤ 256 ∧ 1 ≤ s.rxNs.toNat ∧
      s.rxNs.toNat ≤ 256 ∧ s.rxSrIdx.toNat < 21
  /-- Every meaningful element of `CHBUF` has been written (10_state R63). -/
  buffersWritten : s.rxValid = true → ∀ c i, c < s.rxNch.toNat → i < s.rxNs.toNat →
    (s.chbuf.read (chKey c i)).isSome = true
  /-- A decoded header is a supported one (41_header_codec R190). -/
  header : s.hdrOk = true → s.hd.srIndex.toNat < 21 ∧ s.hd.bit = pcm16 s.par
  /-- A unit that was asked to run and is Idle failed to start (44_session_control R286). -/
  failedStart : ∀ u, (s.sess u).dirty = false → (s.sess u).pEn = true → (s.sess u).run = false →
    s.hasFlag .cfgerr = true
  /-- Every window and buffer is in canonical form, inside its space (20_memory R70). -/
  fin : s.fin.wf ∧ s.fin.within 256
  fout : s.fout.wf ∧ s.fout.within 256
  bin : s.bin.wf ∧ s.bin.within 65536
  bout : s.bout.wf ∧ s.bout.within 512
  cin : s.cin.wf ∧ s.cin.within 255
  abuf : s.abuf.wf ∧ s.abuf.within s.par.abufCap
  chbuf : s.chbuf.wf ∧ s.chbuf.within 65536

/-- The first `n` elements of a window have been written. -/
def Written {α : Type} (m : Memory α) (n : Nat) : Prop := ∀ a, a < n → (m.read a).isSome = true

/-- The agent has filled the operand window of the command (70_reset_and_hazards R364); a command that Idle ignores reads
nothing. -/
def OperandsWritten : Instr → State → Prop
  | .qF2I, s => Written s.fin 1
  | .frmEnc n, s => Written s.fin n.toNat
  | .frmDec n, s => Written s.bin (2 * n.toNat)
  | .hdrDec len, s => Written s.bin (min len.toNat 28)
  | .txPush, s => s.tx.run = true → Written s.fin s.tx.active.nch.toNat
  | .rxParse len, s => s.rx.run = true → Written s.bin len.toNat
  | .cfgHost _ len, s => Written s.cin len.toNat
  | .cfgName _ len, s => Written s.cin len.toNat
  | .qI2F _, _ => True
  | .hdrEnc, _ => True
  | .blkBegin _, _ => True
  | .txEnd, _ => True
  | .cfgPort _ _, _ => True
  | .cfgNch _ _, _ => True
  | .cfgRun _ _, _ => True
  | .cfgSrclr _, _ => True

end Sys2Proof.Safety
end

