-- ==== Sys2Proof/Certificates/Slice0/Obligations.lean ====
section
/-! DEFINITION. The statements for the provers, each with the rule of spec/ it formalises, and the few definitions they share. -/

open Sys2Proof Sys2Proof.Machine

/-! ## Shared definitions -/

/-- A row of the opcode map of 30_encoding R104: the operation code, its port, whether it takes a unit, the legal range of
`arg`. -/
structure Sys2Proof.Claims.OpRow where
  op : BitVec 8
  port : Port
  unit : Bool
  least : Nat
  greatest : Nat
  deriving DecidableEq, Repr

/-- The sixteen rows of 30_encoding R104. -/
def Sys2Proof.Claims.opcodeMap : List Sys2Proof.Claims.OpRow :=
  [ ⟨0x01#8, .audio, false, 0, 0⟩, ⟨0x02#8, .audio, false, 0, 65535⟩, ⟨0x03#8, .audio, false, 1, 256⟩,
    ⟨0x04#8, .audio, false, 1, 256⟩, ⟨0x05#8, .audio, false, 0, 0⟩, ⟨0x06#8, .audio, false, 0, 65535⟩,
    ⟨0x10#8, .audio, true, 0, 0⟩, ⟨0x11#8, .audio, false, 0, 0⟩, ⟨0x12#8, .audio, false, 0, 0⟩,
    ⟨0x18#8, .audio, false, 0, 65535⟩, ⟨0x20#8, .control, true, 0, 255⟩, ⟨0x21#8, .control, true, 0, 65535⟩,
    ⟨0x22#8, .control, true, 0, 1048575⟩, ⟨0x23#8, .control, true, 0, 255⟩, ⟨0x24#8, .control, true, 0, 1⟩,
    ⟨0x25#8, .control, true, 0, 0⟩ ]

/-- A word is legal on a port: none of 30_encoding R108 (a) to (e) holds. -/
def Sys2Proof.Claims.LegalCommand (p : Port) (w : Word) : Prop :=
  ∃ r ∈ Sys2Proof.Claims.opcodeMap,
    w.extractLsb' 24 8 = r.op ∧ w.extractLsb' 20 3 = 0#3 ∧ (r.unit = false → w.extractLsb' 23 1 = 0#1) ∧
      r.least ≤ (w.extractLsb' 0 20).toNat ∧ (w.extractLsb' 0 20).toNat ≤ r.greatest ∧ r.port = p

/-- Column "match" of spec/opcode_table.json for the row of a command. -/
def Sys2Proof.Claims.tableMatch : Instr → Word
  | .qF2I => 0x01000000#32
  | .qI2F _ => 0x02000000#32
  | .frmEnc _ => 0x03000000#32
  | .frmDec _ => 0x04000000#32
  | .hdrEnc => 0x05000000#32
  | .hdrDec _ => 0x06000000#32
  | .blkBegin _ => 0x10000000#32
  | .txPush => 0x11000000#32
  | .txEnd => 0x12000000#32
  | .rxParse _ => 0x18000000#32
  | .cfgHost _ _ => 0x20000000#32
  | .cfgPort _ _ => 0x21000000#32
  | .cfgNch _ _ => 0x22000000#32
  | .cfgName _ _ => 0x23000000#32
  | .cfgRun _ _ => 0x24000000#32
  | .cfgSrclr _ => 0x25000000#32

/-- Column "mask" of spec/opcode_table.json for the row of a command. -/
def Sys2Proof.Claims.tableMask : Instr → Word
  | .qF2I => 0xFFFFFFFF#32
  | .qI2F _ => 0xFFFF0000#32
  | .frmEnc _ => 0xFFFFFE00#32
  | .frmDec _ => 0xFFFFFE00#32
  | .hdrEnc => 0xFFFFFFFF#32
  | .hdrDec _ => 0xFFFF0000#32
  | .blkBegin _ => 0xFF7FFFFF#32
  | .txPush => 0xFFFFFFFF#32
  | .txEnd => 0xFFFFFFFF#32
  | .rxParse _ => 0xFFFF0000#32
  | .cfgHost _ _ => 0xFF7FFF00#32
  | .cfgPort _ _ => 0xFF7F0000#32
  | .cfgNch _ _ => 0xFF700000#32
  | .cfgName _ _ => 0xFF7FFF00#32
  | .cfgRun _ _ => 0xFF7FFFFE#32
  | .cfgSrclr _ => 0xFF7FFFFF#32

/-- Column "constraint" of spec/opcode_table.json: `N` of a frame command is 1..256. -/
def Sys2Proof.Claims.tableConstraint (i : Instr) (w : Word) : Prop :=
  match i with
  | .frmEnc _ | .frmDec _ => 1 ≤ (w.extractLsb' 0 9).toNat ∧ (w.extractLsb' 0 9).toNat ≤ 256
  | _ => True

/-- A pattern is finite: its exponent field is not all ones (00_scope R11). -/
def Sys2Proof.Claims.FiniteSample (x : Sample) : Prop := x.extractLsb' 23 8 ≠ 0xFF#8

/-- `p = real(x) × 32768` (40_sample_codec R141). -/
def Sys2Proof.Claims.scaled (x : Sample) : ℚ := realValue x * 32768

/-- A finite sample in range (40_sample_codec R144). -/
def Sys2Proof.Claims.InRange (x : Sample) : Prop :=
  Sys2Proof.Claims.FiniteSample x ∧ -32769 < Sys2Proof.Claims.scaled x ∧ Sys2Proof.Claims.scaled x < 32768

/-- Low byte of a word. -/
def Sys2Proof.Claims.lowByte (w : BitVec 16) : Byte := w.extractLsb' 0 8

/-- High byte of a word. -/
def Sys2Proof.Claims.highByte (w : BitVec 16) : Byte := w.extractLsb' 8 8

/-- The quantizer's sticky bits after a command are those before it and those of the samples quantized; every other sticky bit
is unchanged. -/
def Sys2Proof.Claims.QuantizerFlags (s t : State) (samples : List Sample) : Prop :=
  (t.hasFlag .qovf = true ↔
      s.hasFlag .qovf = true ∨ ∃ x ∈ samples, (qenc s.par.qovfPolicy x).2 = .qovf) ∧
    (t.hasFlag .qinv = true ↔
      s.hasFlag .qinv = true ∨ ∃ x ∈ samples, (qenc s.par.qovfPolicy x).2 = .qinv) ∧
    ∀ f, f ≠ .qovf → f ≠ .qinv → t.hasFlag f = s.hasFlag f

/-- The bytes before the first `00` byte (43_packet_parser R252). -/
def Sys2Proof.Claims.str (bytes : List Byte) : List Byte := bytes.takeWhile (fun b => b != 0#8)

/-- The name field of a datagram, bytes 8..23. -/
def Sys2Proof.Claims.nameField (b : Nat → Byte) : List Byte := (List.range 16).map (fun k => b (8 + k))

/-- `SUBPROTO_CHECK_MASK`: `0xE0`, or `0x60` to ignore the reserved bit 7 (30_encoding R122). -/
def Sys2Proof.Claims.checkMask : SubprotoCheck → Byte
  | .withReserved => 0xE0#8
  | .withoutReserved => 0x60#8

/-- Step `k` of 43_packet_parser R243 fails on the datagram `b[0 .. L)` against the subscription, under either mask of
30_encoding R122. -/
def Sys2Proof.Claims.StepFails (check : SubprotoCheck) (b : Nat → Byte) (len : Nat) (subscription : Name) (k : Nat) : Prop :=
  match k with
  | 1 => len < 28
  | 2 => ¬ (b 0 = 0x56#8 ∧ b 1 = 0x42#8 ∧ b 2 = 0x41#8 ∧ b 3 = 0x4E#8)
  | 3 => b 4 &&& Sys2Proof.Claims.checkMask check ≠ 0#8
  | 4 => (b 7).extractLsb' 3 5 ≠ 0#5
  | 5 => (b 7).extractLsb' 0 3 ≠ 1#3
  | 6 => 21 ≤ ((b 4).extractLsb' 0 5).toNat
  | 7 => Sys2Proof.Claims.str (Sys2Proof.Claims.nameField b) ≠ Sys2Proof.Claims.str subscription.toList
  | 8 => len < 28 + ((b 6).toNat + 1) * ((b 5).toNat + 1) * 2
  | _ => False

/-- `hdr_decode` of 41_header_codec R190 answers a Header. -/
def Sys2Proof.Claims.HeaderAccepted (b : Nat → Byte) (len : Nat) : Prop :=
  28 ≤ len ∧ (b 0 = 0x56#8 ∧ b 1 = 0x42#8 ∧ b 2 = 0x41#8 ∧ b 3 = 0x4E#8) ∧
    ((b 4).extractLsb' 0 5).toNat < 21 ∧ b 7 = 0x01#8

/-- A configuration command addressed to unit `u` (44_session_control R290). -/
def Sys2Proof.Claims.Configures (u : SessionUnit) : Instr → Prop
  | .cfgHost v _ | .cfgPort v _ | .cfgNch v _ | .cfgName v _ | .cfgRun v _ | .cfgSrclr v => v = u
  | _ => False

/-- `u << 23`, the unit field of a word in place (30_encoding R101). -/
def Sys2Proof.Claims.unitWord : SessionUnit → Word
  | .tx => 0x00000000#32
  | .rx => 0x00800000#32

/-- The payload bytes of the datagrams among a list of events, in order. -/
def Sys2Proof.Claims.payloads (es : List LinkEvent) : List Byte :=
  es.flatMap (fun e => match e with
    | .send datagram => datagram.drop 28
    | .opened _ _ _ => []
    | .closed _ => [])

/-- Every frame byte taken so far: the payloads of the emitted datagrams, then the frames waiting in `ABUF`
(42_packet_assembler R218 (d)). -/
def Sys2Proof.Claims.sampleStream (s : State) : List Byte :=
  Sys2Proof.Claims.payloads s.linkOut ++ s.abufBytes s.abuf 28 (s.wpos - 28)

/-- Commands executed one after the other; none where one answers no next state. -/
def Sys2Proof.Claims.execAll : List Instr → State → Option State
  | [], s => some s
  | i :: is, s =>
    match exec i s with
    | .next t => Sys2Proof.Claims.execAll is t
    | .fault _ => none
    | .refused _ => none

/-- The sample-rate index of unit `u` stays fixed through its next dirty boundary (44_session_control R274). -/
def Sys2Proof.Claims.StaysFixed (x : Session) : Prop := x.srFixed = true ∧ x.pSrclr = false

/-- The rate that a start would sample is in the table (44_session_control R283). -/
def Sys2Proof.Claims.RateInTable (s : State) : Prop := ∃ i : Fin 21, s.par.srTable[i] = s.sampledRate.toNat

open Sys2Proof.Claims

/-! ## Reset, presentation, encoding -/

/-- 10_state R60: every register that reset gives a value has it. -/
def Obligations.ResetLeavesTheStatedValues : Prop :=
  (∀ u,
      ((State.reset.sess u).run = false ∧ (State.reset.sess u).dirty = false ∧ (State.reset.sess u).pEn = false ∧
        (State.reset.sess u).pSrclr = false ∧ (State.reset.sess u).srFixed = false ∧
        (State.reset.sess u).srIdx = 0#5) ∧
      ∀ bank, bank = (State.reset.sess u).pending ∨ bank = (State.reset.sess u).active →
        bank.port.toNat = 13251 ∧ bank.nch = 1#8 ∧ bank.name.toList = List.replicate 16 0#8 ∧
          bank.host = (match u with
            | .tx => [0x31#8, 0x32#8, 0x37#8, 0x2E#8, 0x30#8, 0x2E#8, 0x30#8, 0x2E#8, 0x31#8]
            | .rx => [])) ∧
    State.reset.wpos = 28 ∧ State.reset.nuFrame = 0#32 ∧ State.reset.status = 0#6 ∧
    (State.reset.rxReason = 0#4 ∧ State.reset.rxValid = false ∧ State.reset.rxNch = 0#9 ∧ State.reset.rxNs = 0#9 ∧
      State.reset.rxSrIdx = 0#5 ∧ State.reset.rxNuFrame = 0#32) ∧
    (State.reset.qRes = 0#16 ∧ State.reset.hdrOk = false ∧ State.reset.hd.srIndex = 0#5 ∧
      State.reset.hd.subproto = 0#2 ∧ State.reset.hd.rsv7 = 0#1 ∧ State.reset.hd.nbs = 0#8 ∧
      State.reset.hd.nbc = 0#8 ∧ State.reset.hd.bit = 0#8 ∧ State.reset.hd.name.toList = List.replicate 16 0#8 ∧
      State.reset.hd.nuFrame = 0#32) ∧
    State.reset.linkOut = []

/-- 70_reset_and_hazards R350, with log entries 3 and 7: the reset input puts every register at its reset value, empties
`LINK_OUT` and leaves every window and buffer unwritten; the parameters, the pending events and the driven rate, which stand
outside the block, stay, and the model's own reset counter moves on. -/
def Obligations.ResetInputRestoresResetState : Prop :=
  ∀ s rest, s.inputs = Input.reset :: rest →
    ∃ t, step s = .next t ∧
      t = { State.reset with
            par := s.par, inputs := rest, hostRate := s.hostRate, epoch := s.epoch + 1, rateSamples := s.rateSamples } ∧
      ∀ a, t.fin.read a = none ∧ t.fout.read a = none ∧ t.bin.read a = none ∧ t.bout.read a = none ∧
        t.cin.read a = none ∧ t.abuf.read a = none ∧ t.chbuf.read a = none

/-- 20_memory R84, 30_encoding R100: a step whose oldest event is a word that decodes to a command of its port is that
command's meaning on the state without the event; nothing else is added around it. -/
def Obligations.StepRunsTheDecodedCommand : Prop :=
  ∀ s p w rest i, s.inputs = Input.command p w :: rest → decode w = .ok i → i.port = p →
    i.wellFormed = true ∧ step s = exec i { s with inputs := rest }

/-- Log entry 2: the word placed by `withFetchWord` is the next one executed, in the state it was placed in. -/
def Obligations.PlacedWordRunsFirst : Prop :=
  ∀ s w i, decodeTableWord 32 w = some i → step (s.withFetchWord 32 w) = exec i s

/-- 30_encoding R108: a word that is legal on its port decodes to a command of that port; every other word sets `ILLCMD` and
changes nothing else. -/
def Obligations.IllegalWordSetsIllcmdOnly : Prop :=
  ∀ p w,
    (LegalCommand p w → ∃ i, decode w = .ok i ∧ i.port = p) ∧
    (¬ LegalCommand p w → ∀ s rest, s.inputs = Input.command p w :: rest →
      step s = .next { s with inputs := rest, status := s.status ||| 0b000100#6 })

/-- spec/opcode_table.json: a command's word matches its row, and a word that matches a row (and its constraint) decodes to a
command of that row. -/
def Obligations.DecoderAgreesWithOpcodeTable : Prop :=
  ∀ i w,
    (decode w = .ok i → w &&& tableMask i = tableMatch i ∧ tableConstraint i w) ∧
    (w &&& tableMask i = tableMatch i → tableConstraint i w → ∃ j, decode w = .ok j ∧ tableMatch j = tableMatch i)

/-- 30_encoding R101, R104: decoding the word of a well-formed command gives the command back, every operand at every value. -/
def Obligations.DecodeInvertsEncode : Prop :=
  ∀ i : Instr, i.wellFormed = true → decode (encode i) = .ok i

/-- 30_encoding R101, R104: a word that decodes is the word of the command it decodes to, which is well formed. -/
def Obligations.EncodeInvertsDecode : Prop :=
  ∀ w i, decode w = .ok i → encode i = w ∧ i.wellFormed = true

/-- Words the spec writes out (30_encoding R110, 44_session_control R291, R292, 95_test_vectors 2.9) decode to the commands it
says they are. -/
def Obligations.SpecWordsDecode : Prop :=
  decode 0x01000000#32 = .ok .qF2I ∧ decode 0x0200C000#32 = .ok (.qI2F 0xC000#16) ∧
    decode 0x03000100#32 = .ok (.frmEnc 256#9) ∧ decode 0x05000000#32 = .ok .hdrEnc ∧
    decode 0x0600001C#32 = .ok (.hdrDec 28#16) ∧ decode 0x10800000#32 = .ok (.blkBegin .rx) ∧
    decode 0x11000000#32 = .ok .txPush ∧ decode 0x1800041C#32 = .ok (.rxParse 1052#16) ∧
    decode 0x2000000C#32 = .ok (.cfgHost .tx 12#8) ∧ decode 0x21801B44#32 = .ok (.cfgPort .rx 6980#16) ∧
    decode 0x22000002#32 = .ok (.cfgNch .tx 2#20) ∧ decode 0x24000001#32 = .ok (.cfgRun .tx true)

/-- 60_exceptions R310: every command runs to completion, legal or not, and so does every other event. -/
def Obligations.EveryStepCompletes : Prop :=
  (∀ i s, ∃ t, exec i s = .next t) ∧ ∀ s, ∃ t, step s = .next t

/-! ## Sample Codec -/

/-- 40_sample_codec R141, R143, R144, R146, R147: for a finite input `v` is the exact truncation of `real(x) × 32768`; in range
the word is the 16-bit pattern of `v`, out of range it is `v` modulo 2^16 (or the nearer end, under `saturate`) with `QOVF`;
a NaN or an infinity gives `0x0000` with `QINV`. -/
def Obligations.QuantizerTruncatesExactly : Prop :=
  ∀ policy x,
    (FiniteSample x →
      (-32768 ≤ truncRat (scaled x) ∧ truncRat (scaled x) ≤ 32767 ↔ -32769 < scaled x ∧ scaled x < 32768) ∧
      (-32768 ≤ truncRat (scaled x) → truncRat (scaled x) ≤ 32767 →
        qenc policy x = (BitVec.ofInt 16 (truncRat (scaled x)), .none)) ∧
      (32767 < truncRat (scaled x) →
        qenc policy x = ((match policy with
          | .wrap => BitVec.ofInt 16 (truncRat (scaled x))
          | .saturate => 0x7FFF#16), .qovf)) ∧
      (truncRat (scaled x) < -32768 →
        qenc policy x = ((match policy with
          | .wrap => BitVec.ofInt 16 (truncRat (scaled x))
          | .saturate => 0x8000#16), .qovf))) ∧
    (¬ FiniteSample x → qenc policy x = (0x0000#16, .qinv))

/-- 40_sample_codec R145: both zeros and everything below `2^-15` in magnitude give `0x0000` unflagged; `2^-15` and `-2^-15`
give `0x0001` and `0xFFFF`. -/
def Obligations.QuantizerTinyInputs : Prop :=
  ∀ policy,
    (∀ x, FiniteSample x → |realValue x| < (2 : ℚ) ^ (-15 : ℤ) → qenc policy x = (0x0000#16, .none)) ∧
    (∀ x, FiniteSample x → realValue x = (2 : ℚ) ^ (-15 : ℤ) → qenc policy x = (0x0001#16, .none)) ∧
    (∀ x, FiniteSample x → realValue x = -(2 : ℚ) ^ (-15 : ℤ) → qenc policy x = (0xFFFF#16, .none)) ∧
    qenc policy 0x00000000#32 = (0x0000#16, .none) ∧ qenc policy 0x80000000#32 = (0x0000#16, .none)

/-- 40_sample_codec R149: monotone in range, odd where both signs are in range, within one step and never larger in magnitude,
and onto the 16-bit words. -/
def Obligations.QuantizerLaws : Prop :=
  ∀ policy,
    (∀ x y, InRange x → InRange y → realValue x ≤ realValue y →
      (qenc policy x).1.toInt ≤ (qenc policy y).1.toInt) ∧
    (∀ x, InRange x → InRange (x ^^^ 0x80000000#32) →
      (qenc policy (x ^^^ 0x80000000#32)).1.toInt = -(qenc policy x).1.toInt) ∧
    (∀ x, InRange x →
      0 ≤ |realValue x| - |((qenc policy x).1.toInt : ℚ)| / 32768 ∧
        |realValue x| - |((qenc policy x).1.toInt : ℚ)| / 32768 < 1 / 32768) ∧
    (∀ w, qenc policy (qdec w) = (w, .none))

/-- 40_sample_codec R150: `qdec w` is the binary32 pattern of exact value `sext_16(w) / 32768`; `+0.0` for 0; else the sign,
exponent and fraction fields the rule gives. -/
def Obligations.DequantizerIsExact : Prop :=
  ∀ w : BitVec 16,
    FiniteSample (qdec w) ∧ realValue (qdec w) = (w.toInt : ℚ) / 32768 ∧ (w = 0#16 → qdec w = 0x00000000#32) ∧
    ∀ k, 2 ^ k ≤ w.toInt.natAbs → w.toInt.natAbs < 2 ^ (k + 1) →
      (signBit (qdec w) = true ↔ w.toInt < 0) ∧ expField (qdec w) = 127 + k - 15 ∧
        fracField (qdec w) = (w.toInt.natAbs - 2 ^ k) * 2 ^ (23 - k)

/-- 40_sample_codec R151: the ends of the range, `+1.0` never, and injectivity. -/
def Obligations.DequantizerRange : Prop :=
  qdec 0x8000#16 = 0xBF800000#32 ∧ qdec 0x7FFF#16 = 0x3F7FFE00#32 ∧
    (∀ w, -1 ≤ realValue (qdec w) ∧ realValue (qdec w) ≤ 32767 / 32768) ∧
    (∀ v w, qdec v = qdec w → v = w)

/-- 40_sample_codec R153: words survive the round trip; an in-range sample comes back as its truncation, less than one step
off and no larger in magnitude; `+1.0` comes back as `-1.0` under the decided policy. -/
def Obligations.SampleRoundTrips : Prop :=
  (∀ policy w, qenc policy (qdec w) = (w, .none)) ∧
    (∀ policy x, InRange x →
      realValue (qdec (qenc policy x).1) = (truncRat (scaled x) : ℚ) / 32768 ∧
        |realValue x - realValue (qdec (qenc policy x).1)| < 1 / 32768 ∧
        |realValue (qdec (qenc policy x).1)| ≤ |realValue x|) ∧
    qdec (qenc .wrap 0x3F800000#32).1 = 0xBF800000#32

/-- 40_sample_codec R154: the bytes of channel `c` stand at `2c` and `2c + 1`, depend on that channel's sample only, and the
flags are the union of the channels' flags. -/
def Obligations.FrameEncodeLayout : Prop :=
  ∀ policy (xs : List Sample),
    (frameEncode policy xs).1.length = 2 * xs.length ∧
    (∀ c (h : c < xs.length),
      (frameEncode policy xs).1[2 * c]? = some (lowByte (qenc policy xs[c]).1) ∧
        (frameEncode policy xs).1[2 * c + 1]? = some (highByte (qenc policy xs[c]).1)) ∧
    (frameMask (frameEncode policy xs).2).getLsbD 0 = decide (∃ x ∈ xs, (qenc policy x).2 = .qovf) ∧
    (frameMask (frameEncode policy xs).2).getLsbD 1 = decide (∃ x ∈ xs, (qenc policy x).2 = .qinv) ∧
    ∀ k, 2 ≤ k → (frameMask (frameEncode policy xs).2).getLsbD k = false

/-- 40_sample_codec R158: `frame_decode` reads little-endian words and `frame_encode` inverts it on every byte string, with no
flag. -/
def Obligations.FrameDecodeInverted : Prop :=
  ∀ policy n (b : Nat → Byte),
    (frameDecode n b).length = n ∧
    (∀ c (h : c < (frameDecode n b).length), (frameDecode n b)[c] = qdec (b (2 * c + 1) ++ b (2 * c))) ∧
    (frameEncode policy (frameDecode n b)).1 = (List.range (2 * n)).map b ∧
    ∀ f ∈ (frameEncode policy (frameDecode n b)).2, f = .none

/-- 40_sample_codec R148: `Q.F2I`. -/
def Obligations.QuantizeCommandResult : Prop :=
  decode 0x01000000#32 = .ok .qF2I ∧ ∀ s, ∃ t, exec .qF2I s = .next t ∧
    t.qRes = (qenc s.par.qovfPolicy (s.finAt 0)).1 ∧
    t.bout.read 0 = some (lowByte (qenc s.par.qovfPolicy (s.finAt 0)).1) ∧
    t.bout.read 1 = some (highByte (qenc s.par.qovfPolicy (s.finAt 0)).1) ∧
    (∀ a, 2 ≤ a → t.bout.read a = s.bout.read a) ∧
    QuantizerFlags s t [s.finAt 0] ∧
    t = { s with qRes := t.qRes, bout := t.bout, status := t.status }

/-- 40_sample_codec R152: `Q.I2F`. -/
def Obligations.DequantizeCommandResult : Prop :=
  ∀ s w, decode (0x02000000#32 ||| w.setWidth 32) = .ok (.qI2F w) ∧ ∃ t, exec (.qI2F w) s = .next t ∧
    t.fout.read 0 = some (qdec w) ∧ (∀ a, 1 ≤ a → t.fout.read a = s.fout.read a) ∧ t = { s with fout := t.fout }

/-- 40_sample_codec R156: `FRM.ENC N` for `N` in 1..256; any other `N` is an illegal command. -/
def Obligations.FrameEncodeCommandResult : Prop :=
  (∀ arg : BitVec 20, ¬ (1 ≤ arg.toNat ∧ arg.toNat ≤ 256) → ∀ i,
    decode (0x03000000#32 ||| arg.setWidth 32) ≠ .ok i) ∧
  ∀ s n,
    (1 ≤ n.toNat → n.toNat ≤ 256 →
      decode (0x03000000#32 ||| n.setWidth 32) = .ok (.frmEnc n) ∧ ∃ t, exec (.frmEnc n) s = .next t ∧
      (∀ c, c < n.toNat →
        t.bout.read (2 * c) = some (lowByte (qenc s.par.qovfPolicy (s.finAt c)).1) ∧
          t.bout.read (2 * c + 1) = some (highByte (qenc s.par.qovfPolicy (s.finAt c)).1)) ∧
      (∀ a, 2 * n.toNat ≤ a → t.bout.read a = s.bout.read a) ∧
      QuantizerFlags s t ((List.range n.toNat).map s.finAt) ∧
      t = { s with bout := t.bout, status := t.status }) ∧
    (¬ (1 ≤ n.toNat ∧ n.toNat ≤ 256) →
      exec (.frmEnc n) s = .next { s with status := s.status ||| 0b000100#6 })

/-- 40_sample_codec R160: `FRM.DEC N` for `N` in 1..256; any other `N` is an illegal command. -/
def Obligations.FrameDecodeCommandResult : Prop :=
  (∀ arg : BitVec 20, ¬ (1 ≤ arg.toNat ∧ arg.toNat ≤ 256) → ∀ i,
    decode (0x04000000#32 ||| arg.setWidth 32) ≠ .ok i) ∧
  ∀ s n,
    (1 ≤ n.toNat → n.toNat ≤ 256 →
      decode (0x04000000#32 ||| n.setWidth 32) = .ok (.frmDec n) ∧ ∃ t, exec (.frmDec n) s = .next t ∧
      (∀ c, c < n.toNat → t.fout.read c = some (qdec (s.binAt (2 * c + 1) ++ s.binAt (2 * c)))) ∧
      (∀ a, n.toNat ≤ a → t.fout.read a = s.fout.read a) ∧
      t = { s with fout := t.fout }) ∧
    (¬ (1 ≤ n.toNat ∧ n.toNat ≤ 256) →
      exec (.frmDec n) s = .next { s with status := s.status ||| 0b000100#6 })

/-! ## Header Codec -/

/-- 41_header_codec R184, R185, R186: `HDR.ENC` writes the 28 bytes of the send unit's current header and nothing else, in Idle
and in Streaming, with the decided codes; `A_NCH[0]` is 1..254 in every reachable state. -/
def Obligations.HeaderEncodeCommandResult : Prop :=
  decode 0x05000000#32 = .ok .hdrEnc ∧
  ∀ s, s.par.DecidedCodes → 1 ≤ s.tx.active.nch.toNat → s.tx.active.nch.toNat ≤ 254 →
    ∃ t, exec .hdrEnc s = .next t ∧
      (t.bout.read 0 = some 0x56#8 ∧ t.bout.read 1 = some 0x42#8 ∧ t.bout.read 2 = some 0x41#8 ∧
        t.bout.read 3 = some 0x4E#8) ∧
      t.bout.read 4 = some (0b000#3 ++ s.tx.srIdx) ∧
      (∃ nbs, t.bout.read 5 = some nbs ∧ nbs.toNat + 1 = samplesPerChannel s.tx.active.nch.toNat) ∧
      (∃ nbc, t.bout.read 6 = some nbc ∧ nbc.toNat + 1 = s.tx.active.nch.toNat) ∧
      t.bout.read 7 = some 0x01#8 ∧
      (∀ k (h : k < 16), t.bout.read (8 + k) = some s.tx.active.name[k]) ∧
      (∀ k, k < 4 → t.bout.read (24 + k) = some (s.nuFrame.extractLsb' (8 * k) 8)) ∧
      (∀ a, 28 ≤ a → t.bout.read a = s.bout.read a) ∧
      t = { s with bout := t.bout }

/-- 41_header_codec R190, R192: `HDR.DEC L` with the decided codes: an accepted header fills `HD_*`, any other clears `HDR_OK`
and leaves `HD_*` as they are. -/
def Obligations.HeaderDecodeCommandResult : Prop :=
  ∀ s len, s.par.DecidedCodes →
    decode (0x06000000#32 ||| len.setWidth 32) = .ok (.hdrDec len) ∧
    (HeaderAccepted s.binAt len.toNat → ∃ t, exec (.hdrDec len) s = .next t ∧
      t.hdrOk = true ∧ t.hd.srIndex = (s.binAt 4).extractLsb' 0 5 ∧ t.hd.subproto = (s.binAt 4).extractLsb' 5 2 ∧
      t.hd.rsv7 = (s.binAt 4).extractLsb' 7 1 ∧ t.hd.nbs = s.binAt 5 ∧ t.hd.nbc = s.binAt 6 ∧ t.hd.bit = s.binAt 7 ∧
      t.hd.name.toList = nameField s.binAt ∧
      t.hd.nuFrame = s.binAt 27 ++ s.binAt 26 ++ s.binAt 25 ++ s.binAt 24 ∧
      t = { s with hdrOk := t.hdrOk, hd := t.hd }) ∧
    (¬ HeaderAccepted s.binAt len.toNat → exec (.hdrDec len) s = .next { s with hdrOk := false })

/-- 41_header_codec R184, R193: the 28 bytes of a Header; `hdr_decode` inverts `hdr_encode` on every supported header, and
`hdr_encode` inverts `hdr_decode` on every accepted 28 bytes. -/
def Obligations.HeaderRoundTrips : Prop :=
  (∀ h : Header,
    (hdrEncode h).length = 28 ∧
    ((hdrEncode h)[0]? = some 0x56#8 ∧ (hdrEncode h)[1]? = some 0x42#8 ∧ (hdrEncode h)[2]? = some 0x41#8 ∧
      (hdrEncode h)[3]? = some 0x4E#8) ∧
    ((hdrEncode h)[4]? = some (h.rsv7 ++ h.subproto ++ h.srIndex) ∧ (hdrEncode h)[5]? = some h.nbs ∧
      (hdrEncode h)[6]? = some h.nbc ∧ (hdrEncode h)[7]? = some h.bit) ∧
    (∀ k (hk : k < 16), (hdrEncode h)[8 + k]? = some h.name[k]) ∧
    ∀ k, k < 4 → (hdrEncode h)[24 + k]? = some (h.nuFrame.extractLsb' (8 * k) 8)) ∧
  ∀ p : Params,
    (∀ (h : Header) (b : Nat → Byte), h.srIndex.toNat < 21 → h.bit = pcm16 p →
      (∀ k, k < 28 → (hdrEncode h)[k]? = some (b k)) → hdrDecode p b 28 = some h) ∧
    (∀ (h : Header) (b : Nat → Byte), hdrDecode p b 28 = some h → hdrEncode h = (List.range 28).map b)

/-- 41_header_codec R194: on audio headers `HDR.DEC` fails exactly where `RX.PARSE` reports one of the reasons 1, 2, 4, 5, 6. -/
def Obligations.HeaderDecodeAgreesWithParser : Prop :=
  ∀ s len t t', s.par.DecidedCodes → s.rx.run = true → s.binAt 4 &&& 0xE0#8 = 0#8 →
    exec (.hdrDec len) s = .next t → exec (.rxParse len) s = .next t' →
    (t.hdrOk = false ↔ t'.rxReason ∈ [1#4, 2#4, 4#4, 5#4, 6#4])

/-! ## Packet Assembler -/

/-- 42_packet_assembler R211: the packet size for every configurable channel count. -/
def Obligations.PacketSizeBounds : Prop :=
  ∀ c, 1 ≤ c → c ≤ 254 →
    samplesPerChannel c = min 256 (2 * ((1436 / (2 * c)) / 2)) ∧ payloadCap c = samplesPerChannel c * c * 2 ∧
    2 ≤ samplesPerChannel c ∧ samplesPerChannel c ≤ 256 ∧ samplesPerChannel c % 2 = 0 ∧ payloadCap c ≤ 1436 ∧
    28 + payloadCap c ≤ 1464 ∧ (3 ≤ c → 1436 < (samplesPerChannel c + 2) * c * 2)

/-- 42_packet_assembler R212, R213, 60_exceptions R314 (c): `TX.PUSH`. In Idle nothing; a push that fits stores the frame at the
cursor, advances the cursor by `2 × C` and raises the quantizer's flags, so that channel `c` of the `k`-th frame since the cursor
stood at 28 lands at `28 + (k × C + c) × 2`; a push that does not fit sets `ABUFOVF` and changes nothing else, no quantizer flag
included. -/
def Obligations.PushCommandResult : Prop :=
  decode 0x11000000#32 = .ok .txPush ∧
  ∀ s,
    (s.tx.run = false → exec .txPush s = .next s) ∧
    (s.tx.run = true → s.wpos + 2 * s.tx.active.nch.toNat ≤ s.par.abufCap →
      ∃ t, exec .txPush s = .next t ∧
        t.wpos = s.wpos + 2 * s.tx.active.nch.toNat ∧
        (∀ c, c < s.tx.active.nch.toNat →
          t.abuf.read (s.wpos + 2 * c) = some (lowByte (qenc s.par.qovfPolicy (s.finAt c)).1) ∧
            t.abuf.read (s.wpos + 2 * c + 1) = some (highByte (qenc s.par.qovfPolicy (s.finAt c)).1)) ∧
        (∀ k c, s.wpos = 28 + k * (2 * s.tx.active.nch.toNat) → c < s.tx.active.nch.toNat →
          t.abuf.read (28 + (k * s.tx.active.nch.toNat + c) * 2) =
              some (lowByte (qenc s.par.qovfPolicy (s.finAt c)).1) ∧
            t.abuf.read (28 + (k * s.tx.active.nch.toNat + c) * 2 + 1) =
              some (highByte (qenc s.par.qovfPolicy (s.finAt c)).1)) ∧
        (∀ a, ¬ (s.wpos ≤ a ∧ a < s.wpos + 2 * s.tx.active.nch.toNat) → t.abuf.read a = s.abuf.read a) ∧
        QuantizerFlags s t ((List.range s.tx.active.nch.toNat).map s.finAt) ∧
        t = { s with abuf := t.abuf, wpos := t.wpos, status := t.status }) ∧
    (s.tx.run = true → s.par.abufCap < s.wpos + 2 * s.tx.active.nch.toNat →
      exec .txPush s = .next { s with status := s.status ||| 0b010000#6 })

/-- 42_packet_assembler R216, R217, R219, 20_memory R90: the loop of `TX.END` in closed form. With `cap = CAP(C)` and
`n = (WPOS - 28) div cap`, datagram `k < n` is the header with `NUFRAME + k` followed by the `k`-th `cap` bytes of the frames;
the residue moves down to offset 28, the cursor stands after it, the counter has advanced by `n`. Offsets 0..27 hold the last
header, and no byte at or beyond `WPOS - cap` is written. In Idle nothing happens. -/
def Obligations.EndOfBlockEmitsEveryFullPacket : Prop :=
  decode 0x12000000#32 = .ok .txEnd ∧ (∀ s, s.tx.run = false → exec .txEnd s = .next s) ∧
  ∀ s, s.tx.run = true → 1 ≤ s.tx.active.nch.toNat → s.tx.active.nch.toNat ≤ 254 → 28 ≤ s.wpos →
    let cap := payloadCap s.tx.active.nch.toNat
    let n := (s.wpos - 28) / cap
    let r := (s.wpos - 28) % cap
    ∃ t, exec .txEnd s = .next t ∧
      t.wpos = 28 + r ∧
      t.nuFrame = s.nuFrame + BitVec.ofNat 32 n ∧
      t.linkOut = s.linkOut ++ (List.range n).map (fun k => LinkEvent.send
        (hdrEncode { txHeader s with nuFrame := s.nuFrame + BitVec.ofNat 32 k } ++
          s.abufBytes s.abuf (28 + k * cap) cap)) ∧
      (n = 0 → t = s) ∧
      (0 < n →
        (∀ j, j < r → t.abuf.read (28 + j) = (s.abufBytes s.abuf (28 + n * cap) r)[j]?) ∧
        (∀ k, k < 28 → t.abuf.read k =
          (hdrEncode { txHeader s with nuFrame := s.nuFrame + BitVec.ofNat 32 (n - 1) })[k]?) ∧
        ∀ a, s.wpos - cap ≤ a → t.abuf.read a = s.abuf.read a) ∧
      t = { s with abuf := t.abuf, wpos := t.wpos, nuFrame := t.nuFrame, linkOut := t.linkOut }

/-- 42_packet_assembler R218 (b), (c): after an end of block the cursor stands below a full packet, and every datagram sent is
exactly `28 + CAP(C)` bytes. -/
def Obligations.EndOfBlockLeavesNoFullPacket : Prop :=
  ∀ s t, s.tx.run = true → 1 ≤ s.tx.active.nch.toNat → s.tx.active.nch.toNat ≤ 254 → 28 ≤ s.wpos →
    exec .txEnd s = .next t →
    28 ≤ t.wpos ∧ t.wpos < 28 + payloadCap s.tx.active.nch.toNat ∧
      ∃ es, t.linkOut = s.linkOut ++ es ∧
        ∀ e ∈ es, ∃ bytes, e = .send bytes ∧ bytes.length = 28 + payloadCap s.tx.active.nch.toNat

/-- 42_packet_assembler R218 (d): no frame is lost or duplicated while the session lasts. Whatever command is executed, other than
the send unit's boundary, the payloads emitted so far followed by the frames waiting in `ABUF` grow by exactly the encoded frame
of a push that fits, and by nothing otherwise. -/
def Obligations.NoFrameIsLostOrDuplicated : Prop :=
  ∀ i s t, 1 ≤ s.tx.active.nch.toNat → s.tx.active.nch.toNat ≤ 254 → 28 ≤ s.wpos → i ≠ .blkBegin .tx →
    exec i s = .next t →
    sampleStream t = sampleStream s ++
      (if i = .txPush ∧ s.tx.run = true ∧ s.wpos + 2 * s.tx.active.nch.toNat ≤ s.par.abufCap then
        (frameEncode s.par.qovfPolicy ((List.range s.tx.active.nch.toNat).map s.finAt)).1
      else [])

/-! ## Packet Parser -/

/-- 43_packet_parser R241, R243, R244, R254, R256, R257, 60_exceptions R314 (a): `RX.PARSE`, with the decided codes and
either sub-protocol mask (30_encoding R122; the state after reset has `0xE0`). In Idle nothing. The lowest failing step gives the
reason; the reason is recorded, `RX_VALID` is cleared, and nothing else changes. A datagram on which no step fails is accepted; the results are written, `CHBUF` holds its samples de-interleaved and no other
element has a value. -/
def Obligations.ParseCommandResult : Prop :=
  ∀ s len,
    decode (0x18000000#32 ||| len.setWidth 32) = .ok (.rxParse len) ∧
    (s.rx.run = false → exec (.rxParse len) s = .next s) ∧
    (s.par.DecidedCodes → s.rx.run = true → ∀ k, k ≤ 8 →
      StepFails s.par.subprotoCheck s.binAt len.toNat s.rx.active.name k →
      (∀ j, j < k → ¬ StepFails s.par.subprotoCheck s.binAt len.toNat s.rx.active.name j) →
      exec (.rxParse len) s = .next { s with rxReason := BitVec.ofNat 4 k, rxValid := false }) ∧
    (s.par.DecidedCodes → s.rx.run = true →
      (∀ k, ¬ StepFails s.par.subprotoCheck s.binAt len.toNat s.rx.active.name k) →
      ∃ t, exec (.rxParse len) s = .next t ∧
        t.rxReason = 0#4 ∧ t.rxValid = true ∧ t.rxNch.toNat = (s.binAt 6).toNat + 1 ∧
        t.rxNs.toNat = (s.binAt 5).toNat + 1 ∧ t.rxSrIdx = (s.binAt 4).extractLsb' 0 5 ∧
        t.rxNuFrame = s.binAt 27 ++ s.binAt 26 ++ s.binAt 25 ++ s.binAt 24 ∧
        (∀ c i, c < t.rxNch.toNat → i < t.rxNs.toNat →
          t.chbufAt c i = some (qdec
            (s.binAt (28 + (i * t.rxNch.toNat + c) * 2 + 1) ++ s.binAt (28 + (i * t.rxNch.toNat + c) * 2)))) ∧
        (∀ c i, c < 256 → i < 256 → ¬ (c < t.rxNch.toNat ∧ i < t.rxNs.toNat) → t.chbuf.read (chKey c i) = none) ∧
        t = { s with
              rxReason := t.rxReason, rxValid := t.rxValid, rxNch := t.rxNch, rxNs := t.rxNs, rxSrIdx := t.rxSrIdx,
              rxNuFrame := t.rxNuFrame, chbuf := t.chbuf })

/-- 42_packet_assembler R214, 43_packet_parser R241: while its unit is Idle a push, an end of block or a parse changes nothing. -/
def Obligations.IdleUnitsIgnoreDatapathCommands : Prop :=
  ∀ s : State,
    (s.tx.run = false → exec .txPush s = .next s ∧ exec .txEnd s = .next s) ∧
    (s.rx.run = false → ∀ len, exec (.rxParse len) s = .next s)

/-- 43_packet_parser R240, 20_memory R77: the outcome of a parse is a function of the first `L` bytes, of `L` and of the
subscription: two streaming states that agree on those (and on the implementation's parameters) get the same results. -/
def Obligations.ParserReadsOnlyItsDatagram : Prop :=
  ∀ s s' len t t', s.par = s'.par → s.rx.run = true → s'.rx.run = true → s.rx.active.name = s'.rx.active.name →
    (∀ k, k < len.toNat → s.binAt k = s'.binAt k) →
    exec (.rxParse len) s = .next t → exec (.rxParse len) s' = .next t' →
    t.rxReason = t'.rxReason ∧ t.rxValid = t'.rxValid ∧
      (t.rxValid = true → t.rxNch = t'.rxNch ∧ t.rxNs = t'.rxNs ∧ t.rxSrIdx = t'.rxSrIdx ∧
        t.rxNuFrame = t'.rxNuFrame ∧ t.chbuf = t'.chbuf)

/-- 43_packet_parser R252: `name_eq` compares the bytes before the first `00`; bytes after it are ignored; a field without `00`
matches no legal subscription; the empty subscription matches exactly the fields that begin with `00`. -/
def Obligations.NameMatching : Prop :=
  ∀ (f : List Byte) (n : Name), f.length = 16 →
    (nameEq f n = true ↔ str f = str n.toList) ∧
    (∀ g k, g.length = 16 → k < 16 → f[k]? = some 0#8 → (∀ j, j ≤ k → g[j]? = f[j]?) → nameEq g n = nameEq f n) ∧
    (Safety.NameLegal n → 0#8 ∉ f → nameEq f n = false) ∧
    (nameEq f Name.empty = true ↔ f[0]? = some 0#8)

/-- 43_packet_parser R245: a length below 28 is `TooShort` whatever `BIN` holds, and a bare header is never accepted. -/
def Obligations.ShortDatagramsAreRejected : Prop :=
  ∀ s len, s.rx.run = true →
    (len.toNat < 28 → exec (.rxParse len) s = .next { s with rxReason := 1#4, rxValid := false }) ∧
    (len.toNat = 28 → ∃ t, exec (.rxParse len) s = .next t ∧ t.rxValid = false ∧ t.rxReason ≠ 0#4)

/-- 40_sample_codec R163: end to end. The send unit streams with a full packet of frames in `ABUF`; the datagram that `TX.END`
sends, placed in `BIN` of a receive unit that streams under the same name, is accepted, and `CHBUF[c][i]` is
`qdec(qenc(x[i][c]))`. -/
def Obligations.LoopBackReconstructsEverySample : Prop :=
  ∀ (s : State) (frames : List (List Sample)),
    s.tx.run = true → 1 ≤ s.tx.active.nch.toNat → s.tx.active.nch.toNat ≤ 254 → s.tx.srIdx.toNat < 21 →
    frames.length = samplesPerChannel s.tx.active.nch.toNat → (∀ f ∈ frames, f.length = s.tx.active.nch.toNat) →
    s.wpos = 28 + payloadCap s.tx.active.nch.toNat →
    s.abufBytes s.abuf 28 (payloadCap s.tx.active.nch.toNat) =
      frames.flatMap (fun f => (frameEncode s.par.qovfPolicy f).1) →
    ∃ t datagram, exec .txEnd s = .next t ∧ t.linkOut = s.linkOut ++ [.send datagram] ∧ t.wpos = 28 ∧
      datagram.length = 28 + payloadCap s.tx.active.nch.toNat ∧
      ∀ r : State, r.par = s.par → r.rx.run = true → r.rx.active.name = s.tx.active.name →
        (∀ k (h : k < datagram.length), r.binAt k = datagram[k]) →
        ∃ r', exec (.rxParse (BitVec.ofNat 16 datagram.length)) r = .next r' ∧
          r'.rxValid = true ∧ r'.rxReason = 0#4 ∧ r'.rxNch.toNat = s.tx.active.nch.toNat ∧
          r'.rxNs.toNat = frames.length ∧ r'.rxSrIdx = s.tx.srIdx ∧ r'.rxNuFrame = s.nuFrame ∧
          ∀ i c (hi : i < frames.length) (hc : c < frames[i].length),
            r'.chbufAt c i = some (qdec (qenc s.par.qovfPolicy frames[i][c]).1)

/-! ## Session -/

/-- 44_session_control R272, R284, R285: `BLK.BEGIN u`. A unit that is not dirty: nothing. A dirty unit: the pending bank becomes
the active one, `DIRTY` and the release request are consumed, and the unit ends up Streaming exactly when it was last asked to
start and its index is fixed or resolves (R280, R286). `Close` comes first when the unit streamed, `Open` with the newly active
endpoint when it now streams, `CFGERR` when it was asked to start and could not. The send unit's cursor is reset always and its
counter when it starts, the receive unit's result becomes invalid. The other unit and everything that is not named changes
not. -/
def Obligations.BoundaryCommandResult : Prop :=
  ∀ s u,
    decode (0x10000000#32 ||| unitWord u) = .ok (.blkBegin u) ∧
    ((s.sess u).dirty = false → exec (.blkBegin u) s = .next s) ∧
    ((s.sess u).dirty = true →
      ∃ t, exec (.blkBegin u) s = .next t ∧
        (t.sess u).active = (s.sess u).pending ∧ (t.sess u).pending = (s.sess u).pending ∧
        (t.sess u).dirty = false ∧ (t.sess u).pSrclr = false ∧ (t.sess u).pEn = (s.sess u).pEn ∧
        ((t.sess u).run = true ↔ (s.sess u).pEn = true ∧ (StaysFixed (s.sess u) ∨ RateInTable s)) ∧
        ((t.sess u).srFixed = true ↔ StaysFixed (s.sess u) ∨ ((s.sess u).pEn = true ∧ RateInTable s)) ∧
        ((s.sess u).pEn = false → (t.sess u).srIdx = (s.sess u).srIdx) ∧
        t.linkOut = s.linkOut ++ (if (s.sess u).run then [LinkEvent.closed u] else []) ++
          (if (t.sess u).run then [LinkEvent.opened u (s.sess u).pending.host (s.sess u).pending.port] else []) ∧
        (t.hasFlag .cfgerr = true ↔
          s.hasFlag .cfgerr = true ∨ ((s.sess u).pEn = true ∧ ¬ (StaysFixed (s.sess u) ∨ RateInTable s))) ∧
        (∀ f, f ≠ .cfgerr → t.hasFlag f = s.hasFlag f) ∧
        (u = .tx → t.wpos = 28 ∧ t.nuFrame = (if t.tx.run then 0#32 else s.nuFrame) ∧ t.rxValid = s.rxValid) ∧
        (u = .rx → t.rxValid = false ∧ t.wpos = s.wpos ∧ t.nuFrame = s.nuFrame) ∧
        (∀ v, v ≠ u → t.sess v = s.sess v) ∧
        t = { s with
              tx := t.tx, rx := t.rx, linkOut := t.linkOut, status := t.status, wpos := t.wpos, nuFrame := t.nuFrame,
              rxValid := t.rxValid, rateSamples := t.rateSamples })

/-- 44_session_control R283, R274: an index that stays fixed is kept, whatever the table and the rate; otherwise a start that
finds the rate takes the least matching index and fixes it; a start that does not find it leaves the unit Idle and unfixed, sets
`CFGERR` and opens nothing; no start leaves the index unfixed. In the default table 48000, 44100 and 96000 stand at 3, 16 and 4,
and 50000 nowhere. -/
def Obligations.RateResolution : Prop :=
  (State.reset.par.srTable[3] = 48000 ∧ State.reset.par.srTable[16] = 44100 ∧ State.reset.par.srTable[4] = 96000 ∧
    ∀ i : Fin 21, State.reset.par.srTable[i] ≠ 50000) ∧
  ∀ s u t, (s.sess u).dirty = true → exec (.blkBegin u) s = .next t →
    (StaysFixed (s.sess u) → (t.sess u).srIdx = (s.sess u).srIdx ∧ (t.sess u).srFixed = true) ∧
    (¬ StaysFixed (s.sess u) → (s.sess u).pEn = true → ∀ i : Fin 21,
      s.par.srTable[i] = s.sampledRate.toNat → (∀ j : Fin 21, j < i → s.par.srTable[j] ≠ s.sampledRate.toNat) →
      (t.sess u).srIdx.toNat = i.val ∧ (t.sess u).srFixed = true ∧ (t.sess u).run = true) ∧
    (¬ StaysFixed (s.sess u) → (s.sess u).pEn = true → ¬ RateInTable s →
      (t.sess u).srIdx = (s.sess u).srIdx ∧ (t.sess u).srFixed = false ∧ (t.sess u).run = false ∧
        t.hasFlag .cfgerr = true ∧ t.linkOut = s.linkOut ++ (if (s.sess u).run then [LinkEvent.closed u] else [])) ∧
    (¬ StaysFixed (s.sess u) → (s.sess u).pEn = false →
      (t.sess u).srIdx = (s.sess u).srIdx ∧ (t.sess u).srFixed = false)

/-- 44_session_control R283, 70_reset_and_hazards R369: while the index stays fixed, the rate and the table are not consulted:
another driven rate and another table change no outcome. -/
def Obligations.FixedIndexIgnoresHostRate : Prop :=
  ∀ s u t rate table, StaysFixed (s.sess u) → exec (.blkBegin u) s = .next t →
    exec (.blkBegin u) { s with hostRate := rate, par := { s.par with srTable := table } } =
      .next { t with hostRate := rate, par := { s.par with srTable := table } }

/-- 44_session_control R290: every configuration command addressed to `u` sets `DIRTY[u]`, leaves the active bank, the run state
and the index of `u`, the other unit, and everything outside the units as they are. -/
def Obligations.ConfigurationTouchesPendingOnly : Prop :=
  ∀ i s u, Configures u i → ∃ t, exec i s = .next t ∧
    (t.sess u).dirty = true ∧ (t.sess u).active = (s.sess u).active ∧ (t.sess u).run = (s.sess u).run ∧
    (t.sess u).srIdx = (s.sess u).srIdx ∧ (t.sess u).srFixed = (s.sess u).srFixed ∧
    (∀ v, v ≠ u → t.sess v = s.sess v) ∧ t = { s with tx := t.tx, rx := t.rx }

/-- 44_session_control R291: `CFG.HOST`. -/
def Obligations.HostCommandResult : Prop :=
  ∀ s u len, decode (0x20000000#32 ||| unitWord u ||| len.setWidth 32) = .ok (.cfgHost u len) ∧
    ∃ t, exec (.cfgHost u len) s = .next t ∧
    (t.sess u).pending.host.length = len.toNat ∧
    (∀ k, k < len.toNat → ∀ b, s.cin.read k = some b → (t.sess u).pending.host[k]? = some b) ∧
    t.sess u = { s.sess u with
      pending := { (s.sess u).pending with host := (t.sess u).pending.host }, dirty := true } ∧
    (∀ v, v ≠ u → t.sess v = s.sess v) ∧ t = { s with tx := t.tx, rx := t.rx }

/-- 44_session_control R292: `CFG.PORT`. -/
def Obligations.PortCommandResult : Prop :=
  ∀ s u port, decode (0x21000000#32 ||| unitWord u ||| port.setWidth 32) = .ok (.cfgPort u port) ∧
    ∃ t, exec (.cfgPort u port) s = .next t ∧
    t.sess u = { s.sess u with pending := { (s.sess u).pending with port := port }, dirty := true } ∧
    (∀ v, v ≠ u → t.sess v = s.sess v) ∧ t = { s with tx := t.tx, rx := t.rx }

/-- 44_session_control R293: `CFG.NCH` clamps to 1..254. -/
def Obligations.ChannelCommandClamps : Prop :=
  ∀ s u n, decode (0x22000000#32 ||| unitWord u ||| n.setWidth 32) = .ok (.cfgNch u n) ∧
    ∃ t nch, exec (.cfgNch u n) s = .next t ∧
    nch.toNat = min 254 (max 1 n.toNat) ∧
    t.sess u = { s.sess u with pending := { (s.sess u).pending with nch := nch }, dirty := true } ∧
    (∀ v, v ≠ u → t.sess v = s.sess v) ∧ t = { s with tx := t.tx, rx := t.rx }

/-- 44_session_control R294: `CFG.NAME` keeps the bytes of the string before its first `00`, at most 15 of them, and pads with
`00`; the register is a legal name whatever `CIN` holds. -/
def Obligations.NameCommandTruncates : Prop :=
  ∀ s u len, decode (0x23000000#32 ||| unitWord u ||| len.setWidth 32) = .ok (.cfgName u len) ∧
    ∃ t name, exec (.cfgName u len) s = .next t ∧
    Safety.NameLegal name ∧
    (∀ bytes : List Byte, bytes.length = min len.toNat 15 → (∀ k (h : k < bytes.length), s.cin.read k = some bytes[k]) →
      ∀ k (h : k < 16), name[k] = (str bytes)[k]?.getD 0#8) ∧
    t.sess u = { s.sess u with pending := { (s.sess u).pending with name := name }, dirty := true } ∧
    (∀ v, v ≠ u → t.sess v = s.sess v) ∧ t = { s with tx := t.tx, rx := t.rx }

/-- 44_session_control R295, R296: `CFG.RUN` and `CFG.SRCLR` only record the request. -/
def Obligations.RunAndReleaseCommandsRecordRequests : Prop :=
  ∀ s u,
    (∀ b, decode (0x24000000#32 ||| unitWord u ||| (BitVec.ofBool b).setWidth 32) = .ok (.cfgRun u b) ∧
      ∃ t, exec (.cfgRun u b) s = .next t ∧
      t.sess u = { s.sess u with pEn := b, dirty := true } ∧
      (∀ v, v ≠ u → t.sess v = s.sess v) ∧ t = { s with tx := t.tx, rx := t.rx }) ∧
    (decode (0x25000000#32 ||| unitWord u) = .ok (.cfgSrclr u) ∧ ∃ t, exec (.cfgSrclr u) s = .next t ∧
      t.sess u = { s.sess u with pSrclr := true, dirty := true } ∧
      (∀ v, v ≠ u → t.sess v = s.sess v) ∧ t = { s with tx := t.tx, rx := t.rx })

/-- 44_session_control R273, 20_memory R87: exactly once. From a clean unit `u`, whatever commands other than `BLK.BEGIN u` are
executed before its next boundary, they touch neither its run state nor its active bank nor its link. If none of them configured
`u`, that boundary changes nothing. If any number of them did, it causes one stop (one `Close` if the unit streamed) and at most
one start (at most one `Open`) and applies the last value written to each field: host, port, channel count, name, the last start
or stop request; a release of the index stands until it is consumed there. The boundary after it changes nothing. The strings are
those of `CIN` at the start, which no command writes. -/
def Obligations.ConfigurationIsAppliedExactlyOnce : Prop :=
  ∀ s u (cs : List Instr), (s.sess u).dirty = false → Instr.blkBegin u ∉ cs →
    ∃ t₀ t₁, execAll cs s = some t₀ ∧ exec (.blkBegin u) t₀ = .next t₁ ∧ exec (.blkBegin u) t₁ = .next t₁ ∧
      (t₀.sess u).active = (s.sess u).active ∧ (t₀.sess u).run = (s.sess u).run ∧
      (∃ es, t₀.linkOut = s.linkOut ++ es ∧ ∀ e ∈ es, e ≠ .closed u ∧ ∀ host port, e ≠ .opened u host port) ∧
      ((∀ c ∈ cs, ¬ Configures u c) → t₁ = t₀) ∧
      ((∃ c ∈ cs, Configures u c) →
        (t₁.sess u).active = (t₀.sess u).pending ∧
        t₁.linkOut = t₀.linkOut ++ (if (s.sess u).run then [LinkEvent.closed u] else []) ++
          (if (t₁.sess u).run then [LinkEvent.opened u (t₀.sess u).pending.host (t₀.sess u).pending.port] else [])) ∧
      (∀ before after port, cs = before ++ Instr.cfgPort u port :: after → (∀ q, Instr.cfgPort u q ∉ after) →
        (t₁.sess u).active.port = port) ∧
      (∀ before after n, cs = before ++ Instr.cfgNch u n :: after → (∀ m, Instr.cfgNch u m ∉ after) →
        (t₁.sess u).active.nch.toNat = min 254 (max 1 n.toNat)) ∧
      (∀ before after len, cs = before ++ Instr.cfgHost u len :: after → (∀ l, Instr.cfgHost u l ∉ after) →
        (t₁.sess u).active.host = s.cinBytes len.toNat) ∧
      (∀ before after len, cs = before ++ Instr.cfgName u len :: after → (∀ l, Instr.cfgName u l ∉ after) →
        (t₁.sess u).active.name = configuredName (s.cinBytes (min len.toNat 15))) ∧
      (∀ before after b, cs = before ++ Instr.cfgRun u b :: after → (∀ d, Instr.cfgRun u d ∉ after) →
        (t₁.sess u).pEn = b ∧
          ((t₁.sess u).run = true ↔ b = true ∧ (StaysFixed (t₀.sess u) ∨ RateInTable t₀))) ∧
      (Instr.cfgSrclr u ∈ cs → (t₀.sess u).pSrclr = true ∧ (t₁.sess u).pSrclr = false)

/-- 20_memory R84, R85, R86: the order of two concurrent words on different ports is not observable unless the audio word is
the boundary of the unit the control word configures: presented in either order they lead to the same state. -/
def Obligations.PortsCommute : Prop :=
  ∀ (s : State) rest wc wa,
    (∀ u i, decode wc = .ok i → Configures u i → decode wa ≠ .ok (.blkBegin u)) →
    ∀ t₁ t₂ t₃ t₄,
      step { s with inputs := Input.command .control wc :: Input.command .audio wa :: rest } = .next t₁ →
      step t₁ = .next t₂ →
      step { s with inputs := Input.command .audio wa :: Input.command .control wc :: rest } = .next t₃ →
      step t₃ = .next t₄ →
      t₂ = t₄

/-! ## The whole machine -/

/-- 10_state R40, R44, R63 and the other clauses of the invariant hold at reset. -/
def Obligations.ResetMeetsInvariant : Prop := Safety.Inv State.reset

/-- 10_state R32, R35, R40, R44, R63, 42_packet_assembler R218, 44_session_control R286: every step, whatever event it takes,
keeps the invariant. -/
def Obligations.EveryStepKeepsInvariant : Prop :=
  ∀ s t, Safety.Inv s → step s = .next t → Safety.Inv t

/-- 10_state R47, R50, 20_memory R90: through every step but the hardware reset a sticky bit that is set stays set, and
`LINK_OUT` is only appended to. That no step changes `par` is about the model's own field for the parameters of 00_scope R9, a
design choice: log entry 5. -/
def Obligations.StatusIsStickyAndLinkOutputGrows : Prop :=
  ∀ s t, step s = .next t →
    t.par = s.par ∧
    ((∀ rest, s.inputs ≠ Input.reset :: rest) →
      (∀ f, s.hasFlag f = true → t.hasFlag f = true) ∧ ∃ es, t.linkOut = s.linkOut ++ es)

/-- 10_state R34, 44_session_control R270, 10_state R31, R35: `RUN[u]` is 0 after reset, and only `BLK.BEGIN u` changes the run
state, the active bank and the index of unit `u`; only a boundary opens or closes the link. -/
def Obligations.OnlyBoundaryMovesUnit : Prop :=
  (∀ u, (State.reset.sess u).run = false) ∧
  ∀ i s t, exec i s = .next t →
    (∀ u, i ≠ .blkBegin u →
      (t.sess u).run = (s.sess u).run ∧ (t.sess u).active = (s.sess u).active ∧
        (t.sess u).srIdx = (s.sess u).srIdx ∧ (t.sess u).srFixed = (s.sess u).srFixed) ∧
    ((∀ u, i ≠ .blkBegin u) →
      ∃ es, t.linkOut = s.linkOut ++ es ∧ ∀ e ∈ es, ∃ bytes, e = .send bytes)

/-- 10_state R33: `DIRTY[u]` is 0 after reset, every configuration command addressed to `u` sets it, `BLK.BEGIN u` clears it, and
no other command writes it. Nor does any command but `BLK.BEGIN u` read it: with another value in `DIRTY[u]` the command ends in
the same state, but for the value left in `DIRTY[u]` where the command does not set it. -/
def Obligations.DirtyIsSetAndClearedByItsOwners : Prop :=
  (∀ u, (State.reset.sess u).dirty = false) ∧
  ∀ i s t u, exec i s = .next t →
    (Configures u i → (t.sess u).dirty = true) ∧
    (i = .blkBegin u → (t.sess u).dirty = false) ∧
    (¬ Configures u i → i ≠ .blkBegin u → (t.sess u).dirty = (s.sess u).dirty) ∧
    ∀ d,
      (Configures u i → exec i (s.setSess u { s.sess u with dirty := d }) = .next t) ∧
      (¬ Configures u i → i ≠ .blkBegin u →
        exec i (s.setSess u { s.sess u with dirty := d }) = .next (t.setSess u { t.sess u with dirty := d }))

/-- 20_memory R70, 30_encoding R106: which commands reach which space. No command writes an operand window; every other space is
written only by the commands listed for it. -/
def Obligations.SpacesAreReachedByTheirCommands : Prop :=
  ∀ i s t, exec i s = .next t →
    t.fin = s.fin ∧ t.bin = s.bin ∧ t.cin = s.cin ∧
    (t.fout ≠ s.fout → (∃ w, i = .qI2F w) ∨ ∃ n, i = .frmDec n) ∧
    (t.bout ≠ s.bout → i = .qF2I ∨ (∃ n, i = .frmEnc n) ∨ i = .hdrEnc) ∧
    (t.abuf ≠ s.abuf → i = .txPush ∨ i = .txEnd) ∧
    (t.chbuf ≠ s.chbuf → ∃ len, i = .rxParse len) ∧
    (t.nuFrame ≠ s.nuFrame → i = .txEnd ∨ i = .blkBegin .tx)

/-- 10_state R53: a link failure sets `LINKERR` and changes nothing else. -/
def Obligations.LinkFailureSetsLinkerrOnly : Prop :=
  ∀ (s : State) rest, s.inputs = Input.linkFailure :: rest →
    step s = .next { s with inputs := rest, status := s.status ||| 0b100000#6 }

/-- 10_state R52, log entry 15: a delivered datagram of 1..65535 bytes stands at `BIN[0 .. L)` while the receive unit streams;
the link delivers nothing else. -/
def Obligations.DeliveryFillsBinWhileStreaming : Prop :=
  ∀ (s : State) d rest, s.inputs = Input.deliver d :: rest →
    ∃ t, step s = .next t ∧ t = { s with inputs := rest, bin := t.bin } ∧
      (s.rx.run = true → 1 ≤ d.length → d.length ≤ 65535 →
        (∀ k (h : k < d.length), t.bin.read k = some d[k]) ∧ ∀ a, d.length ≤ a → t.bin.read a = s.bin.read a) ∧
      (¬ (s.rx.run = true ∧ 1 ≤ d.length ∧ d.length ≤ 65535) → t.bin = s.bin)

/-- 10_state R48, R36, 00_scope R17: an agent's write of a window element reads back, leaves every other element and everything
else alone; driving the rate changes the rate alone; with nothing presented the block changes nothing. -/
def Obligations.AgentWritesReachOneElement : Prop :=
  ∀ (s : State) rest,
    (s.inputs = [] → step s = .next s) ∧
    (∀ i x, s.inputs = Input.writeFin i x :: rest → ∃ t, step s = .next t ∧ t = { s with inputs := rest, fin := t.fin } ∧
      t.fin.read i.toNat = some x ∧ ∀ a, a ≠ i.toNat → t.fin.read a = s.fin.read a) ∧
    (∀ i b, s.inputs = Input.writeBin i b :: rest → ∃ t, step s = .next t ∧ t = { s with inputs := rest, bin := t.bin } ∧
      t.bin.read i.toNat = some b ∧ ∀ a, a ≠ i.toNat → t.bin.read a = s.bin.read a) ∧
    (∀ i b, s.inputs = Input.writeCin i b :: rest → ∃ t, step s = .next t ∧ t = { s with inputs := rest, cin := t.cin } ∧
      t.cin.read i.val = some b ∧ ∀ a, a ≠ i.val → t.cin.read a = s.cin.read a) ∧
    (∀ hz, s.inputs = Input.driveRate hz :: rest → step s = .next { s with inputs := rest, hostRate := some hz })

/-- 10_state R63, 70_reset_and_hazards R364, log entry 3: a command whose operand window the agent has filled reads no
unspecified value: in a reachable state its result does not depend on the reset number, the argument of every unwritten
element's free value. -/
def Obligations.FilledWindowsHideUnspecifiedValues : Prop :=
  ∀ i s t epoch, Safety.Inv s → Safety.OperandsWritten i s → exec i s = .next t →
    exec i { s with epoch := epoch } = .next { t with epoch := epoch }
end

