-- ==== Sys2Proof/Laws/Decode.lean ====
section
/-! SUPPORT. The fields of a packed word, what a decoded word was packed from, and the operand forms of `arg`. -/

namespace Sys2Proof.Laws

/-- A packed word as a number. -/
theorem toNat_pack (op : BitVec 8) (u : BitVec 1) (arg : BitVec 20) :
    (pack op u arg).toNat = op.toNat * 2 ^ 24 + u.toNat * 2 ^ 23 + arg.toNat := by
  have := op.isLt; have := u.isLt; have := arg.isLt
  simp only [pack, BitVec.toNat_append, Nat.shiftLeft_eq, BitVec.toNat_ofNat, Nat.or_zero, Nat.zero_mod]
  rw [← Nat.shiftLeft_eq op.toNat, ← Nat.shiftLeft_add_eq_or_of_lt (by omega), ← Nat.shiftLeft_eq,
    ← Nat.shiftLeft_eq, ← Nat.shiftLeft_add_eq_or_of_lt (by omega)]
  simp only [Nat.shiftLeft_eq]
  omega

theorem toNat_opField (w : Word) : (opField w).toNat = w.toNat / 2 ^ 24 := by
  have := w.isLt
  simp only [opField, BitVec.extractLsb'_toNat, Nat.shiftRight_eq_div_pow]
  omega

theorem toNat_unitField (w : Word) : (unitField w).toNat = w.toNat / 2 ^ 23 % 2 := by
  simp only [unitField, BitVec.extractLsb'_toNat, Nat.shiftRight_eq_div_pow]

theorem toNat_rsvField (w : Word) : (rsvField w).toNat = w.toNat / 2 ^ 20 % 8 := by
  simp only [rsvField, BitVec.extractLsb'_toNat, Nat.shiftRight_eq_div_pow]

theorem toNat_argField (w : Word) : (argField w).toNat = w.toNat % 2 ^ 20 := by
  simp only [argField, BitVec.extractLsb'_toNat, Nat.shiftRight_eq_div_pow]
  omega

@[simp] theorem opField_pack (op : BitVec 8) (u : BitVec 1) (arg : BitVec 20) : opField (pack op u arg) = op := by
  apply BitVec.eq_of_toNat_eq
  have := u.isLt; have := arg.isLt
  rw [toNat_opField, toNat_pack]; omega

@[simp] theorem unitField_pack (op : BitVec 8) (u : BitVec 1) (arg : BitVec 20) : unitField (pack op u arg) = u := by
  apply BitVec.eq_of_toNat_eq
  have := u.isLt; have := arg.isLt
  rw [toNat_unitField, toNat_pack]; omega

@[simp] theorem rsvField_pack (op : BitVec 8) (u : BitVec 1) (arg : BitVec 20) : rsvField (pack op u arg) = 0#3 := by
  apply BitVec.eq_of_toNat_eq
  have := u.isLt; have := arg.isLt
  rw [toNat_rsvField, toNat_pack]
  simp only [BitVec.toNat_ofNat]
  omega

@[simp] theorem argField_pack (op : BitVec 8) (u : BitVec 1) (arg : BitVec 20) : argField (pack op u arg) = arg := by
  apply BitVec.eq_of_toNat_eq
  have := arg.isLt
  rw [toNat_argField, toNat_pack]; omega

/-- A word whose reserved field is 0 is packed from its fields. -/
theorem pack_fields {w : Word} (h : rsvField w = 0#3) : pack (opField w) (unitField w) (argField w) = w := by
  apply BitVec.eq_of_toNat_eq
  have h1 := congrArg BitVec.toNat h
  rw [toNat_rsvField] at h1
  simp only [BitVec.toNat_ofNat] at h1
  have := w.isLt
  rw [toNat_pack, toNat_opField, toNat_unitField, toNat_argField]
  omega

/-- A packed word as the spec writes words out: `op << 24 | u << 23 | arg`. -/
theorem pack_eq_or (op : BitVec 8) (u : BitVec 1) (arg : BitVec 20) :
    pack op u arg = op.setWidth 32 <<< 24 ||| u.setWidth 32 <<< 23 ||| arg.setWidth 32 := by
  apply BitVec.eq_of_toNat_eq
  have := op.isLt; have := u.isLt; have := arg.isLt
  have h1 : (op.setWidth 32 <<< 24).toNat = op.toNat * 2 ^ 24 := by
    simp only [BitVec.toNat_shiftLeft, BitVec.toNat_setWidth, Nat.shiftLeft_eq]; omega
  have h2 : (u.setWidth 32 <<< 23).toNat = u.toNat * 2 ^ 23 := by
    simp only [BitVec.toNat_shiftLeft, BitVec.toNat_setWidth, Nat.shiftLeft_eq]; omega
  have h3 : (arg.setWidth 32).toNat = arg.toNat := by simp only [BitVec.toNat_setWidth]; omega
  rw [toNat_pack, BitVec.toNat_or, BitVec.toNat_or, h1, h2, h3, ← Nat.shiftLeft_eq op.toNat,
    ← Nat.shiftLeft_add_eq_or_of_lt (by omega), Nat.shiftLeft_eq,
    show op.toNat * 2 ^ 24 + u.toNat * 2 ^ 23 = (op.toNat * 2 + u.toNat) * 2 ^ 23 by ring, ← Nat.shiftLeft_eq,
    ← Nat.shiftLeft_add_eq_or_of_lt (by omega)]

/-- A packed word is decoded by its fields. -/
@[simp] theorem decode_pack (op : BitVec 8) (u : BitVec 1) (arg : BitVec 20) :
    decode (pack op u arg) = decodeOp op u arg := by
  simp [decode]

/-- A word that decodes has a reserved field of 0. -/
theorem decode_ok {w : Word} {i : Instr} (h : decode w = .ok i) :
    rsvField w = 0#3 ∧ decodeOp (opField w) (unitField w) (argField w) = .ok i := by
  unfold decode at h
  split at h
  · exact ⟨‹_›, h⟩
  · cases h

@[simp] theorem unitOf_unitBit (u : SessionUnit) : unitOf (unitBit u) = u := by cases u <;> rfl

@[simp] theorem unitBit_unitOf (b : BitVec 1) : unitBit (unitOf b) = b := by
  revert b; decide

/-! ## The operand forms, read and written -/

theorem argHalf_setWidth (w : BitVec 16) (f : BitVec 16 → Instr) : argHalf (w.setWidth 20) f = .ok (f w) := by
  have h1 : (w.setWidth 20).extractLsb' 16 4 = 0#4 := by
    apply BitVec.eq_of_toNat_eq
    have := w.isLt
    simp only [BitVec.extractLsb'_toNat, BitVec.toNat_setWidth, Nat.shiftRight_eq_div_pow, BitVec.toNat_ofNat]
    omega
  have h2 : (w.setWidth 20).extractLsb' 0 16 = w := by
    apply BitVec.eq_of_toNat_eq
    have := w.isLt
    simp only [BitVec.extractLsb'_toNat, BitVec.toNat_setWidth, Nat.shiftRight_eq_div_pow]
    omega
  rw [argHalf, if_pos h1, h2]

theorem argLength_setWidth (n : BitVec 8) (f : BitVec 8 → Instr) : argLength (n.setWidth 20) f = .ok (f n) := by
  have h1 : (n.setWidth 20).extractLsb' 8 12 = 0#12 := by
    apply BitVec.eq_of_toNat_eq
    have := n.isLt
    simp only [BitVec.extractLsb'_toNat, BitVec.toNat_setWidth, Nat.shiftRight_eq_div_pow, BitVec.toNat_ofNat]
    omega
  have h2 : (n.setWidth 20).extractLsb' 0 8 = n := by
    apply BitVec.eq_of_toNat_eq
    have := n.isLt
    simp only [BitVec.extractLsb'_toNat, BitVec.toNat_setWidth, Nat.shiftRight_eq_div_pow]
    omega
  rw [argLength, if_pos h1, h2]

theorem argCount_setWidth (n : BitVec 9) (f : BitVec 9 → Instr) (h : 1 ≤ n.toNat ∧ n.toNat ≤ 256) :
    argCount (n.setWidth 20) f = .ok (f n) := by
  have h1 : (n.setWidth 20).toNat = n.toNat := by
    simp only [BitVec.toNat_setWidth]
    omega
  have h2 : (n.setWidth 20).extractLsb' 0 9 = n := by
    apply BitVec.eq_of_toNat_eq
    have := n.isLt
    simp only [BitVec.extractLsb'_toNat, BitVec.toNat_setWidth, Nat.shiftRight_eq_div_pow]
    omega
  rw [argCount, h1, if_pos h, h2]

theorem argBit_ite (b : Bool) (f : Bool → Instr) : argBit (if b then 1#20 else 0#20) f = .ok (f b) := by
  cases b <;> rfl

theorem withoutUnit_ok {u : BitVec 1} {k : Except DecodeError Instr} {i : Instr} (h : withoutUnit u k = .ok i) :
    u = 0#1 ∧ k = .ok i := by
  unfold withoutUnit at h
  split at h
  · exact ⟨‹_›, h⟩
  · cases h

theorem argZero_ok {arg : BitVec 20} {j i : Instr} (h : argZero arg j = .ok i) : arg = 0#20 ∧ i = j := by
  unfold argZero at h
  split at h
  · exact ⟨‹_›, by cases h; rfl⟩
  · cases h

theorem argHalf_ok {arg : BitVec 20} {f : BitVec 16 → Instr} {i : Instr} (h : argHalf arg f = .ok i) :
    ∃ w : BitVec 16, i = f w ∧ arg = w.setWidth 20 := by
  unfold argHalf at h
  split at h
  · rename_i h0
    cases h
    refine ⟨_, rfl, BitVec.eq_of_toNat_eq ?_⟩
    have h1 := congrArg BitVec.toNat h0
    have := arg.isLt
    simp only [BitVec.extractLsb'_toNat, BitVec.toNat_setWidth, Nat.shiftRight_eq_div_pow, BitVec.toNat_ofNat] at h1 ⊢
    omega
  · cases h

theorem argLength_ok {arg : BitVec 20} {f : BitVec 8 → Instr} {i : Instr} (h : argLength arg f = .ok i) :
    ∃ n : BitVec 8, i = f n ∧ arg = n.setWidth 20 := by
  unfold argLength at h
  split at h
  · rename_i h0
    cases h
    refine ⟨_, rfl, BitVec.eq_of_toNat_eq ?_⟩
    have h1 := congrArg BitVec.toNat h0
    have := arg.isLt
    simp only [BitVec.extractLsb'_toNat, BitVec.toNat_setWidth, Nat.shiftRight_eq_div_pow, BitVec.toNat_ofNat] at h1 ⊢
    omega
  · cases h

theorem argCount_ok {arg : BitVec 20} {f : BitVec 9 → Instr} {i : Instr} (h : argCount arg f = .ok i) :
    ∃ n : BitVec 9, i = f n ∧ arg = n.setWidth 20 ∧ 1 ≤ n.toNat ∧ n.toNat ≤ 256 := by
  unfold argCount at h
  split at h
  · rename_i h0
    cases h
    have := arg.isLt
    refine ⟨_, rfl, BitVec.eq_of_toNat_eq ?_, ?_⟩ <;>
      simp only [BitVec.extractLsb'_toNat, BitVec.toNat_setWidth, Nat.shiftRight_eq_div_pow] <;> omega
  · cases h

theorem argBit_ok {arg : BitVec 20} {f : Bool → Instr} {i : Instr} (h : argBit arg f = .ok i) :
    ∃ b : Bool, i = f b ∧ arg = if b then 1#20 else 0#20 := by
  unfold argBit at h
  split at h
  · rename_i h0
    cases h
    refine ⟨_, rfl, BitVec.eq_of_toNat_eq ?_⟩
    have h1 := congrArg BitVec.toNat h0
    have := arg.isLt
    simp only [BitVec.extractLsb'_toNat, Nat.shiftRight_eq_div_pow, BitVec.toNat_ofNat] at h1
    have h2 : arg.getLsbD 0 = decide (arg.toNat % 2 = 1) := by simp [BitVec.getLsbD, Nat.testBit_zero]
    rw [h2]
    by_cases h3 : arg.toNat % 2 = 1 <;> simp only [h3, decide_true, decide_false, if_true, Bool.false_eq_true, if_false,
      BitVec.toNat_ofNat] <;> omega
  · cases h

/-- What decodes, row by row of 30_encoding R104: the fields of the word are those the encoder packs. -/
theorem decodeOp_ok {op : BitVec 8} {u : BitVec 1} {arg : BitVec 20} {i : Instr} (h : decodeOp op u arg = .ok i) :
    pack op u arg = encode i ∧ i.wellFormed = true := by
  unfold decodeOp at h
  split at h
  case h_1 | h_5 | h_8 | h_9 =>
    obtain ⟨rfl, h⟩ := withoutUnit_ok h
    obtain ⟨rfl, rfl⟩ := argZero_ok h
    exact ⟨rfl, rfl⟩
  case h_2 | h_6 | h_10 =>
    obtain ⟨rfl, h⟩ := withoutUnit_ok h
    obtain ⟨w, rfl, rfl⟩ := argHalf_ok h
    exact ⟨rfl, rfl⟩
  case h_3 | h_4 =>
    obtain ⟨rfl, h⟩ := withoutUnit_ok h
    obtain ⟨n, rfl, rfl, hn⟩ := argCount_ok h
    exact ⟨rfl, decide_eq_true hn⟩
  case h_7 | h_16 =>
    obtain ⟨rfl, rfl⟩ := argZero_ok h
    exact ⟨by simp [encode], rfl⟩
  case h_11 | h_14 =>
    obtain ⟨n, rfl, rfl⟩ := argLength_ok h
    exact ⟨by simp [encode], rfl⟩
  case h_12 =>
    obtain ⟨n, rfl, rfl⟩ := argHalf_ok h
    exact ⟨by simp [encode], rfl⟩
  case h_13 =>
    cases h
    exact ⟨by simp [encode], rfl⟩
  case h_15 =>
    obtain ⟨b, rfl, rfl⟩ := argBit_ok h
    exact ⟨by simp [encode], rfl⟩
  case h_17 => cases h

end Sys2Proof.Laws
end

