-- ==== Sys2Proof/Laws/Memory.lean ====
section
/-! SUPPORT. What the memory operations do: every operation keeps the canonical form, a read after a store gives the value
stored, and a store leaves every other address alone. -/

namespace Sys2Proof.Laws

open Sys2Proof.Machine

variable {α : Type}

@[simp] theorem read_nil (a : Nat) : Memory.read ([] : Memory α) a = none := rfl

theorem read_cons (k : Nat) (v : α) (m : Memory α) (a : Nat) :
    Memory.read ((k, v) :: m) a = if k = a then some v else Memory.read m a := rfl

/-- A read of two parts joined: the first part answers where it lists the address. -/
theorem read_append (m₁ m₂ : Memory α) (a : Nat) :
    Memory.read (m₁ ++ m₂) a = (Memory.read m₁ a).or (Memory.read m₂ a) := by
  induction m₁ with
  | nil => simp
  | cons c m ih =>
    obtain ⟨k, v⟩ := c
    by_cases h : k = a <;> simp [read_cons, h, ih]

/-- A read of the entries whose address passes a test. -/
theorem read_filter (p : Nat → Bool) (m : Memory α) (a : Nat) :
    Memory.read (m.filter (fun c => p c.1)) a = if p a then Memory.read m a else none := by
  induction m with
  | nil => simp
  | cons c m ih =>
    obtain ⟨k, v⟩ := c
    by_cases hp : p k <;> by_cases h : k = a
    · subst h; simp [read_cons, hp]
    · simp [read_cons, hp, h, ih]
    · subst h; simp [hp, ih]
    · simp [hp, ih, read_cons, h]

theorem read_cells (base : Nat) (vs : List α) (a : Nat) :
    Memory.read (Memory.cells base vs) a = if base ≤ a then vs[a - base]? else none := by
  induction vs generalizing base with
  | nil => simp [Memory.cells]
  | cons v vs ih =>
    rw [Memory.cells, read_cons, ih]
    by_cases h : base = a
    · subst h; simp
    · by_cases h2 : base + 1 ≤ a
      · have h3 : base ≤ a := by omega
        have h4 : a - base = (a - (base + 1)) + 1 := by omega
        simp [h, h2, h3, h4]
      · have h3 : ¬ base ≤ a := by omega
        simp [h, h2, h3]

/-- What a store leaves at every address. -/
theorem read_store (m : Memory α) (base : Nat) (vs : List α) (a : Nat) :
    (m.store base vs).read a =
      if base ≤ a ∧ a < base + vs.length then vs[a - base]? else m.read a := by
  rw [Memory.store, read_append, read_append, read_filter (fun k => decide (k < base)),
    read_filter (fun k => decide (base + vs.length ≤ k)), read_cells]
  by_cases h1 : a < base
  · have h2 : ¬ base ≤ a := by omega
    have h3 : ¬ base + vs.length ≤ a := by omega
    simp [h1, h2, h3]
  · have h2 : base ≤ a := by omega
    by_cases h3 : a < base + vs.length
    · have h4 : ¬ base + vs.length ≤ a := by omega
      simp [h1, h2, h3, h4]
    · have h4 : base + vs.length ≤ a := by omega
      have h5 : vs[a - base]? = none := by
        rw [List.getElem?_eq_none_iff]; omega
      simp [h1, h2, h3, h4, h5]

/-- A stored value is read back. -/
theorem read_store_inside (m : Memory α) (base : Nat) (vs : List α) (k : Nat) (h : k < vs.length) :
    (m.store base vs).read (base + k) = some vs[k] := by
  have h1 : base ≤ base + k ∧ base + k < base + vs.length := by omega
  have h2 : base + k - base = k := by omega
  rw [read_store, if_pos h1, h2, List.getElem?_eq_getElem h]

/-- A store leaves every address outside its range alone. -/
theorem read_store_outside (m : Memory α) (base : Nat) (vs : List α) (a : Nat)
    (h : ¬ (base ≤ a ∧ a < base + vs.length)) : (m.store base vs).read a = m.read a := by
  rw [read_store, if_neg h]

/-- After a store an address has a value where the store wrote it or it had one. -/
theorem read_store_isSome (m : Memory α) (base : Nat) (vs : List α) (a : Nat) :
    ((m.store base vs).read a).isSome =
      (decide (base ≤ a ∧ a < base + vs.length) || (m.read a).isSome) := by
  rw [read_store]
  by_cases h : base ≤ a ∧ a < base + vs.length
  · have h2 : a - base < vs.length := by omega
    simp [h, List.getElem?_eq_getElem h2]
  · simp [h]

theorem mem_cells {base : Nat} {vs : List α} {c : Nat × α} (h : c ∈ Memory.cells base vs) :
    base ≤ c.1 ∧ c.1 < base + vs.length := by
  induction vs generalizing base with
  | nil => simp [Memory.cells] at h
  | cons v vs ih =>
    rw [Memory.cells, List.mem_cons] at h
    rcases h with rfl | h
    · simp
    · have := ih h
      simp only [List.length_cons]
      omega

theorem wf_cells (base : Nat) (vs : List α) : Memory.wf (Memory.cells base vs) := by
  induction vs generalizing base with
  | nil => simp [Memory.cells]
  | cons v vs ih =>
    rw [Memory.cells, Memory.wf, List.pairwise_cons]
    refine ⟨fun c hc => ?_, ih (base + 1)⟩
    have := mem_cells hc
    simp only
    omega

theorem mem_store {m : Memory α} {base : Nat} {vs : List α} {c : Nat × α} (h : c ∈ m.store base vs) :
    (c ∈ m ∧ (c.1 < base ∨ base + vs.length ≤ c.1)) ∨ (base ≤ c.1 ∧ c.1 < base + vs.length) := by
  simp only [Memory.store, List.mem_append, List.mem_filter, decide_eq_true_eq] at h
  rcases h with (h | h) | h
  · exact .inl ⟨h.1, .inl h.2⟩
  · exact .inr (mem_cells h)
  · exact .inl ⟨h.1, .inr h.2⟩

/-- A store keeps the canonical form. -/
theorem wf_store {m : Memory α} (hm : m.wf) (base : Nat) (vs : List α) : (m.store base vs).wf := by
  rw [Memory.store, Memory.wf, List.pairwise_append, List.pairwise_append]
  refine ⟨⟨hm.filter _, wf_cells base vs, ?_⟩, hm.filter _, ?_⟩
  · intro x hx y hy
    have h1 := (List.mem_filter.mp hx).2
    have h2 := mem_cells hy
    simp only [decide_eq_true_eq] at h1
    omega
  · intro x hx y hy
    have h2 := (List.mem_filter.mp hy).2
    simp only [decide_eq_true_eq] at h2
    rcases List.mem_append.mp hx with h | h
    · have h1 := (List.mem_filter.mp h).2
      simp only [decide_eq_true_eq] at h1
      omega
    · have h1 := mem_cells h
      omega

/-- A store inside a space lists no address outside it. -/
theorem within_store {m : Memory α} {size : Nat} (hm : m.within size) {base : Nat} {vs : List α}
    (h : base + vs.length ≤ size) : (m.store base vs).within size := by
  intro c hc
  rcases mem_store hc with ⟨h1, _⟩ | h1
  · exact hm c h1
  · omega

@[simp] theorem length_load (m : Memory α) (f : Nat → α) (base n : Nat) : (m.load f base n).length = n := by
  simp [Memory.load]

/-- The k-th element loaded. -/
theorem getElem_load (m : Memory α) (f : Nat → α) (base n k : Nat) (h : k < (m.load f base n).length) :
    (m.load f base n)[k] = (m.read (base + k)).getD (f (base + k)) := by
  simp [Memory.load]

theorem getElem?_load (m : Memory α) (f : Nat → α) (base n k : Nat) :
    (m.load f base n)[k]? = if k < n then some ((m.read (base + k)).getD (f (base + k))) else none := by
  by_cases h : k < n
  · simp [Memory.load, h]
  · simp [Memory.load, h]

/-- A load of `n` elements depends on those elements only. -/
theorem load_congr (m₁ m₂ : Memory α) (f₁ f₂ : Nat → α) (base n : Nat)
    (h : ∀ k < n, (m₁.read (base + k)).getD (f₁ (base + k)) = (m₂.read (base + k)).getD (f₂ (base + k))) :
    m₁.load f₁ base n = m₂.load f₂ base n := by
  simp only [Memory.load]
  exact List.map_congr_left (fun k hk => h k (List.mem_range.mp hk))

/-- Every entry of a canonical memory is what a read of its address gives. -/
theorem read_of_mem {m : Memory α} (hm : m.wf) {c : Nat × α} (h : c ∈ m) : m.read c.1 = some c.2 := by
  induction m with
  | nil => simp at h
  | cons d m ih =>
    obtain ⟨k, v⟩ := d
    rw [Memory.wf, List.pairwise_cons] at hm
    rw [read_cons]
    rcases List.mem_cons.mp h with rfl | h
    · simp
    · have h1 := hm.1 c h
      have h2 : k ≠ c.1 := by simp only at h1; omega
      rw [if_neg h2]
      exact ih hm.2 h

/-- A read that answers found an entry. -/
theorem mem_of_read {m : Memory α} {a : Nat} {v : α} (h : m.read a = some v) : (a, v) ∈ m := by
  induction m with
  | nil => simp at h
  | cons d m ih =>
    obtain ⟨k, w⟩ := d
    rw [read_cons] at h
    by_cases hk : k = a
    · simp only [hk, if_true, Option.some.injEq] at h
      simp [hk, h]
    · rw [if_neg hk] at h
      exact List.mem_cons_of_mem _ (ih h)

/-- Two canonical memories that read alike everywhere are equal data. -/
theorem eq_of_read_eq {m₁ m₂ : Memory α} (h₁ : m₁.wf) (h₂ : m₂.wf) (h : ∀ a, m₁.read a = m₂.read a) : m₁ = m₂ := by
  have strict : ∀ {m : Memory α}, m.wf → m.Pairwise (fun x y => x.1 < y.1) := fun h => h
  have sub : ∀ {x y : Memory α}, x.wf → (∀ a, x.read a = y.read a) → ∀ c ∈ x, c ∈ y := by
    intro x y hx hxy c hc
    have := read_of_mem hx hc
    rw [hxy] at this
    exact mem_of_read this
  have nodup : ∀ {m : Memory α}, m.wf → m.Nodup := fun h =>
    List.Pairwise.imp (fun {a b} hab he => by rw [he] at hab; exact Nat.lt_irrefl _ hab) (strict h)
  have hp : m₁.Perm m₂ :=
    (List.perm_ext_iff_of_nodup (nodup h₁) (nodup h₂)).mpr
      (fun c => ⟨sub h₁ h c, sub h₂ (fun a => (h a).symm) c⟩)
  exact hp.eq_of_pairwise (fun a b _ _ hab hba => absurd hab (by omega)) h₁ h₂

end Sys2Proof.Laws
end

