-- ==== Sys2Proof/Laws/State.lean ====
section
/-! SUPPORT. The state's small lemmas: per shared update one lemma whose parts say, field by field, what the update leaves in
every field. Each part is true by rfl and a simp lemma, so no later proof unfolds a record update. -/

namespace Sys2Proof.Laws

open Sys2Proof.Machine

/-- `BOUT[0 .. n) <- bytes` writes `BOUT` only. -/
@[simp] theorem writeBout_fields (s : State) (bytes : List Byte) :
    (s.writeBout bytes).par = s.par ∧
    (s.writeBout bytes).inputs = s.inputs ∧
    (s.writeBout bytes).tx = s.tx ∧
    (s.writeBout bytes).rx = s.rx ∧
    (s.writeBout bytes).hostRate = s.hostRate ∧
    (s.writeBout bytes).wpos = s.wpos ∧
    (s.writeBout bytes).abuf = s.abuf ∧
    (s.writeBout bytes).nuFrame = s.nuFrame ∧
    (s.writeBout bytes).rxReason = s.rxReason ∧
    (s.writeBout bytes).rxValid = s.rxValid ∧
    (s.writeBout bytes).rxNch = s.rxNch ∧
    (s.writeBout bytes).rxNs = s.rxNs ∧
    (s.writeBout bytes).rxSrIdx = s.rxSrIdx ∧
    (s.writeBout bytes).rxNuFrame = s.rxNuFrame ∧
    (s.writeBout bytes).chbuf = s.chbuf ∧
    (s.writeBout bytes).qRes = s.qRes ∧
    (s.writeBout bytes).hdrOk = s.hdrOk ∧
    (s.writeBout bytes).hd = s.hd ∧
    (s.writeBout bytes).status = s.status ∧
    (s.writeBout bytes).fin = s.fin ∧
    (s.writeBout bytes).fout = s.fout ∧
    (s.writeBout bytes).bin = s.bin ∧
    (s.writeBout bytes).bout = s.bout.store 0 bytes ∧
    (s.writeBout bytes).cin = s.cin ∧
    (s.writeBout bytes).linkOut = s.linkOut ∧
    (s.writeBout bytes).epoch = s.epoch ∧
    (s.writeBout bytes).rateSamples = s.rateSamples := by
  refine ⟨rfl, rfl, rfl, rfl, rfl, rfl, rfl, rfl, rfl, rfl, rfl, rfl, rfl, rfl, rfl, rfl, rfl, rfl, rfl, rfl, rfl, rfl, rfl, rfl, rfl, rfl, rfl⟩

/-- `FOUT[0 .. n-1] <- xs` writes `FOUT` only. -/
@[simp] theorem writeFout_fields (s : State) (xs : List Sample) :
    (s.writeFout xs).par = s.par ∧
    (s.writeFout xs).inputs = s.inputs ∧
    (s.writeFout xs).tx = s.tx ∧
    (s.writeFout xs).rx = s.rx ∧
    (s.writeFout xs).hostRate = s.hostRate ∧
    (s.writeFout xs).wpos = s.wpos ∧
    (s.writeFout xs).abuf = s.abuf ∧
    (s.writeFout xs).nuFrame = s.nuFrame ∧
    (s.writeFout xs).rxReason = s.rxReason ∧
    (s.writeFout xs).rxValid = s.rxValid ∧
    (s.writeFout xs).rxNch = s.rxNch ∧
    (s.writeFout xs).rxNs = s.rxNs ∧
    (s.writeFout xs).rxSrIdx = s.rxSrIdx ∧
    (s.writeFout xs).rxNuFrame = s.rxNuFrame ∧
    (s.writeFout xs).chbuf = s.chbuf ∧
    (s.writeFout xs).qRes = s.qRes ∧
    (s.writeFout xs).hdrOk = s.hdrOk ∧
    (s.writeFout xs).hd = s.hd ∧
    (s.writeFout xs).status = s.status ∧
    (s.writeFout xs).fin = s.fin ∧
    (s.writeFout xs).fout = s.fout.store 0 xs ∧
    (s.writeFout xs).bin = s.bin ∧
    (s.writeFout xs).bout = s.bout ∧
    (s.writeFout xs).cin = s.cin ∧
    (s.writeFout xs).linkOut = s.linkOut ∧
    (s.writeFout xs).epoch = s.epoch ∧
    (s.writeFout xs).rateSamples = s.rateSamples := by
  refine ⟨rfl, rfl, rfl, rfl, rfl, rfl, rfl, rfl, rfl, rfl, rfl, rfl, rfl, rfl, rfl, rfl, rfl, rfl, rfl, rfl, rfl, rfl, rfl, rfl, rfl, rfl, rfl⟩

/-- Raising sticky bits writes `STATUS` only. -/
@[simp] theorem raise_fields (s : State) (m : BitVec 6) :
    (s.raise m).par = s.par ∧
    (s.raise m).inputs = s.inputs ∧
    (s.raise m).tx = s.tx ∧
    (s.raise m).rx = s.rx ∧
    (s.raise m).hostRate = s.hostRate ∧
    (s.raise m).wpos = s.wpos ∧
    (s.raise m).abuf = s.abuf ∧
    (s.raise m).nuFrame = s.nuFrame ∧
    (s.raise m).rxReason = s.rxReason ∧
    (s.raise m).rxValid = s.rxValid ∧
    (s.raise m).rxNch = s.rxNch ∧
    (s.raise m).rxNs = s.rxNs ∧
    (s.raise m).rxSrIdx = s.rxSrIdx ∧
    (s.raise m).rxNuFrame = s.rxNuFrame ∧
    (s.raise m).chbuf = s.chbuf ∧
    (s.raise m).qRes = s.qRes ∧
    (s.raise m).hdrOk = s.hdrOk ∧
    (s.raise m).hd = s.hd ∧
    (s.raise m).status = s.status ||| m ∧
    (s.raise m).fin = s.fin ∧
    (s.raise m).fout = s.fout ∧
    (s.raise m).bin = s.bin ∧
    (s.raise m).bout = s.bout ∧
    (s.raise m).cin = s.cin ∧
    (s.raise m).linkOut = s.linkOut ∧
    (s.raise m).epoch = s.epoch ∧
    (s.raise m).rateSamples = s.rateSamples := by
  refine ⟨rfl, rfl, rfl, rfl, rfl, rfl, rfl, rfl, rfl, rfl, rfl, rfl, rfl, rfl, rfl, rfl, rfl, rfl, rfl, rfl, rfl, rfl, rfl, rfl, rfl, rfl, rfl⟩

/-- `flag F` writes `STATUS` only. -/
@[simp] theorem flag_fields (s : State) (b : StatusBit) :
    (s.flag b).par = s.par ∧
    (s.flag b).inputs = s.inputs ∧
    (s.flag b).tx = s.tx ∧
    (s.flag b).rx = s.rx ∧
    (s.flag b).hostRate = s.hostRate ∧
    (s.flag b).wpos = s.wpos ∧
    (s.flag b).abuf = s.abuf ∧
    (s.flag b).nuFrame = s.nuFrame ∧
    (s.flag b).rxReason = s.rxReason ∧
    (s.flag b).rxValid = s.rxValid ∧
    (s.flag b).rxNch = s.rxNch ∧
    (s.flag b).rxNs = s.rxNs ∧
    (s.flag b).rxSrIdx = s.rxSrIdx ∧
    (s.flag b).rxNuFrame = s.rxNuFrame ∧
    (s.flag b).chbuf = s.chbuf ∧
    (s.flag b).qRes = s.qRes ∧
    (s.flag b).hdrOk = s.hdrOk ∧
    (s.flag b).hd = s.hd ∧
    (s.flag b).status = s.status ||| statusMask b ∧
    (s.flag b).fin = s.fin ∧
    (s.flag b).fout = s.fout ∧
    (s.flag b).bin = s.bin ∧
    (s.flag b).bout = s.bout ∧
    (s.flag b).cin = s.cin ∧
    (s.flag b).linkOut = s.linkOut ∧
    (s.flag b).epoch = s.epoch ∧
    (s.flag b).rateSamples = s.rateSamples := by
  refine ⟨rfl, rfl, rfl, rfl, rfl, rfl, rfl, rfl, rfl, rfl, rfl, rfl, rfl, rfl, rfl, rfl, rfl, rfl, rfl, rfl, rfl, rfl, rfl, rfl, rfl, rfl, rfl⟩

/-- An illegal command writes `STATUS` only. -/
@[simp] theorem illegalCommand_fields (s : State) :
    s.illegalCommand.par = s.par ∧
    s.illegalCommand.inputs = s.inputs ∧
    s.illegalCommand.tx = s.tx ∧
    s.illegalCommand.rx = s.rx ∧
    s.illegalCommand.hostRate = s.hostRate ∧
    s.illegalCommand.wpos = s.wpos ∧
    s.illegalCommand.abuf = s.abuf ∧
    s.illegalCommand.nuFrame = s.nuFrame ∧
    s.illegalCommand.rxReason = s.rxReason ∧
    s.illegalCommand.rxValid = s.rxValid ∧
    s.illegalCommand.rxNch = s.rxNch ∧
    s.illegalCommand.rxNs = s.rxNs ∧
    s.illegalCommand.rxSrIdx = s.rxSrIdx ∧
    s.illegalCommand.rxNuFrame = s.rxNuFrame ∧
    s.illegalCommand.chbuf = s.chbuf ∧
    s.illegalCommand.qRes = s.qRes ∧
    s.illegalCommand.hdrOk = s.hdrOk ∧
    s.illegalCommand.hd = s.hd ∧
    s.illegalCommand.status = s.status ||| statusMask .illcmd ∧
    s.illegalCommand.fin = s.fin ∧
    s.illegalCommand.fout = s.fout ∧
    s.illegalCommand.bin = s.bin ∧
    s.illegalCommand.bout = s.bout ∧
    s.illegalCommand.cin = s.cin ∧
    s.illegalCommand.linkOut = s.linkOut ∧
    s.illegalCommand.epoch = s.epoch ∧
    s.illegalCommand.rateSamples = s.rateSamples := by
  refine ⟨rfl, rfl, rfl, rfl, rfl, rfl, rfl, rfl, rfl, rfl, rfl, rfl, rfl, rfl, rfl, rfl, rfl, rfl, rfl, rfl, rfl, rfl, rfl, rfl, rfl, rfl, rfl⟩

/-- `emit` appends to `LINK_OUT` only. -/
@[simp] theorem emit_fields (s : State) (e : LinkEvent) :
    (s.emit e).par = s.par ∧
    (s.emit e).inputs = s.inputs ∧
    (s.emit e).tx = s.tx ∧
    (s.emit e).rx = s.rx ∧
    (s.emit e).hostRate = s.hostRate ∧
    (s.emit e).wpos = s.wpos ∧
    (s.emit e).abuf = s.abuf ∧
    (s.emit e).nuFrame = s.nuFrame ∧
    (s.emit e).rxReason = s.rxReason ∧
    (s.emit e).rxValid = s.rxValid ∧
    (s.emit e).rxNch = s.rxNch ∧
    (s.emit e).rxNs = s.rxNs ∧
    (s.emit e).rxSrIdx = s.rxSrIdx ∧
    (s.emit e).rxNuFrame = s.rxNuFrame ∧
    (s.emit e).chbuf = s.chbuf ∧
    (s.emit e).qRes = s.qRes ∧
    (s.emit e).hdrOk = s.hdrOk ∧
    (s.emit e).hd = s.hd ∧
    (s.emit e).status = s.status ∧
    (s.emit e).fin = s.fin ∧
    (s.emit e).fout = s.fout ∧
    (s.emit e).bin = s.bin ∧
    (s.emit e).bout = s.bout ∧
    (s.emit e).cin = s.cin ∧
    (s.emit e).linkOut = s.linkOut ++ [e] ∧
    (s.emit e).epoch = s.epoch ∧
    (s.emit e).rateSamples = s.rateSamples := by
  refine ⟨rfl, rfl, rfl, rfl, rfl, rfl, rfl, rfl, rfl, rfl, rfl, rfl, rfl, rfl, rfl, rfl, rfl, rfl, rfl, rfl, rfl, rfl, rfl, rfl, rfl, rfl, rfl⟩

/-- Counting a sampling touches the model's own counter only. -/
@[simp] theorem countSample_fields (s : State) :
    s.countSample.par = s.par ∧
    s.countSample.inputs = s.inputs ∧
    s.countSample.tx = s.tx ∧
    s.countSample.rx = s.rx ∧
    s.countSample.hostRate = s.hostRate ∧
    s.countSample.wpos = s.wpos ∧
    s.countSample.abuf = s.abuf ∧
    s.countSample.nuFrame = s.nuFrame ∧
    s.countSample.rxReason = s.rxReason ∧
    s.countSample.rxValid = s.rxValid ∧
    s.countSample.rxNch = s.rxNch ∧
    s.countSample.rxNs = s.rxNs ∧
    s.countSample.rxSrIdx = s.rxSrIdx ∧
    s.countSample.rxNuFrame = s.rxNuFrame ∧
    s.countSample.chbuf = s.chbuf ∧
    s.countSample.qRes = s.qRes ∧
    s.countSample.hdrOk = s.hdrOk ∧
    s.countSample.hd = s.hd ∧
    s.countSample.status = s.status ∧
    s.countSample.fin = s.fin ∧
    s.countSample.fout = s.fout ∧
    s.countSample.bin = s.bin ∧
    s.countSample.bout = s.bout ∧
    s.countSample.cin = s.cin ∧
    s.countSample.linkOut = s.linkOut ∧
    s.countSample.epoch = s.epoch ∧
    s.countSample.rateSamples = if s.hostRate.isNone then s.rateSamples + 1 else s.rateSamples := by
  refine ⟨rfl, rfl, rfl, rfl, rfl, rfl, rfl, rfl, rfl, rfl, rfl, rfl, rfl, rfl, rfl, rfl, rfl, rfl, rfl, rfl, rfl, rfl, rfl, rfl, rfl, rfl, rfl⟩

/-- A write of one unit's registers leaves everything outside the units alone. -/
@[simp] theorem setSess_fields (s : State) (u : SessionUnit) (x : Session) :
    (s.setSess u x).par = s.par ∧
    (s.setSess u x).inputs = s.inputs ∧
    (s.setSess u x).hostRate = s.hostRate ∧
    (s.setSess u x).wpos = s.wpos ∧
    (s.setSess u x).abuf = s.abuf ∧
    (s.setSess u x).nuFrame = s.nuFrame ∧
    (s.setSess u x).rxReason = s.rxReason ∧
    (s.setSess u x).rxValid = s.rxValid ∧
    (s.setSess u x).rxNch = s.rxNch ∧
    (s.setSess u x).rxNs = s.rxNs ∧
    (s.setSess u x).rxSrIdx = s.rxSrIdx ∧
    (s.setSess u x).rxNuFrame = s.rxNuFrame ∧
    (s.setSess u x).chbuf = s.chbuf ∧
    (s.setSess u x).qRes = s.qRes ∧
    (s.setSess u x).hdrOk = s.hdrOk ∧
    (s.setSess u x).hd = s.hd ∧
    (s.setSess u x).status = s.status ∧
    (s.setSess u x).fin = s.fin ∧
    (s.setSess u x).fout = s.fout ∧
    (s.setSess u x).bin = s.bin ∧
    (s.setSess u x).bout = s.bout ∧
    (s.setSess u x).cin = s.cin ∧
    (s.setSess u x).linkOut = s.linkOut ∧
    (s.setSess u x).epoch = s.epoch ∧
    (s.setSess u x).rateSamples = s.rateSamples := by
  cases u <;> refine ⟨rfl, rfl, rfl, rfl, rfl, rfl, rfl, rfl, rfl, rfl, rfl, rfl, rfl, rfl, rfl, rfl, rfl, rfl, rfl, rfl, rfl, rfl, rfl, rfl, rfl⟩

/-- A start or stop resets the cursor or the result's validity only. -/
@[simp] theorem resetDatapath_fields (s : State) (u : SessionUnit) :
    (s.resetDatapath u).par = s.par ∧
    (s.resetDatapath u).inputs = s.inputs ∧
    (s.resetDatapath u).tx = s.tx ∧
    (s.resetDatapath u).rx = s.rx ∧
    (s.resetDatapath u).hostRate = s.hostRate ∧
    (s.resetDatapath u).abuf = s.abuf ∧
    (s.resetDatapath u).nuFrame = s.nuFrame ∧
    (s.resetDatapath u).rxReason = s.rxReason ∧
    (s.resetDatapath u).rxNch = s.rxNch ∧
    (s.resetDatapath u).rxNs = s.rxNs ∧
    (s.resetDatapath u).rxSrIdx = s.rxSrIdx ∧
    (s.resetDatapath u).rxNuFrame = s.rxNuFrame ∧
    (s.resetDatapath u).chbuf = s.chbuf ∧
    (s.resetDatapath u).qRes = s.qRes ∧
    (s.resetDatapath u).hdrOk = s.hdrOk ∧
    (s.resetDatapath u).hd = s.hd ∧
    (s.resetDatapath u).status = s.status ∧
    (s.resetDatapath u).fin = s.fin ∧
    (s.resetDatapath u).fout = s.fout ∧
    (s.resetDatapath u).bin = s.bin ∧
    (s.resetDatapath u).bout = s.bout ∧
    (s.resetDatapath u).cin = s.cin ∧
    (s.resetDatapath u).linkOut = s.linkOut ∧
    (s.resetDatapath u).epoch = s.epoch ∧
    (s.resetDatapath u).rateSamples = s.rateSamples := by
  cases u <;> refine ⟨rfl, rfl, rfl, rfl, rfl, rfl, rfl, rfl, rfl, rfl, rfl, rfl, rfl, rfl, rfl, rfl, rfl, rfl, rfl, rfl, rfl, rfl, rfl, rfl, rfl⟩

/-- A rejection writes the reason and clears the validity only (60_exceptions R315). -/
@[simp] theorem rejectDatagram_fields (s : State) (r : RejectReason) :
    (s.rejectDatagram r).par = s.par ∧
    (s.rejectDatagram r).inputs = s.inputs ∧
    (s.rejectDatagram r).tx = s.tx ∧
    (s.rejectDatagram r).rx = s.rx ∧
    (s.rejectDatagram r).hostRate = s.hostRate ∧
    (s.rejectDatagram r).wpos = s.wpos ∧
    (s.rejectDatagram r).abuf = s.abuf ∧
    (s.rejectDatagram r).nuFrame = s.nuFrame ∧
    (s.rejectDatagram r).rxReason = reasonCode r ∧
    (s.rejectDatagram r).rxValid = false ∧
    (s.rejectDatagram r).rxNch = s.rxNch ∧
    (s.rejectDatagram r).rxNs = s.rxNs ∧
    (s.rejectDatagram r).rxSrIdx = s.rxSrIdx ∧
    (s.rejectDatagram r).rxNuFrame = s.rxNuFrame ∧
    (s.rejectDatagram r).chbuf = s.chbuf ∧
    (s.rejectDatagram r).qRes = s.qRes ∧
    (s.rejectDatagram r).hdrOk = s.hdrOk ∧
    (s.rejectDatagram r).hd = s.hd ∧
    (s.rejectDatagram r).status = s.status ∧
    (s.rejectDatagram r).fin = s.fin ∧
    (s.rejectDatagram r).fout = s.fout ∧
    (s.rejectDatagram r).bin = s.bin ∧
    (s.rejectDatagram r).bout = s.bout ∧
    (s.rejectDatagram r).cin = s.cin ∧
    (s.rejectDatagram r).linkOut = s.linkOut ∧
    (s.rejectDatagram r).epoch = s.epoch ∧
    (s.rejectDatagram r).rateSamples = s.rateSamples := by
  refine ⟨rfl, rfl, rfl, rfl, rfl, rfl, rfl, rfl, rfl, rfl, rfl, rfl, rfl, rfl, rfl, rfl, rfl, rfl, rfl, rfl, rfl, rfl, rfl, rfl, rfl, rfl, rfl⟩

/-- An acceptance writes the result registers and `CHBUF` only. -/
@[simp] theorem acceptDatagram_fields (s : State) (a : Accepted) :
    (s.acceptDatagram a).par = s.par ∧
    (s.acceptDatagram a).inputs = s.inputs ∧
    (s.acceptDatagram a).tx = s.tx ∧
    (s.acceptDatagram a).rx = s.rx ∧
    (s.acceptDatagram a).hostRate = s.hostRate ∧
    (s.acceptDatagram a).wpos = s.wpos ∧
    (s.acceptDatagram a).abuf = s.abuf ∧
    (s.acceptDatagram a).nuFrame = s.nuFrame ∧
    (s.acceptDatagram a).rxReason = 0#4 ∧
    (s.acceptDatagram a).rxValid = true ∧
    (s.acceptDatagram a).rxNch = BitVec.ofNat 9 a.channels ∧
    (s.acceptDatagram a).rxNs = BitVec.ofNat 9 a.samples ∧
    (s.acceptDatagram a).rxSrIdx = a.srIndex ∧
    (s.acceptDatagram a).rxNuFrame = a.nuFrame ∧
    (s.acceptDatagram a).chbuf = a.buffers ∧
    (s.acceptDatagram a).qRes = s.qRes ∧
    (s.acceptDatagram a).hdrOk = s.hdrOk ∧
    (s.acceptDatagram a).hd = s.hd ∧
    (s.acceptDatagram a).status = s.status ∧
    (s.acceptDatagram a).fin = s.fin ∧
    (s.acceptDatagram a).fout = s.fout ∧
    (s.acceptDatagram a).bin = s.bin ∧
    (s.acceptDatagram a).bout = s.bout ∧
    (s.acceptDatagram a).cin = s.cin ∧
    (s.acceptDatagram a).linkOut = s.linkOut ∧
    (s.acceptDatagram a).epoch = s.epoch ∧
    (s.acceptDatagram a).rateSamples = s.rateSamples := by
  refine ⟨rfl, rfl, rfl, rfl, rfl, rfl, rfl, rfl, rfl, rfl, rfl, rfl, rfl, rfl, rfl, rfl, rfl, rfl, rfl, rfl, rfl, rfl, rfl, rfl, rfl, rfl, rfl⟩

/-- A delivery writes `BIN` only. -/
@[simp] theorem deliverDatagram_fields (s : State) (d : List Byte) :
    (s.deliverDatagram d).par = s.par ∧
    (s.deliverDatagram d).inputs = s.inputs ∧
    (s.deliverDatagram d).tx = s.tx ∧
    (s.deliverDatagram d).rx = s.rx ∧
    (s.deliverDatagram d).hostRate = s.hostRate ∧
    (s.deliverDatagram d).wpos = s.wpos ∧
    (s.deliverDatagram d).abuf = s.abuf ∧
    (s.deliverDatagram d).nuFrame = s.nuFrame ∧
    (s.deliverDatagram d).rxReason = s.rxReason ∧
    (s.deliverDatagram d).rxValid = s.rxValid ∧
    (s.deliverDatagram d).rxNch = s.rxNch ∧
    (s.deliverDatagram d).rxNs = s.rxNs ∧
    (s.deliverDatagram d).rxSrIdx = s.rxSrIdx ∧
    (s.deliverDatagram d).rxNuFrame = s.rxNuFrame ∧
    (s.deliverDatagram d).chbuf = s.chbuf ∧
    (s.deliverDatagram d).qRes = s.qRes ∧
    (s.deliverDatagram d).hdrOk = s.hdrOk ∧
    (s.deliverDatagram d).hd = s.hd ∧
    (s.deliverDatagram d).status = s.status ∧
    (s.deliverDatagram d).fin = s.fin ∧
    (s.deliverDatagram d).fout = s.fout ∧
    (s.deliverDatagram d).bout = s.bout ∧
    (s.deliverDatagram d).cin = s.cin ∧
    (s.deliverDatagram d).linkOut = s.linkOut ∧
    (s.deliverDatagram d).epoch = s.epoch ∧
    (s.deliverDatagram d).rateSamples = s.rateSamples := by
  unfold State.deliverDatagram; split <;> refine ⟨rfl, rfl, rfl, rfl, rfl, rfl, rfl, rfl, rfl, rfl, rfl, rfl, rfl, rfl, rfl, rfl, rfl, rfl, rfl, rfl, rfl, rfl, rfl, rfl, rfl, rfl⟩

/-- A push that fits writes `ABUF`, the cursor and the quantizer's flags only. -/
@[simp] theorem appendFrame_fields (s : State) :
    s.appendFrame.par = s.par ∧
    s.appendFrame.inputs = s.inputs ∧
    s.appendFrame.tx = s.tx ∧
    s.appendFrame.rx = s.rx ∧
    s.appendFrame.hostRate = s.hostRate ∧
    s.appendFrame.wpos = s.wpos + 2 * s.txChannels ∧
    s.appendFrame.abuf = s.abuf.store s.wpos (frameEncode s.par.qovfPolicy (s.finFrame s.txChannels)).1 ∧
    s.appendFrame.nuFrame = s.nuFrame ∧
    s.appendFrame.rxReason = s.rxReason ∧
    s.appendFrame.rxValid = s.rxValid ∧
    s.appendFrame.rxNch = s.rxNch ∧
    s.appendFrame.rxNs = s.rxNs ∧
    s.appendFrame.rxSrIdx = s.rxSrIdx ∧
    s.appendFrame.rxNuFrame = s.rxNuFrame ∧
    s.appendFrame.chbuf = s.chbuf ∧
    s.appendFrame.qRes = s.qRes ∧
    s.appendFrame.hdrOk = s.hdrOk ∧
    s.appendFrame.hd = s.hd ∧
    s.appendFrame.status = s.status ||| frameMask (frameEncode s.par.qovfPolicy (s.finFrame s.txChannels)).2 ∧
    s.appendFrame.fin = s.fin ∧
    s.appendFrame.fout = s.fout ∧
    s.appendFrame.bin = s.bin ∧
    s.appendFrame.bout = s.bout ∧
    s.appendFrame.cin = s.cin ∧
    s.appendFrame.linkOut = s.linkOut ∧
    s.appendFrame.epoch = s.epoch ∧
    s.appendFrame.rateSamples = s.rateSamples := by
  refine ⟨rfl, rfl, rfl, rfl, rfl, rfl, rfl, rfl, rfl, rfl, rfl, rfl, rfl, rfl, rfl, rfl, rfl, rfl, rfl, rfl, rfl, rfl, rfl, rfl, rfl, rfl, rfl⟩

/-- One turn of `TX.END` writes `ABUF`, the cursor, the counter and `LINK_OUT` only. -/
@[simp] theorem emitDatagram_fields (s : State) (cap : Nat) :
    (s.emitDatagram cap).par = s.par ∧
    (s.emitDatagram cap).inputs = s.inputs ∧
    (s.emitDatagram cap).tx = s.tx ∧
    (s.emitDatagram cap).rx = s.rx ∧
    (s.emitDatagram cap).hostRate = s.hostRate ∧
    (s.emitDatagram cap).wpos = 28 + (s.wpos - (28 + cap)) ∧
    (s.emitDatagram cap).abuf = s.stampedAbuf.store 28 (s.abufBytes s.stampedAbuf (28 + cap) (s.wpos - (28 + cap))) ∧
    (s.emitDatagram cap).nuFrame = s.nuFrame + 1#32 ∧
    (s.emitDatagram cap).rxReason = s.rxReason ∧
    (s.emitDatagram cap).rxValid = s.rxValid ∧
    (s.emitDatagram cap).rxNch = s.rxNch ∧
    (s.emitDatagram cap).rxNs = s.rxNs ∧
    (s.emitDatagram cap).rxSrIdx = s.rxSrIdx ∧
    (s.emitDatagram cap).rxNuFrame = s.rxNuFrame ∧
    (s.emitDatagram cap).chbuf = s.chbuf ∧
    (s.emitDatagram cap).qRes = s.qRes ∧
    (s.emitDatagram cap).hdrOk = s.hdrOk ∧
    (s.emitDatagram cap).hd = s.hd ∧
    (s.emitDatagram cap).status = s.status ∧
    (s.emitDatagram cap).fin = s.fin ∧
    (s.emitDatagram cap).fout = s.fout ∧
    (s.emitDatagram cap).bin = s.bin ∧
    (s.emitDatagram cap).bout = s.bout ∧
    (s.emitDatagram cap).cin = s.cin ∧
    (s.emitDatagram cap).linkOut = s.linkOut ++ [.send (s.abufBytes s.stampedAbuf 0 (28 + cap))] ∧
    (s.emitDatagram cap).epoch = s.epoch ∧
    (s.emitDatagram cap).rateSamples = s.rateSamples := by
  refine ⟨rfl, rfl, rfl, rfl, rfl, rfl, rfl, rfl, rfl, rfl, rfl, rfl, rfl, rfl, rfl, rfl, rfl, rfl, rfl, rfl, rfl, rfl, rfl, rfl, rfl, rfl, rfl⟩

/-- A unit's registers after a write of that unit. -/
@[simp] theorem sess_setSess_self (s : State) (u : SessionUnit) (x : Session) : (s.setSess u x).sess u = x := by
  cases u <;> rfl

/-- A write of one unit leaves the other alone. -/
theorem sess_setSess_of_ne (s : State) {u v : SessionUnit} (h : v ≠ u) (x : Session) :
    (s.setSess u x).sess v = s.sess v := by
  cases u <;> cases v <;> first | rfl | exact absurd rfl h

/-- Writes of the two units' registers commute. -/
theorem setSess_comm (s : State) {u v : SessionUnit} (h : v ≠ u) (x y : Session) :
    (s.setSess u x).setSess v y = (s.setSess v y).setSess u x := by
  cases u <;> cases v <;> first | exact absurd rfl h | rfl

theorem sess_setSess (s : State) (u v : SessionUnit) (x : Session) :
    (s.setSess u x).sess v = if v = u then x else s.sess v := by
  cases u <;> cases v <;> rfl

@[simp] theorem setSess_tx_tx (s : State) (x : Session) : (s.setSess .tx x).tx = x := rfl
@[simp] theorem setSess_tx_rx (s : State) (x : Session) : (s.setSess .tx x).rx = s.rx := rfl
@[simp] theorem setSess_rx_tx (s : State) (x : Session) : (s.setSess .rx x).tx = s.tx := rfl
@[simp] theorem setSess_rx_rx (s : State) (x : Session) : (s.setSess .rx x).rx = x := rfl
theorem sess_tx (s : State) : s.sess .tx = s.tx := rfl
theorem sess_rx (s : State) : s.sess .rx = s.rx := rfl

@[simp] theorem resetDatapath_wpos (s : State) (u : SessionUnit) :
    (s.resetDatapath u).wpos = if u = .tx then 28 else s.wpos := by
  cases u <;> rfl

@[simp] theorem resetDatapath_rxValid (s : State) (u : SessionUnit) :
    (s.resetDatapath u).rxValid = if u = .rx then false else s.rxValid := by
  cases u <;> rfl

/-- Both units' registers are what `sess` gives where both components agree. -/
theorem sess_congr {s t : State} (h1 : t.tx = s.tx) (h2 : t.rx = s.rx) (u : SessionUnit) : t.sess u = s.sess u := by
  cases u <;> assumption

end Sys2Proof.Laws
end

