-- ==== Sys2Proof/Laws/SampleCodec.lean ====
section
/-! SUPPORT. The quantizer's whole-number arithmetic against the exact rationals of 00_scope R11, and the layout of frames. -/

namespace Sys2Proof.Laws

open Sys2Proof.Machine

/-! ## binary32 -/

theorem expField_lt (x : Sample) : expField x < 256 := (x.extractLsb' 23 8).isLt

theorem fracField_lt (x : Sample) : fracField x < 2 ^ 23 := (x.extractLsb' 0 23).isLt

theorem isFinite_iff (x : Sample) : isFinite x = true ↔ x.extractLsb' 23 8 ≠ 0xFF#8 := by
  simp only [isFinite, expField, bne_iff_ne, ne_eq, not_iff_not]
  constructor
  · exact fun h => BitVec.eq_of_toNat_eq h
  · exact fun h => by rw [h]; rfl

/-- The sign of a pattern's value, as a factor. -/
def signFactor (x : Sample) : ℚ := if signBit x then -1 else 1

/-- The magnitude `|real(x)| × 32768` of a finite pattern. -/
def scaledAbs (x : Sample) : ℚ :=
  if expField x = 0 then (fracField x : ℚ) / 2 ^ 134
  else ((2 ^ 23 + fracField x : ℕ) : ℚ) * (2 : ℚ) ^ ((expField x : ℤ) - 135)

theorem scaled_eq (x : Sample) : realValue x * 32768 = signFactor x * scaledAbs x := by
  have h15 : (32768 : ℚ) = (2 : ℚ) ^ (15 : ℤ) := by norm_num
  unfold realValue scaledAbs signFactor
  dsimp only
  by_cases h : expField x = 0
  · rw [if_pos h, if_pos h]
    have e : (2 : ℚ) ^ (-149 : ℤ) * 32768 = 1 / 2 ^ 134 := by
      rw [h15, ← zpow_add₀ (by norm_num)]
      norm_num
    rw [mul_assoc, e, mul_assoc]
    ring
  · rw [if_neg h, if_neg h]
    have e : (2 : ℚ) ^ ((expField x : ℤ) - 150) * 32768 = (2 : ℚ) ^ ((expField x : ℤ) - 135) := by
      rw [h15, ← zpow_add₀ (by norm_num)]
      congr 1
      ring
    rw [mul_assoc, e, mul_assoc]
    push_cast
    ring

theorem scaledAbs_nonneg (x : Sample) : 0 ≤ scaledAbs x := by
  unfold scaledAbs
  split <;> positivity

theorem floor_natCast_div (a b : ℕ) : ⌊(a : ℚ) / (b : ℚ)⌋ = ((a / b : ℕ) : ℤ) := by
  have := Rat.floor_intCast_div_natCast (a : ℤ) b
  push_cast at this ⊢
  exact this

/-- The whole-number magnitude is the floor of the exact one. -/
theorem floor_scaledAbs (x : Sample) : ⌊scaledAbs x⌋ = (scaledMagnitude x : ℤ) := by
  unfold scaledAbs scaledMagnitude
  by_cases h0 : expField x = 0
  · rw [if_pos h0, if_pos h0]
    have := floor_natCast_div (fracField x) (2 ^ 134)
    push_cast at this ⊢
    exact this
  · rw [if_neg h0, if_neg h0]
    by_cases h1 : expField x < 135
    · rw [if_pos h1]
      have e : (2 : ℚ) ^ ((expField x : ℤ) - 135) = 1 / ((2 ^ (135 - expField x) : ℕ) : ℚ) := by
        have : ((expField x : ℤ) - 135) = -((135 - expField x : ℕ) : ℤ) := by omega
        rw [this, zpow_neg, zpow_natCast]
        push_cast
        rw [one_div]
      rw [e, mul_one_div]
      exact floor_natCast_div _ _
    · rw [if_neg h1]
      have e : (2 : ℚ) ^ ((expField x : ℤ) - 135) = ((2 ^ (expField x - 135) : ℕ) : ℚ) := by
        have : ((expField x : ℤ) - 135) = ((expField x - 135 : ℕ) : ℤ) := by omega
        rw [this, zpow_natCast]
        push_cast
        rfl
      rw [e, ← Nat.cast_mul, Int.floor_natCast]

/-- The scale and truncate of 40_sample_codec R141 and R143, in whole numbers. -/
theorem truncRat_scaled (x : Sample) : truncRat (realValue x * 32768) = scaledTrunc x := by
  have h0 := scaledAbs_nonneg x
  have hf := floor_scaledAbs x
  rw [scaled_eq]
  unfold scaledTrunc signFactor
  by_cases hs : signBit x
  · rw [if_pos hs, if_pos hs, neg_one_mul]
    unfold truncRat
    by_cases hz : scaledAbs x = 0
    · rw [hz] at hf ⊢
      simp only [Int.floor_zero] at hf
      rw [← hf]
      simp
    · have hp : 0 < scaledAbs x := lt_of_le_of_ne h0 (Ne.symm hz)
      rw [if_neg (by linarith), Int.ceil_neg, hf]
  · rw [if_neg hs, if_neg hs, one_mul]
    unfold truncRat
    rw [if_pos h0, hf]

/-- The quantizer on a finite input. -/
theorem qenc_finite {x : Sample} (h : isFinite x = true) (policy : QovfPolicy) :
    qenc policy x = (quantWord policy (scaledTrunc x), if fits16 (scaledTrunc x) then .none else .qovf) := by
  rw [qenc, if_pos h]

/-- The quantizer on a NaN or an infinity (40_sample_codec R147). -/
theorem qenc_not_finite {x : Sample} (h : isFinite x = false) (policy : QovfPolicy) :
    qenc policy x = (0#16, .qinv) := by
  rw [qenc, h]; rfl

/-- In range the policy plays no part. -/
theorem quantWord_fits {v : Int} (h : fits16 v = true) (policy : QovfPolicy) : quantWord policy v = BitVec.ofInt 16 v := by
  simp only [fits16, decide_eq_true_eq] at h
  cases policy
  · rfl
  · rw [quantWord, if_neg (by omega), if_neg (by omega)]

theorem toInt_ofInt_fits {v : Int} (h : fits16 v = true) : (BitVec.ofInt 16 v).toInt = v := by
  simp only [fits16, decide_eq_true_eq] at h
  rw [BitVec.toInt_ofInt, Int.bmod_def]
  omega

/-! ## Bytes -/

@[simp] theorem length_bytes16 (w : BitVec 16) : (bytes16 w).length = 2 := rfl

@[simp] theorem length_bytes32 (n : BitVec 32) : (bytes32 n).length = 4 := rfl

theorem toNat_append8 {n : Nat} (hi : BitVec n) (lo : Byte) : (hi ++ lo).toNat = hi.toNat * 256 + lo.toNat := by
  have := lo.isLt
  rw [BitVec.toNat_append, ← Nat.shiftLeft_add_eq_or_of_lt (by omega), Nat.shiftLeft_eq]

theorem le16_bytes (w : BitVec 16) : le16 (w.extractLsb' 0 8) (w.extractLsb' 8 8) = w := by
  apply BitVec.eq_of_toNat_eq
  have := w.isLt
  rw [le16, toNat_append8]
  simp only [BitVec.extractLsb'_toNat, Nat.shiftRight_eq_div_pow]
  omega

theorem bytes16_le16 (lo hi : Byte) : bytes16 (le16 lo hi) = [lo, hi] := by
  have := lo.isLt; have := hi.isLt
  have h1 : (le16 lo hi).toNat = hi.toNat * 256 + lo.toNat := toNat_append8 hi lo
  simp only [bytes16, List.cons.injEq, and_true]
  constructor <;> apply BitVec.eq_of_toNat_eq <;>
    rw [BitVec.extractLsb'_toNat, h1, Nat.shiftRight_eq_div_pow] <;> omega

theorem le32_bytes (n : BitVec 32) :
    le32 (n.extractLsb' 0 8) (n.extractLsb' 8 8) (n.extractLsb' 16 8) (n.extractLsb' 24 8) = n := by
  apply BitVec.eq_of_toNat_eq
  have := n.isLt
  rw [le32, toNat_append8, toNat_append8, toNat_append8]
  simp only [BitVec.extractLsb'_toNat, Nat.shiftRight_eq_div_pow]
  omega

theorem bytes32_le32 (b0 b1 b2 b3 : Byte) : bytes32 (le32 b0 b1 b2 b3) = [b0, b1, b2, b3] := by
  have := b0.isLt; have := b1.isLt; have := b2.isLt; have := b3.isLt
  have h1 : (le32 b0 b1 b2 b3).toNat = ((b3.toNat * 256 + b2.toNat) * 256 + b1.toNat) * 256 + b0.toNat := by
    rw [le32, toNat_append8, toNat_append8, toNat_append8]
  simp only [bytes32, List.cons.injEq, and_true]
  refine ⟨?_, ?_, ?_, ?_⟩ <;> apply BitVec.eq_of_toNat_eq <;>
    rw [BitVec.extractLsb'_toNat, h1, Nat.shiftRight_eq_div_pow] <;> omega

/-! ## Frames -/

/-- Pairs of bytes laid end to end: byte `2k` and `2k + 1` of the whole are those of pair `k`. -/
theorem getElem?_flatMap_pair {α β : Type} (f : α → List β) (hf : ∀ x, (f x).length = 2) (xs : List α) (k j : Nat)
    (hj : j < 2) : (xs.flatMap f)[2 * k + j]? = xs[k]?.bind (fun x => (f x)[j]?) := by
  induction xs generalizing k with
  | nil => simp
  | cons x xs ih =>
    rw [List.flatMap_cons]
    cases k with
    | zero => rw [List.getElem?_append_left (by rw [hf]; omega)]; simp
    | succ k =>
      rw [List.getElem?_append_right (by rw [hf]; omega), hf]
      have e : 2 * (k + 1) + j - 2 = 2 * k + j := by omega
      rw [e, ih k]
      rfl

@[simp] theorem length_frameEncode (policy : QovfPolicy) (xs : List Sample) :
    (frameEncode policy xs).1.length = 2 * xs.length := by
  simp only [frameEncode, List.length_flatMap, length_bytes16, List.map_const', List.sum_replicate, smul_eq_mul]
  omega

theorem getElem?_frameEncode_low (policy : QovfPolicy) (xs : List Sample) (c : Nat) :
    (frameEncode policy xs).1[2 * c]? = xs[c]?.map (fun x => (qenc policy x).1.extractLsb' 0 8) := by
  have := getElem?_flatMap_pair (fun x => bytes16 (qenc policy x).1) (fun _ => rfl) xs c 0 (by omega)
  simp only [frameEncode]
  rw [show 2 * c = 2 * c + 0 from rfl, this]
  cases xs[c]? <;> rfl

theorem getElem?_frameEncode_high (policy : QovfPolicy) (xs : List Sample) (c : Nat) :
    (frameEncode policy xs).1[2 * c + 1]? = xs[c]?.map (fun x => (qenc policy x).1.extractLsb' 8 8) := by
  have := getElem?_flatMap_pair (fun x => bytes16 (qenc policy x).1) (fun _ => rfl) xs c 1 (by omega)
  simp only [frameEncode]
  rw [this]
  cases xs[c]? <;> rfl

/-- Bit by bit, the flags of a frame are the union of its channels' flags. -/
theorem getLsbD_frameMask (fs : List QFlag) (k : Nat) :
    (frameMask fs).getLsbD k = fs.any (fun f => (quantMask f).getLsbD k) := by
  induction fs with
  | nil => simp [frameMask]
  | cons f fs ih =>
    have h : frameMask (f :: fs) = quantMask f ||| frameMask fs := rfl
    rw [h, BitVec.getLsbD_or, ih, List.any_cons]

@[simp] theorem length_finFrame (s : State) (n : Nat) : (s.finFrame n).length = n := by
  simp [State.finFrame]

@[simp] theorem length_frameDecode (n : Nat) (b : Nat → Byte) : (frameDecode n b).length = n := by
  simp [frameDecode]

/-! ## De-interleaving -/

theorem mem_deinterleave {channels samples : Nat} {b : Nat → Byte} {e : Nat × Sample}
    (h : e ∈ deinterleave channels samples b) :
    ∃ c i, c < channels ∧ i < samples ∧ e = (chKey c i, sampleAt b (28 + (i * channels + c) * 2)) := by
  simp only [deinterleave, List.mem_flatMap, List.mem_map, List.mem_range] at h
  obtain ⟨c, hc, i, hi, rfl⟩ := h
  exact ⟨c, i, hc, hi, rfl⟩

/-- `CHBUF` as an acceptance leaves it is in canonical form (at most 256 samples per channel, 42_packet_assembler R211). -/
theorem wf_deinterleave {channels samples : Nat} (b : Nat → Byte) (h : samples ≤ 256) :
    Memory.wf (deinterleave channels samples b) := by
  have h0 : ∀ cs : List Nat, cs.Pairwise (· < ·) →
      Memory.wf (cs.flatMap (fun c => (List.range samples).map (fun i =>
        (chKey c i, sampleAt b (28 + (i * channels + c) * 2))))) := by
    intro cs hcs
    induction cs with
    | nil => simp
    | cons c cs ih =>
      rw [List.pairwise_cons] at hcs
      rw [List.flatMap_cons, Memory.wf, List.pairwise_append]
      refine ⟨?_, ih hcs.2, ?_⟩
      · rw [List.pairwise_map]
        refine List.pairwise_lt_range.imp ?_
        intro i j hij
        simp only [chKey]
        omega
      · intro x hx y hy
        simp only [List.mem_map, List.mem_range, List.mem_flatMap] at hx hy
        obtain ⟨i, hi, rfl⟩ := hx
        obtain ⟨d, hd, j, hj, rfl⟩ := hy
        have := hcs.1 d hd
        simp only [chKey]
        omega
  exact h0 _ List.pairwise_lt_range

/-- An element of `CHBUF` as an acceptance leaves it. -/
theorem read_deinterleave {channels samples : Nat} (b : Nat → Byte) (h : samples ≤ 256) (c i : Nat) (hi : i < 256) :
    Memory.read (deinterleave channels samples b) (chKey c i) =
      if c < channels ∧ i < samples then some (sampleAt b (28 + (i * channels + c) * 2)) else none := by
  by_cases hc : c < channels ∧ i < samples
  · rw [if_pos hc]
    have hm : (chKey c i, sampleAt b (28 + (i * channels + c) * 2)) ∈ deinterleave channels samples b := by
      simp only [deinterleave, List.mem_flatMap, List.mem_map, List.mem_range]
      exact ⟨c, hc.1, i, hc.2, rfl⟩
    exact read_of_mem (wf_deinterleave b h) hm
  · rw [if_neg hc]
    cases hr : Memory.read (deinterleave channels samples b) (chKey c i) with
    | none => rfl
    | some v =>
      obtain ⟨c', i', hc', hi', he⟩ := mem_deinterleave (mem_of_read hr)
      simp only [Prod.mk.injEq, chKey] at he
      exact absurd (show c < channels ∧ i < samples by omega) hc

theorem within_deinterleave {channels samples : Nat} (b : Nat → Byte) (hc : channels ≤ 256) (hs : samples ≤ 256) :
    Memory.within 65536 (deinterleave channels samples b) := by
  intro e he
  obtain ⟨c, i, h1, h2, rfl⟩ := mem_deinterleave he
  simp only [chKey]
  omega

/-- De-interleaving reads the payload only. -/
theorem deinterleave_congr {channels samples : Nat} {b b' : Nat → Byte}
    (h : ∀ k, k < 28 + channels * samples * 2 → b k = b' k) :
    deinterleave channels samples b = deinterleave channels samples b' := by
  simp only [deinterleave]
  refine List.flatMap_congr (fun c hc => List.map_congr_left (fun i hi => ?_))
  rw [List.mem_range] at hc hi
  have hb : i * channels + c < channels * samples := by
    calc i * channels + c < i * channels + channels := by omega
      _ = (i + 1) * channels := by ring
      _ ≤ samples * channels := Nat.mul_le_mul_right _ (by omega)
      _ = channels * samples := Nat.mul_comm _ _
  simp only [sampleAt, Config.hdrSize]
  rw [h _ (by omega), h _ (by omega)]

end Sys2Proof.Laws
end

