-- ==== Sys2Proof/Laws/HeaderCodec.lean ====
section
/-! SUPPORT. The 28 bytes of a header, field by field, and when `hdr_decode` answers one. -/

namespace Sys2Proof.Laws

open Sys2Proof.Machine

@[simp] theorem length_hdrEncode (h : Header) : (hdrEncode h).length = 28 := by
  simp [hdrEncode, magic]

/-- The fixed offsets of 41_header_codec R184. -/
theorem hdrEncode_fields (h : Header) :
    (hdrEncode h)[0]? = some 0x56#8 ∧ (hdrEncode h)[1]? = some 0x42#8 ∧ (hdrEncode h)[2]? = some 0x41#8 ∧
      (hdrEncode h)[3]? = some 0x4E#8 ∧ (hdrEncode h)[4]? = some (formatSR h.rsv7 h.subproto h.srIndex) ∧
      (hdrEncode h)[5]? = some h.nbs ∧ (hdrEncode h)[6]? = some h.nbc ∧ (hdrEncode h)[7]? = some h.bit := by
  refine ⟨rfl, rfl, rfl, rfl, rfl, rfl, rfl, rfl⟩

/-- The name field stands at offsets 8..23. -/
theorem hdrEncode_name (h : Header) (k : Nat) (hk : k < 16) : (hdrEncode h)[8 + k]? = some h.name[k] := by
  have h1 : (magic ++ [formatSR h.rsv7 h.subproto h.srIndex, h.nbs, h.nbc, h.bit]).length = 8 := rfl
  have h2 : h.name.toList.length = 16 := by simp
  rw [hdrEncode, List.getElem?_append_left (by simp [magic]; omega),
    List.getElem?_append_right (by rw [h1]; omega), h1, Nat.add_sub_cancel_left,
    List.getElem?_eq_getElem (by omega)]
  simp

/-- The counter stands at offsets 24..27, low byte first. -/
theorem hdrEncode_nuFrame (h : Header) (k : Nat) (hk : k < 4) :
    (hdrEncode h)[24 + k]? = some (h.nuFrame.extractLsb' (8 * k) 8) := by
  have h1 : (magic ++ [formatSR h.rsv7 h.subproto h.srIndex, h.nbs, h.nbc, h.bit] ++ h.name.toList).length = 24 := by
    simp [magic]
  rw [hdrEncode, List.getElem?_append_right (by rw [h1]; omega), h1, Nat.add_sub_cancel_left]
  have : k = 0 ∨ k = 1 ∨ k = 2 ∨ k = 3 := by omega
  rcases this with rfl | rfl | rfl | rfl <;> rfl

/-! ## Fields of one byte -/

theorem srIndexOf_formatSR (r : BitVec 1) (s : BitVec 2) (i : BitVec 5) : srIndexOf (formatSR r s i) = i := by
  revert r s i; decide

theorem subprotoOf_formatSR (r : BitVec 1) (s : BitVec 2) (i : BitVec 5) : subprotoOf (formatSR r s i) = s := by
  revert r s i; decide

theorem rsv7Of_formatSR (r : BitVec 1) (s : BitVec 2) (i : BitVec 5) : rsv7Of (formatSR r s i) = r := by
  revert r s i; decide

theorem formatSR_fields (b : Byte) : formatSR (rsv7Of b) (subprotoOf b) (srIndexOf b) = b := by
  revert b; decide

theorem codecOf_pcm16 (p : Params) : codecOf (pcm16 p) = p.codecPcm := by
  unfold codecOf pcm16; generalize p.codecPcm = c; generalize p.resPcm16 = r; revert c r; decide

theorem resolutionOf_pcm16 (p : Params) : resolutionOf (pcm16 p) = p.resPcm16 := by
  unfold resolutionOf pcm16; generalize p.codecPcm = c; generalize p.resPcm16 = r; revert c r; decide

/-- The two codes of `format_bit` are those of `PCM_16` exactly where the byte is. -/
theorem eq_pcm16_iff (p : Params) (b : Byte) : b = pcm16 p ↔ codecOf b = p.codecPcm ∧ resolutionOf b = p.resPcm16 := by
  constructor
  · rintro rfl
    exact ⟨codecOf_pcm16 p, resolutionOf_pcm16 p⟩
  · rintro ⟨h1, h2⟩
    rw [pcm16, ← h1, ← h2]
    clear h1 h2
    revert b; decide

/-- The magic test, byte by byte (20_memory R72). -/
theorem hasMagic_iff (b : Nat → Byte) :
    hasMagic b = true ↔ b 0 = 0x56#8 ∧ b 1 = 0x42#8 ∧ b 2 = 0x41#8 ∧ b 3 = 0x4E#8 := by
  simp [hasMagic, magic, List.range_succ]

/-! ## Names -/

theorem padTo_of_length {n : Nat} {bytes : List Byte} (h : bytes.length = n) : padTo n bytes = bytes := by
  rw [padTo, List.take_append_of_le_length (by omega), ← h, List.take_length]

theorem nameOfBytes_toList (bytes : List Byte) : (nameOfBytes bytes).toList = padTo 16 bytes := rfl

theorem getElem?_padTo (n : Nat) (bytes : List Byte) (k : Nat) (hk : k < n) :
    (padTo n bytes)[k]? = some (bytes[k]?.getD 0#8) := by
  rw [padTo, List.getElem?_take_of_lt hk]
  by_cases h : k < bytes.length
  · rw [List.getElem?_append_left h, List.getElem?_eq_getElem h]; rfl
  · rw [List.getElem?_append_right (by omega), List.getElem?_eq_none (by omega : bytes.length ≤ k),
      List.getElem?_replicate_of_lt (by omega)]; rfl

/-- Byte `k` of the register that holds a string. -/
theorem getElem_nameOfBytes (bytes : List Byte) (k : Nat) (hk : k < 16) :
    (nameOfBytes bytes)[k] = bytes[k]?.getD 0#8 := by
  have h := getElem?_padTo 16 bytes k hk
  rw [← nameOfBytes_toList, List.getElem?_eq_getElem (by simp; omega)] at h
  simpa using h

/-! ## hdr_decode -/

/-- `hdr_decode` answers exactly on the headers that pass its checks (41_header_codec R190). -/
theorem hdrDecode_eq (p : Params) (b : Nat → Byte) (len : Nat) :
    hdrDecode p b len =
      if 28 ≤ len ∧ hasMagic b = true ∧ (srIndexOf (b 4)).toNat < 21 ∧ b 7 = pcm16 p then some (headerOf b) else none := by
  unfold hdrDecode
  have h3 : ¬ (b 6).toNat + 1 < 1 := by omega
  by_cases h1 : len < 28
  · rw [if_pos h1, if_neg (by omega)]
  · rw [if_neg h1, if_neg h3]
    cases h2 : hasMagic b
    · simp
    · by_cases h4 : 21 ≤ (srIndexOf (b 4)).toNat
      · simp [Config.srCount, h4]
      · by_cases h5 : b 7 = pcm16 p
        · simp [Config.srCount, h4, h5]; omega
        · simp [Config.srCount, h4, h5]

theorem hasMagic_congr {b b' : Nat → Byte} (h : ∀ k, k < 28 → b k = b' k) : hasMagic b = hasMagic b' := by
  simp only [hasMagic]
  rw [List.map_congr_left (fun k hk => h k (by rw [List.mem_range] at hk; omega))]

theorem nameBytes_congr {b b' : Nat → Byte} (h : ∀ k, k < 28 → b k = b' k) :
    (List.range 16).map (fun k => b (8 + k)) = (List.range 16).map (fun k => b' (8 + k)) :=
  List.map_congr_left (fun k hk => h _ (by rw [List.mem_range] at hk; omega))

theorem headerOf_congr {b b' : Nat → Byte} (h : ∀ k, k < 28 → b k = b' k) : headerOf b = headerOf b' := by
  simp only [headerOf]
  rw [nameBytes_congr h, h 4, h 5, h 6, h 7, h 24, h 25, h 26, h 27] <;> omega

/-- `hdr_decode` reads the first 28 bytes only, and none of a shorter string (20_memory R77). -/
theorem hdrDecode_congr (p : Params) {b b' : Nat → Byte} {len : Nat} (h : ∀ k, k < len → k < 28 → b k = b' k) :
    hdrDecode p b len = hdrDecode p b' len := by
  rw [hdrDecode_eq, hdrDecode_eq]
  by_cases h1 : 28 ≤ len
  · have h2 : ∀ k, k < 28 → b k = b' k := fun k hk => h k (by omega) hk
    rw [hasMagic_congr h2, headerOf_congr h2, h2 4 (by omega), h2 7 (by omega)]
  · rw [if_neg (by tauto), if_neg (by tauto)]

end Sys2Proof.Laws
end

