-- ==== Sys2Proof/Laws/PacketAssembler.lean ====
section
/-! SUPPORT. The packet size, and everything the loop of `TX.END` can do. -/

namespace Sys2Proof.Laws

open Sys2Proof.Machine

/-! ## Packet size (42_packet_assembler R211) -/

/-- A full packet holds at least two whole frames. -/
theorem samplesPerChannel_pos {c : Nat} (h1 : 1 ≤ c) (h2 : c ≤ 254) : 2 ≤ samplesPerChannel c := by
  have : 2 ≤ 1436 / (2 * c) := (Nat.le_div_iff_mul_le (by omega)).mpr (by omega)
  simp only [samplesPerChannel, Config.nsMax, Config.maxPayload]
  omega

theorem samplesPerChannel_le (c : Nat) : samplesPerChannel c ≤ 256 := Nat.min_le_left _ _

/-- A full packet is positive in size, so that the loop of `TX.END` ends. -/
theorem payloadCap_pos {c : Nat} (h1 : 1 ≤ c) (h2 : c ≤ 254) : 0 < payloadCap c := by
  have := samplesPerChannel_pos h1 h2
  rw [payloadCap]
  positivity

/-- A full packet fits `MAX_PAYLOAD`. -/
theorem payloadCap_le (c : Nat) : payloadCap c ≤ 1436 := by
  have h1 : samplesPerChannel c ≤ 2 * ((1436 / (2 * c)) / 2) := Nat.min_le_right _ _
  have h2 : 2 * ((1436 / (2 * c)) / 2) ≤ 1436 / (2 * c) := by omega
  have h3 : 1436 / (2 * c) * (2 * c) ≤ 1436 := Nat.div_mul_le_self _ _
  calc payloadCap c = samplesPerChannel c * (2 * c) := by rw [payloadCap]; ring
    _ ≤ 1436 / (2 * c) * (2 * c) := Nat.mul_le_mul_right _ (h1.trans h2)
    _ ≤ 1436 := h3

/-- A full packet is whole frames. -/
theorem payloadCap_mod (c : Nat) : payloadCap c % (2 * c) = 0 := by
  have : payloadCap c = samplesPerChannel c * (2 * c) := by rw [payloadCap]; ring
  rw [this, Nat.mul_mod_left]

/-! ## One turn -/

@[simp] theorem length_abufBytes (s : State) (m : Memory Byte) (a n : Nat) : (s.abufBytes m a n).length = n := by
  simp [State.abufBytes]

theorem txHeader_emitDatagram (s : State) (cap : Nat) :
    txHeader (s.emitDatagram cap) = { txHeader s with nuFrame := s.nuFrame + 1#32 } := rfl

/-- The stamp writes offsets 0..27 only (42_packet_assembler R219). -/
theorem read_stampedAbuf (s : State) (a : Nat) :
    s.stampedAbuf.read a = if a < 28 then (hdrEncode (txHeader s))[a]? else s.abuf.read a := by
  rw [State.stampedAbuf, read_store]
  simp

/-- Above the header the stamp changes nothing that is read. -/
theorem abufBytes_stamped (s : State) (a n : Nat) (h : 28 ≤ a) :
    s.abufBytes s.stampedAbuf a n = s.abufBytes s.abuf a n := by
  refine load_congr _ _ _ _ _ _ (fun k _ => ?_)
  rw [read_stampedAbuf, if_neg (by omega)]

/-- The datagram of one turn: the header, then `cap` bytes of frames (42_packet_assembler R216). -/
theorem abufBytes_datagram (s : State) (cap : Nat) :
    s.abufBytes s.stampedAbuf 0 (28 + cap) = hdrEncode (txHeader s) ++ s.abufBytes s.abuf 28 cap := by
  apply List.ext_getElem?
  intro k
  by_cases h : k < 28
  · rw [List.getElem?_append_left (by simpa using h), State.abufBytes, getElem?_load, if_pos (by omega), Nat.zero_add,
      read_stampedAbuf, if_pos h, List.getElem?_eq_getElem (by simpa using h)]
    rfl
  · rw [List.getElem?_append_right (by simpa using h), length_hdrEncode, State.abufBytes, State.abufBytes, getElem?_load,
      getElem?_load]
    by_cases h2 : k < 28 + cap
    · rw [if_pos h2, if_pos (by omega), Nat.zero_add, read_stampedAbuf, if_neg h]
      have : 28 + (k - 28) = k := by omega
      rw [this]
    · rw [if_neg h2, if_neg (by omega)]

/-- The event of one turn. -/
theorem linkOut_emitDatagram (s : State) (cap : Nat) :
    (s.emitDatagram cap).linkOut = s.linkOut ++ [.send (hdrEncode (txHeader s) ++ s.abufBytes s.abuf 28 cap)] := by
  rw [← abufBytes_datagram]; rfl

/-- `ABUF` after one turn: the header below 28, the residue moved down to 28, the rest as it was. -/
theorem read_emitDatagram (s : State) (cap a : Nat) :
    (s.emitDatagram cap).abuf.read a =
      if a < 28 then (hdrEncode (txHeader s))[a]?
      else if a < 28 + (s.wpos - (28 + cap)) then (s.abufBytes s.abuf (28 + cap) (s.wpos - (28 + cap)))[a - 28]?
      else s.abuf.read a := by
  have h : (s.emitDatagram cap).abuf =
      s.stampedAbuf.store 28 (s.abufBytes s.stampedAbuf (28 + cap) (s.wpos - (28 + cap))) := rfl
  rw [h, abufBytes_stamped s _ _ (by omega), read_store, length_abufBytes]
  by_cases h1 : a < 28
  · rw [if_neg (by omega), if_pos h1, read_stampedAbuf, if_pos h1]
  · rw [if_neg h1]
    by_cases h2 : a < 28 + (s.wpos - (28 + cap))
    · rw [if_pos ⟨by omega, h2⟩, if_pos h2]
    · rw [if_neg (by omega), if_neg h2, read_stampedAbuf, if_neg h1]

/-- One turn changes `ABUF`, the cursor, the counter and `LINK_OUT` only. -/
theorem emitDatagram_frame (s : State) (cap : Nat) :
    s.emitDatagram cap = { s with
      abuf := (s.emitDatagram cap).abuf, wpos := (s.emitDatagram cap).wpos, nuFrame := (s.emitDatagram cap).nuFrame,
      linkOut := (s.emitDatagram cap).linkOut } := rfl

/-! ## The loop -/

/-- What holds before the loop and is kept by every turn on a full packet holds after it. -/
theorem emitWhileFull_induction {cap : Nat} (P : State → Prop)
    (hstep : ∀ s, P s → 28 + cap ≤ s.wpos → P (s.emitDatagram cap)) (fuel : Nat) (s : State) (h : P s) :
    P (emitWhileFull cap fuel s) := by
  induction fuel generalizing s with
  | zero => exact h
  | succ fuel ih =>
    rw [emitWhileFull]
    split
    · exact ih _ (hstep s h ‹_›)
    · exact h

/-- The loop changes `ABUF`, the cursor, the counter and `LINK_OUT` only. -/
theorem emitWhileFull_frame (cap fuel : Nat) (s : State) :
    emitWhileFull cap fuel s = { s with
      abuf := (emitWhileFull cap fuel s).abuf, wpos := (emitWhileFull cap fuel s).wpos,
      nuFrame := (emitWhileFull cap fuel s).nuFrame, linkOut := (emitWhileFull cap fuel s).linkOut } := by
  refine emitWhileFull_induction
    (fun t => t = { s with abuf := t.abuf, wpos := t.wpos, nuFrame := t.nuFrame, linkOut := t.linkOut }) ?_ fuel s rfl
  intro t ht _
  rw [emitDatagram_frame, ht]

/-- The loop does not read `DIRTY` (10_state R33): with another value there it ends alike. -/
theorem emitWhileFull_dirty (u : SessionUnit) (d : Bool) (cap fuel : Nat) (s : State) :
    emitWhileFull cap fuel (s.setSess u { s.sess u with dirty := d }) =
      (emitWhileFull cap fuel s).setSess u { (emitWhileFull cap fuel s).sess u with dirty := d } := by
  induction fuel generalizing s with
  | zero => rfl
  | succ fuel ih =>
    have h : (s.setSess u { s.sess u with dirty := d }).emitDatagram cap =
        (s.emitDatagram cap).setSess u { (s.emitDatagram cap).sess u with dirty := d } := by
      cases u <;> rfl
    simp only [emitWhileFull, setSess_fields]
    split
    · rw [h, ih]
    · rfl

/-- The loop stops below a full packet, within the turns it is given. -/
theorem emitWhileFull_wpos {cap : Nat} (hc : 0 < cap) (fuel : Nat) (s : State) (h0 : 28 ≤ s.wpos)
    (hf : (s.wpos - 28) / cap ≤ fuel) :
    (emitWhileFull cap fuel s).wpos = 28 + (s.wpos - 28) % cap := by
  induction fuel generalizing s with
  | zero =>
    have := (Nat.div_eq_zero_iff_lt hc).mp (Nat.le_zero.mp hf)
    rw [emitWhileFull, Nat.mod_eq_of_lt this]
    omega
  | succ fuel ih =>
    rw [emitWhileFull]
    by_cases h : 28 + cap ≤ s.wpos
    · rw [if_pos h]
      have h1 : (s.emitDatagram cap).wpos - 28 = s.wpos - 28 - cap := by
        simp only [emitDatagram_fields]; omega
      have h2 : (s.wpos - 28 - cap) / cap = (s.wpos - 28) / cap - 1 := by
        rw [Nat.div_eq_sub_div hc (by omega : cap ≤ s.wpos - 28), Nat.add_sub_cancel]
      rw [ih _ (by simp only [emitDatagram_fields]; omega) (by rw [h1, h2]; omega), h1,
        Nat.mod_eq_sub_mod (by omega : s.wpos - 28 ≥ cap)]
    · rw [if_neg h, Nat.mod_eq_of_lt (by omega)]
      omega

end Sys2Proof.Laws
end

