-- ==== Sys2Proof/Laws/PacketParser.lean ====
section
/-! SUPPORT. When the parser rejects and what it accepts; what it reads. -/

namespace Sys2Proof.Laws

open Sys2Proof.Machine

/-- `parse` as the conditions of its steps: an accepted datagram passes every one of them (43_packet_parser R243). -/
theorem parse_ok {p : Params} {b : Nat → Byte} {len : Nat} {sub : Name} {a : Accepted} (h : parse p b len sub = .ok a) :
    28 ≤ len ∧ hasMagic b = true ∧ isAudio p (b 4) = true ∧ codecOf (b 7) = p.codecPcm ∧
      resolutionOf (b 7) = p.resPcm16 ∧ (srIndexOf (b 4)).toNat < 21 ∧
      nameEq ((List.range 16).map (fun k => b (8 + k))) sub = true ∧
      28 + ((b 6).toNat + 1) * ((b 5).toNat + 1) * 2 ≤ len ∧
      a = { channels := (b 6).toNat + 1
            samples := (b 5).toNat + 1
            srIndex := srIndexOf (b 4)
            nuFrame := le32 (b 24) (b 25) (b 26) (b 27)
            buffers := deinterleave ((b 6).toNat + 1) ((b 5).toNat + 1) b } := by
  unfold parse at h
  dsimp only [Config.hdrSize, Config.srCount] at h
  split at h
  · cases h
  split at h
  · cases h
  split at h
  · cases h
  split at h
  · cases h
  split at h
  · cases h
  split at h
  · cases h
  split at h
  · cases h
  split at h
  · cases h
  rename_i h1 h2 h3 h4 h5 h6 h7 h8
  simp only [Bool.not_eq_true', Bool.not_eq_false, ne_eq, not_not] at h2 h3 h4 h5 h7
  cases h
  exact ⟨by omega, h2, h3, h4, h5, by omega, h7, by omega, rfl⟩

/-- The converse: a datagram that passes every step is accepted (43_packet_parser R243, step 9). -/
theorem parse_accepts {p : Params} {b : Nat → Byte} {len : Nat} {sub : Name} (h1 : 28 ≤ len) (h2 : hasMagic b = true)
    (h3 : isAudio p (b 4) = true) (h4 : codecOf (b 7) = p.codecPcm) (h5 : resolutionOf (b 7) = p.resPcm16)
    (h6 : (srIndexOf (b 4)).toNat < 21) (h7 : nameEq ((List.range 16).map (fun k => b (8 + k))) sub = true)
    (h8 : 28 + ((b 6).toNat + 1) * ((b 5).toNat + 1) * 2 ≤ len) :
    parse p b len sub = .ok
      { channels := (b 6).toNat + 1
        samples := (b 5).toNat + 1
        srIndex := srIndexOf (b 4)
        nuFrame := le32 (b 24) (b 25) (b 26) (b 27)
        buffers := deinterleave ((b 6).toNat + 1) ((b 5).toNat + 1) b } := by
  unfold parse
  dsimp only [Config.hdrSize, Config.srCount]
  rw [if_neg (by omega), if_neg (by simp [h2]), if_neg (by simp [h3]), if_neg (by simp [h4]), if_neg (by simp [h5]),
    if_neg (by omega), if_neg (by simp [h7]), if_neg (by omega)]

/-- `parse` reads the first `len` bytes only (20_memory R77). -/
theorem parse_congr (p : Params) {b b' : Nat → Byte} {len : Nat} (sub : Name) (h : ∀ k, k < len → b k = b' k) :
    parse p b len sub = parse p b' len sub := by
  unfold parse
  dsimp only [Config.hdrSize]
  by_cases h1 : len < 28
  · rw [if_pos h1, if_pos h1]
  · have h2 : ∀ k, k < 28 → b k = b' k := fun k hk => h k (by omega)
    rw [if_neg h1, if_neg h1, hasMagic_congr h2, nameBytes_congr h2, ← h2 4 (by omega), ← h2 5 (by omega),
      ← h2 6 (by omega), ← h2 7 (by omega), ← h2 24 (by omega), ← h2 25 (by omega), ← h2 26 (by omega),
      ← h2 27 (by omega)]
    by_cases h8 : len < 28 + ((b 6).toNat + 1) * ((b 5).toNat + 1) * 2
    · simp only [h8, if_true]
    · rw [deinterleave_congr (fun k hk => h k (by omega))]

/-- The codes of the reasons are 1..8 (43_packet_parser R244). -/
theorem toNat_reasonCode (r : RejectReason) : 1 ≤ (reasonCode r).toNat ∧ (reasonCode r).toNat ≤ 8 := by
  cases r <;> decide

/-- With the decided codes the audio test is that the masked bits are 0 (43_packet_parser R247, 30_encoding R122). -/
theorem isAudio_decided {p : Params} (h : p.DecidedCodes) (b : Byte) :
    isAudio p b = decide (b &&& subprotoMask p.subprotoCheck = 0#8) := by
  rw [isAudio, h.1]
  cases p.subprotoCheck <;> revert b <;> decide

theorem nullTerminated_no_zero (bytes : List Byte) : ∀ b ∈ nullTerminated bytes, b ≠ 0#8 := by
  intro b hb
  have := List.mem_takeWhile_imp hb
  simpa using this

/-- `name_eq` compares the bytes before the first `00` (43_packet_parser R252). -/
theorem nameEq_iff (field : List Byte) (n : Name) :
    nameEq field n = true ↔ nullTerminated field = nullTerminated n.toList := by
  rw [nameEq, beq_iff_eq]

end Sys2Proof.Laws
end

