-- ==== Sys2Proof/Laws/PerInstr.lean ====
section
/-! SUPPORT. Per command: decoding its word gives it back (30_encoding R104). -/

namespace Sys2Proof.Laws.RoundTrip

/-- The word of a well-formed command decodes to the command. -/
def Statement (i : Instr) : Prop := i.wellFormed = true → decode (encode i) = .ok i

theorem qF2I : Statement .qF2I := fun _ => by rfl
theorem qI2F (w : BitVec 16) : Statement (.qI2F w) := fun _ => by
  rw [encode, decode_pack]; exact argHalf_setWidth w _
theorem frmEnc (n : BitVec 9) : Statement (.frmEnc n) := fun h => by
  rw [encode, decode_pack]; exact argCount_setWidth n _ (of_decide_eq_true h)
theorem frmDec (n : BitVec 9) : Statement (.frmDec n) := fun h => by
  rw [encode, decode_pack]; exact argCount_setWidth n _ (of_decide_eq_true h)
theorem hdrEnc : Statement .hdrEnc := fun _ => by rfl
theorem hdrDec (len : BitVec 16) : Statement (.hdrDec len) := fun _ => by
  rw [encode, decode_pack]; exact argHalf_setWidth len _
theorem blkBegin (u : SessionUnit) : Statement (.blkBegin u) := fun _ => by cases u <;> rfl
theorem txPush : Statement .txPush := fun _ => by rfl
theorem txEnd : Statement .txEnd := fun _ => by rfl
theorem rxParse (len : BitVec 16) : Statement (.rxParse len) := fun _ => by
  rw [encode, decode_pack]; exact argHalf_setWidth len _
theorem cfgHost (u : SessionUnit) (len : BitVec 8) : Statement (.cfgHost u len) := fun _ => by
  rw [encode, decode_pack, decodeOp, argLength_setWidth, unitOf_unitBit]
theorem cfgPort (u : SessionUnit) (port : BitVec 16) : Statement (.cfgPort u port) := fun _ => by
  rw [encode, decode_pack, decodeOp, argHalf_setWidth, unitOf_unitBit]
theorem cfgNch (u : SessionUnit) (n : BitVec 20) : Statement (.cfgNch u n) := fun _ => by
  rw [encode, decode_pack, decodeOp, unitOf_unitBit]
theorem cfgName (u : SessionUnit) (len : BitVec 8) : Statement (.cfgName u len) := fun _ => by
  rw [encode, decode_pack, decodeOp, argLength_setWidth, unitOf_unitBit]
theorem cfgRun (u : SessionUnit) (b : Bool) : Statement (.cfgRun u b) := fun _ => by
  rw [encode, decode_pack, decodeOp, argBit_ite, unitOf_unitBit]
theorem cfgSrclr (u : SessionUnit) : Statement (.cfgSrclr u) := fun _ => by cases u <;> rfl

end Sys2Proof.Laws.RoundTrip
end

