-- ==== Sys2Proof/Laws/Session.lean ====
section
/-! SUPPORT. Everything a boundary can do: the resolution of the rate, stop, start; and the legal values the configuration
commands leave. -/

namespace Sys2Proof.Laws

open Sys2Proof.Machine

/-! ## The rate (44_session_control R283) -/

/-- A resolved index is the least one whose table entry is the rate. -/
theorem resolveRate_some {p : Params} {hz : BitVec 20} {i : BitVec 5} (h : resolveRate p hz = some i) :
    ∃ k : Fin 21, i.toNat = k.val ∧ p.srTable[k] = hz.toNat ∧ ∀ j : Fin 21, j < k → p.srTable[j] ≠ hz.toNat := by
  unfold resolveRate at h
  rw [Option.map_eq_some_iff] at h
  obtain ⟨k, hk, rfl⟩ := h
  rw [List.findIdx?_eq_some_iff_getElem] at hk
  obtain ⟨h1, h2, h3⟩ := hk
  have h1' : k < 21 := by simpa using h1
  refine ⟨⟨k, h1'⟩, ?_, ?_, ?_⟩
  · simp only [BitVec.toNat_ofNat]; omega
  · simpa using h2
  · intro j hj
    have := h3 j.val hj
    simpa using this

/-- No index is found exactly where the rate is not in the table. -/
theorem resolveRate_none {p : Params} {hz : BitVec 20} :
    resolveRate p hz = none ↔ ∀ j : Fin 21, p.srTable[j] ≠ hz.toNat := by
  unfold resolveRate
  rw [Option.map_eq_none_iff, List.findIdx?_eq_none_iff]
  constructor
  · intro h j
    have := h p.srTable[j] (by simp)
    simpa using this
  · intro h x hx
    obtain ⟨k, hk, rfl⟩ := List.mem_iff_getElem.mp hx
    have := h ⟨k, by simpa using hk⟩
    simpa using this

/-- The least matching index is the one resolved. -/
theorem resolveRate_eq {p : Params} {hz : BitVec 20} {k : Fin 21} (h1 : p.srTable[k] = hz.toNat)
    (h2 : ∀ j : Fin 21, j < k → p.srTable[j] ≠ hz.toNat) : resolveRate p hz = some (BitVec.ofNat 5 k.val) := by
  cases h : resolveRate p hz with
  | none => exact absurd h1 (resolveRate_none.mp h k)
  | some i =>
    obtain ⟨m, hm, h3, h4⟩ := resolveRate_some h
    have : m = k := by
      rcases lt_trichotomy m k with h5 | h5 | h5
      · exact absurd h3 (h2 m h5)
      · exact h5
      · exact absurd h1 (h4 k h5)
    subst this
    rw [← hm, BitVec.ofNat_toNat, BitVec.setWidth_eq]

/-! ## Stop and start -/

/-- The registers of a unit after a stop. -/
@[simp] theorem sess_stop_self (s : State) (u : SessionUnit) : (s.stop u).sess u = { s.sess u with run := false } := by
  cases u <;> unfold State.stop <;> dsimp only <;> split <;> rfl

/-- A stop of one unit leaves the other alone. -/
theorem sess_stop_of_ne (s : State) {u v : SessionUnit} (h : v ≠ u) : (s.stop u).sess v = s.sess v := by
  cases u <;> cases v <;> first | exact absurd rfl h | (unfold State.stop; dsimp only; split <;> rfl)

/-- What a stop writes beside the unit's registers (44_session_control R285). -/
@[simp] theorem stop_fields (s : State) (u : SessionUnit) :
    (s.stop u).linkOut = s.linkOut ++ (if (s.sess u).run then [.closed u] else []) ∧
    (s.stop u).wpos = (if u = .tx then 28 else s.wpos) ∧
    (s.stop u).rxValid = (if u = .rx then false else s.rxValid) ∧
    (s.stop u).nuFrame = s.nuFrame ∧
    (s.stop u).status = s.status ∧
    (s.stop u).rateSamples = s.rateSamples ∧
    (s.stop u).par = s.par ∧
    (s.stop u).hostRate = s.hostRate ∧
    (s.stop u).inputs = s.inputs := by
  cases u <;> unfold State.stop <;> dsimp only <;> split <;>
    simp_all [State.emit, State.setSess, State.resetDatapath, Config.hdrSize]

/-- A stop changes nothing else. -/
theorem stop_frame (s : State) (u : SessionUnit) :
    s.stop u = { s with
      tx := (s.stop u).tx, rx := (s.stop u).rx, linkOut := (s.stop u).linkOut, wpos := (s.stop u).wpos,
      rxValid := (s.stop u).rxValid } := by
  cases u <;> unfold State.stop <;> dsimp only <;> split <;> rfl

/-- The registers of a unit once its link is open. -/
@[simp] theorem sess_openLink_self (s : State) (u : SessionUnit) :
    (s.openLink u).sess u = { s.sess u with run := true } := by
  cases u <;> rfl

/-- Opening one unit's link leaves the other unit alone. -/
theorem sess_openLink_of_ne (s : State) {u v : SessionUnit} (h : v ≠ u) : (s.openLink u).sess v = s.sess v := by
  cases u <;> cases v <;> first | exact absurd rfl h | rfl

/-- What opening the link writes beside the unit's registers (44_session_control R280, R284). -/
@[simp] theorem openLink_fields (s : State) (u : SessionUnit) :
    (s.openLink u).linkOut = s.linkOut ++ [.opened u (s.sess u).active.host (s.sess u).active.port] ∧
    (s.openLink u).wpos = (if u = .tx then 28 else s.wpos) ∧
    (s.openLink u).rxValid = (if u = .rx then false else s.rxValid) ∧
    (s.openLink u).nuFrame = (if u = .tx then 0#32 else s.nuFrame) ∧
    (s.openLink u).status = s.status ∧
    (s.openLink u).rateSamples = s.rateSamples ∧
    (s.openLink u).par = s.par ∧
    (s.openLink u).hostRate = s.hostRate ∧
    (s.openLink u).inputs = s.inputs := by
  cases u <;> refine ⟨rfl, rfl, rfl, rfl, rfl, rfl, rfl, rfl, rfl⟩

/-- Opening the link changes nothing else. -/
theorem openLink_frame (s : State) (u : SessionUnit) :
    s.openLink u = { s with
      tx := (s.openLink u).tx, rx := (s.openLink u).rx, linkOut := (s.openLink u).linkOut, wpos := (s.openLink u).wpos,
      rxValid := (s.openLink u).rxValid, nuFrame := (s.openLink u).nuFrame } := by
  cases u <;> rfl

/-! ## The boundary -/

/-- The state of a dirty boundary after its stop (44_session_control R272). -/
theorem sess_applied_stop (s : State) (u : SessionUnit) :
    ((s.setSess u (s.sess u).applied).stop u).sess u = { (s.sess u).applied with run := false } := by
  simp

/-- A dirty boundary ends in one of four ways: stopped, started on the fixed index, not started for want of a rate, started on a
newly resolved index (44_session_control R272, R280). -/
theorem reconfigure_cases (s : State) (u : SessionUnit) :
    ((s.sess u).pEn = false ∧ s.reconfigure u = (s.setSess u (s.sess u).applied).stop u) ∨
    ((s.sess u).pEn = true ∧ (s.sess u).applied.srFixed = true ∧
      s.reconfigure u = ((s.setSess u (s.sess u).applied).stop u).openLink u) ∨
    ((s.sess u).pEn = true ∧ (s.sess u).applied.srFixed = false ∧ resolveRate s.par s.sampledRate = none ∧
      s.reconfigure u = ((s.setSess u (s.sess u).applied).stop u).countSample.flag .cfgerr) ∨
    ((s.sess u).pEn = true ∧ (s.sess u).applied.srFixed = false ∧ ∃ i, resolveRate s.par s.sampledRate = some i ∧
      s.reconfigure u = (((s.setSess u (s.sess u).applied).stop u).countSample.setSess u
        { (s.sess u).applied with run := false, srIdx := i, srFixed := true }).openLink u) := by
  have h1 : (((s.setSess u (s.sess u).applied).stop u).sess u).srFixed = (s.sess u).applied.srFixed := by simp
  have h2 : ((s.setSess u (s.sess u).applied).stop u).par = s.par := by simp
  have h3 : ((s.setSess u (s.sess u).applied).stop u).sampledRate = s.sampledRate := by
    simp only [State.sampledRate]
    rw [(stop_fields _ u).2.2.2.2.2.2.2.1, (stop_fields _ u).2.2.2.2.2.1]
    cases u <;> rfl
  unfold State.reconfigure
  dsimp only
  cases hp : (s.sess u).pEn
  · exact .inl ⟨rfl, by simp⟩
  · rw [if_pos rfl]
    unfold State.start
    rw [h1, h2, h3, sess_applied_stop]
    cases hf : (s.sess u).applied.srFixed
    · rw [if_neg (by simp)]
      cases hr : resolveRate s.par s.sampledRate with
      | none => exact .inr (.inr (.inl ⟨rfl, rfl, rfl, rfl⟩))
      | some i => exact .inr (.inr (.inr ⟨rfl, rfl, i, rfl, rfl⟩))
    · rw [if_pos rfl]
      exact .inr (.inl ⟨rfl, rfl, rfl⟩)

/-- The index stays fixed through the boundary exactly where it was fixed and no release is pending
(44_session_control R274). -/
theorem applied_srFixed (x : Session) : x.applied.srFixed = true ↔ x.srFixed = true ∧ x.pSrclr = false := by
  simp only [Session.applied]
  cases x.pSrclr <;> simp

/-! ## The other unit -/

/-- A stop of one unit neither reads nor writes the registers of the other. -/
theorem stop_setSess_of_ne (s : State) {u v : SessionUnit} (h : v ≠ u) (x : Session) :
    (s.setSess u x).stop v = (s.stop v).setSess u x := by
  cases u <;> cases v <;> first
    | exact absurd rfl h
    | (unfold State.stop; dsimp only; split <;> simp_all [State.sess, State.setSess] <;> rfl)

/-- Opening one unit's link neither reads nor writes the registers of the other. -/
theorem openLink_setSess_of_ne (s : State) {u v : SessionUnit} (h : v ≠ u) (x : Session) :
    (s.setSess u x).openLink v = (s.openLink v).setSess u x := by
  cases u <;> cases v <;> first | exact absurd rfl h | rfl

/-- A start of one unit neither reads nor writes the registers of the other. -/
theorem start_setSess_of_ne (s : State) {u v : SessionUnit} (h : v ≠ u) (x : Session) :
    (s.setSess u x).start v = (s.start v).setSess u x := by
  have h1 : (s.setSess u x).sampledRate = s.sampledRate := by cases u <;> rfl
  have h2 : (s.setSess u x).countSample = s.countSample.setSess u x := by cases u <;> rfl
  have h3 : (s.setSess u x).par = s.par := by cases u <;> rfl
  unfold State.start
  rw [sess_setSess_of_ne s h, h1, h2, h3]
  split
  · exact openLink_setSess_of_ne s h x
  · split
    · cases u <;> rfl
    · rw [setSess_comm _ h, openLink_setSess_of_ne _ h]

/-- A boundary of one unit neither reads nor writes the registers of the other (44_session_control R272). -/
theorem reconfigure_setSess_of_ne (s : State) {u v : SessionUnit} (h : v ≠ u) (x : Session) :
    (s.setSess u x).reconfigure v = (s.reconfigure v).setSess u x := by
  unfold State.reconfigure
  dsimp only
  rw [sess_setSess_of_ne s h, setSess_comm _ h, stop_setSess_of_ne _ h]
  split
  · exact start_setSess_of_ne _ h x
  · rfl

/-! ## Configuration values -/

/-- `CFG.NCH` leaves a legal channel count (44_session_control R293). -/
theorem toNat_clampChannels (n : BitVec 20) : (clampChannels n).toNat = min 254 (max 1 n.toNat) := by
  simp only [clampChannels, Config.nchMax, BitVec.toNat_ofNat]
  omega

/-- `CFG.NAME` leaves a legal name (10_state R32). -/
theorem configuredName_legal (bytes : List Byte) : Safety.NameLegal (configuredName bytes) := by
  have hlen : (nullTerminated (bytes.take 15)).length ≤ 15 := by
    refine le_trans (List.takeWhile_prefix _).length_le ?_
    simp
  have hget : ∀ k (hk : k < 16), (configuredName bytes)[k] = (nullTerminated (bytes.take 15))[k]?.getD 0#8 :=
    fun k hk => getElem_nameOfBytes _ k hk
  constructor
  · rw [hget 15 (by omega), List.getElem?_eq_none (by omega)]; rfl
  · intro i j hij h
    have hi := hget i.val i.isLt
    have hj := hget j.val j.isLt
    have hh : (configuredName bytes)[i.val] = 0#8 := h
    rw [hi] at hh
    show (configuredName bytes)[j.val] = 0#8
    rw [hj]
    have hle : (nullTerminated (bytes.take 15)).length ≤ i.val := by
      by_contra hc
      rw [List.getElem?_eq_getElem (by omega)] at hh
      exact nullTerminated_no_zero _ _ (List.getElem_mem (by omega)) hh
    rw [List.getElem?_eq_none (by have : i.val ≤ j.val := hij; omega)]
    rfl

end Sys2Proof.Laws
end

