-- ==== Sys2Proof/Laws/Step.lean ====
section
/-! SUPPORT. Everything a step can do: nothing, one event, an illegal word, one command. -/

namespace Sys2Proof.Laws

open Sys2Proof.Machine

@[simp] theorem step_nil {s : State} (h : s.inputs = []) : step s = .next s := by
  simp [step, takeInput, h]

theorem step_cons {s : State} {e : Input} {rest : List Input} (h : s.inputs = e :: rest) :
    step s = (match present e { s with inputs := rest } with
      | .done t => .next t
      | .execute i t => exec i t) := by
  unfold step takeInput
  rw [h]
  all_goals rfl

/-- A word on a port: the command it decodes to, or an illegal command (30_encoding R108). -/
theorem step_command {s : State} {p : Port} {w : Word} {rest : List Input} (h : s.inputs = .command p w :: rest) :
    (∃ i, decode w = .ok i ∧ i.port = p ∧ step s = exec i { s with inputs := rest }) ∨
    ((∀ i, decode w = .ok i → i.port ≠ p) ∧ step s = .next ({ s with inputs := rest }.illegalCommand)) := by
  have h1 := step_cons h
  cases hd : decode w with
  | error e =>
    refine .inr ⟨fun i hi => (by cases hi), ?_⟩
    rw [h1, present, presentCommand, hd]
  | ok i =>
    by_cases hp : i.port = p
    · refine .inl ⟨i, rfl, hp, ?_⟩
      rw [h1, present, presentCommand, hd]
      simp [hp]
    · refine .inr ⟨fun j hj => (by cases hj; exact hp), ?_⟩
      rw [h1, present, presentCommand, hd]
      simp [hp]

/-- Every step is one of these: nothing presented, a legal command, an illegal word, a window write, the driven rate, a delivery, a
link failure, the reset input. -/
theorem step_cases (s : State) :
    (s.inputs = [] ∧ step s = .next s) ∨
    ∃ e rest, s.inputs = e :: rest ∧
      ((∃ p w i, e = .command p w ∧ decode w = .ok i ∧ i.port = p ∧ step s = exec i { s with inputs := rest }) ∨
      (∃ p w, e = .command p w ∧ (∀ i, decode w = .ok i → i.port ≠ p) ∧
        step s = .next ({ s with inputs := rest }.illegalCommand)) ∨
      (∃ i x, e = .writeFin i x ∧ step s = .next { s with inputs := rest, fin := s.fin.store i.toNat [x] }) ∨
      (∃ a b, e = .writeBin a b ∧ step s = .next { s with inputs := rest, bin := s.bin.store a.toNat [b] }) ∨
      (∃ a b, e = .writeCin a b ∧ step s = .next { s with inputs := rest, cin := s.cin.store a.val [b] }) ∨
      (∃ hz, e = .driveRate hz ∧ step s = .next { s with inputs := rest, hostRate := some hz }) ∨
      (∃ d, e = .deliver d ∧ step s = .next ({ s with inputs := rest }.deliverDatagram d)) ∨
      (e = .linkFailure ∧ step s = .next ({ s with inputs := rest }.flag .linkerr)) ∨
      (e = .reset ∧ step s = .next { s with inputs := rest }.hardwareReset)) := by
  cases h : s.inputs with
  | nil => exact .inl ⟨rfl, step_nil h⟩
  | cons e rest =>
    refine .inr ⟨e, rest, rfl, ?_⟩
    have h1 := step_cons h
    cases e with
    | command p w =>
      rcases step_command h with ⟨i, h2, h3, h4⟩ | ⟨h2, h3⟩
      · exact .inl ⟨p, w, i, rfl, h2, h3, h4⟩
      · exact .inr (.inl ⟨p, w, rfl, h2, h3⟩)
    | writeFin i x => exact .inr (.inr (.inl ⟨i, x, rfl, h1⟩))
    | writeBin a b => exact .inr (.inr (.inr (.inl ⟨a, b, rfl, h1⟩)))
    | writeCin a b => exact .inr (.inr (.inr (.inr (.inl ⟨a, b, rfl, h1⟩))))
    | driveRate hz => exact .inr (.inr (.inr (.inr (.inr (.inl ⟨hz, rfl, h1⟩)))))
    | deliver d => exact .inr (.inr (.inr (.inr (.inr (.inr (.inl ⟨d, rfl, h1⟩))))))
    | linkFailure => exact .inr (.inr (.inr (.inr (.inr (.inr (.inr (.inl ⟨rfl, h1⟩)))))))
    | reset => exact .inr (.inr (.inr (.inr (.inr (.inr (.inr (.inr ⟨rfl, h1⟩)))))))

/-- The inputs that remain play no part in a command. -/
theorem exec_inputs_par (i : Instr) (s t : State) (h : exec i s = .next t) : t.inputs = s.inputs ∧ t.par = s.par := by
  have hc : ∀ u b, (s.configure u b).inputs = s.inputs ∧ (s.configure u b).par = s.par := by
    intro u b; cases u <;> exact ⟨rfl, rfl⟩
  have hs : ∀ u x, (s.setSess u x).inputs = s.inputs ∧ (s.setSess u x).par = s.par := by
    intro u x; cases u <;> exact ⟨rfl, rfl⟩
  cases i with
  | qF2I => cases h; exact ⟨rfl, rfl⟩
  | qI2F w => cases h; exact ⟨rfl, rfl⟩
  | frmEnc n => cases h; split <;> exact ⟨rfl, rfl⟩
  | frmDec n => cases h; split <;> exact ⟨rfl, rfl⟩
  | hdrEnc => cases h; exact ⟨rfl, rfl⟩
  | hdrDec len => cases h; split <;> exact ⟨rfl, rfl⟩
  | blkBegin u =>
    cases h
    split
    · rcases reconfigure_cases s u with ⟨_, h2⟩ | ⟨_, _, h2⟩ | ⟨_, _, _, h2⟩ | ⟨_, _, i, _, h2⟩ <;> rw [h2] <;> simp
    · exact ⟨rfl, rfl⟩
  | txPush => cases h; split; split; all_goals exact ⟨rfl, rfl⟩
  | txEnd =>
    cases h
    split
    · rw [emitWhileFull_frame]; exact ⟨rfl, rfl⟩
    · exact ⟨rfl, rfl⟩
  | rxParse len => cases h; split; split; all_goals exact ⟨rfl, rfl⟩
  | cfgHost u len => cases h; exact hc _ _
  | cfgPort u port => cases h; exact hc _ _
  | cfgNch u n => cases h; exact hc _ _
  | cfgName u len => cases h; exact hc _ _
  | cfgRun u b => cases h; exact hs _ _
  | cfgSrclr u => cases h; exact hs _ _

end Sys2Proof.Laws
end

