-- ==== Sys2Proof/Tests/Slice0.lean ====
section
/-! SUPPORT. Tests of the model on the spec's own vectors (95_test_vectors) and words (30_encoding), and for every statement with
hypotheses a state and operands that meet them. -/

namespace Sys2Proof.Tests

open Sys2Proof.Machine Sys2Proof.Claims

/-! ## Helpers -/

/-- The next state of an outcome. -/
def after (o : Host.Outcome State Fault Refusal) : Option State :=
  match o with
  | .next t => some t
  | .fault _ => none
  | .refused _ => none

/-- Reset, with `FIN` filled from element 0. -/
def withFin (xs : List Sample) : State := { State.reset with fin := Memory.cells 0 xs }

/-- Reset, with `BIN` filled from offset 0. -/
def withBin (bytes : List Byte) : State := { State.reset with bin := Memory.cells 0 bytes }

/-- Reset, with `CIN` filled from offset 0. -/
def withCin (bytes : List Byte) : State := { State.reset with cin := Memory.cells 0 bytes }

/-- `Stream1`. -/
def stream1 : List Byte := [0x53#8, 0x74#8, 0x72#8, 0x65#8, 0x61#8, 0x6D#8, 0x31#8]

/-- `alpha`. -/
def alpha : List Byte := [0x61#8, 0x6C#8, 0x70#8, 0x68#8, 0x61#8]

/-- A unit that streams with `n` channels, a name and an index. -/
def streamingUnit (n : BitVec 8) (name : List Byte) (idx : BitVec 5) : Session :=
  let bank : Bank := { host := Config.defaultDest, port := Config.defaultPort, nch := n, name := nameOfBytes name }
  { pending := bank, active := bank, pEn := true, pSrclr := false, dirty := false, run := true, srIdx := idx, srFixed := true }

/-- Both units stream: the send unit with two channels under the name `Stream1`, the receive unit under `alpha`
(95_test_vectors 2.7). -/
def streaming : State :=
  { State.reset with tx := streamingUnit 2#8 stream1 3#5, rx := streamingUnit 2#8 alpha 16#5 }

/-- The datagram `G` of 95_test_vectors 2.7: two channels, one sample, index 3, name `alpha`, counter 42, payload
`00 40 00 C0`. -/
def datagramG : List Byte :=
  [0x56#8, 0x42#8, 0x41#8, 0x4E#8, 0x03#8, 0x00#8, 0x01#8, 0x01#8] ++ alpha ++ List.replicate 11 0x00#8 ++
    [0x2A#8, 0x00#8, 0x00#8, 0x00#8] ++ [0x00#8, 0x40#8, 0x00#8, 0xC0#8]

/-- `G` with byte `k` replaced. -/
def datagramWith (k : Nat) (b : Byte) : List Byte := datagramG.set k b

/-- The streaming state with a datagram in `BIN`. -/
def received (bytes : List Byte) : State := { streaming with bin := Memory.cells 0 bytes }

/-- A unit with a pending start request. -/
def starting (x : Session) : Session := { x with pEn := true, dirty := true }

/-- Reset, with the rate driven and a start requested for the send unit. -/
def startRequested (hz : BitVec 20) : State :=
  { State.reset with hostRate := some hz, tx := starting State.reset.tx }

/-! ## Well-formedness: an ill-formed term for each check (30_encoding R104) -/

theorem test_wellFormed_refuses_frmEnc_zero : (Instr.frmEnc 0#9).wellFormed = false := by decide
theorem test_wellFormed_refuses_frmEnc_257 : (Instr.frmEnc 257#9).wellFormed = false := by decide
theorem test_wellFormed_refuses_frmDec_zero : (Instr.frmDec 0#9).wellFormed = false := by decide
theorem test_wellFormed_refuses_frmDec_511 : (Instr.frmDec 511#9).wellFormed = false := by decide
theorem test_wellFormed_accepts_the_ends :
    (Instr.frmEnc 1#9).wellFormed = true ∧ (Instr.frmDec 256#9).wellFormed = true := by decide

/-! ## Decoding: one word per command, bit by bit from 30_encoding R101 and R104 (op, u, rsv, arg) -/

theorem test_decode_qF2I : decode 0b00000001_0_000_00000000000000000000#32 = .ok .qF2I := by rfl
theorem test_decode_qI2F : decode 0b00000010_0_000_00001100000000000001#32 = .ok (.qI2F 0xC001#16) := by rfl
theorem test_decode_frmEnc : decode 0b00000011_0_000_00000000000100000000#32 = .ok (.frmEnc 256#9) := by rfl
theorem test_decode_frmDec : decode 0b00000100_0_000_00000000000000000011#32 = .ok (.frmDec 3#9) := by rfl
theorem test_decode_hdrEnc : decode 0b00000101_0_000_00000000000000000000#32 = .ok .hdrEnc := by rfl
theorem test_decode_hdrDec : decode 0b00000110_0_000_00000000000000011100#32 = .ok (.hdrDec 28#16) := by rfl
theorem test_decode_blkBegin : decode 0b00010000_1_000_00000000000000000000#32 = .ok (.blkBegin .rx) := by rfl
theorem test_decode_txPush : decode 0b00010001_0_000_00000000000000000000#32 = .ok .txPush := by rfl
theorem test_decode_txEnd : decode 0b00010010_0_000_00000000000000000000#32 = .ok .txEnd := by rfl
theorem test_decode_rxParse : decode 0b00011000_0_000_00000000010000011100#32 = .ok (.rxParse 1052#16) := by rfl
theorem test_decode_cfgHost : decode 0b00100000_0_000_00000000000011111111#32 = .ok (.cfgHost .tx 255#8) := by rfl
theorem test_decode_cfgPort : decode 0b00100001_1_000_00000001101101000100#32 = .ok (.cfgPort .rx 6980#16) := by rfl
theorem test_decode_cfgNch : decode 0b00100010_0_000_11111111111111111111#32 = .ok (.cfgNch .tx 1048575#20) := by rfl
theorem test_decode_cfgName : decode 0b00100011_1_000_00000000000000000100#32 = .ok (.cfgName .rx 4#8) := by rfl
theorem test_decode_cfgRun : decode 0b00100100_0_000_00000000000000000001#32 = .ok (.cfgRun .tx true) := by rfl
theorem test_decode_cfgSrclr : decode 0b00100101_1_000_00000000000000000000#32 = .ok (.cfgSrclr .rx) := by rfl

/-- 95_test_vectors V-I1 to V-I16, V-I19: words that are no command on any port. -/
theorem test_decode_rejects :
    [0x00000000, 0x07000000, 0x13000000, 0x26000000, 0xFF000000, 0x01000001, 0x01800000, 0x01100000, 0x02010000, 0x03000000,
      0x03000101, 0x12800000, 0x18010000, 0x24000002, 0x20000100, 0x21010000, 0x25000001, 0x10100000].all
      (fun w => decodeTableWord 32 w == none) = true := by rfl

/-- 95_test_vectors V-I17, V-I18: a legal word on the other port is an illegal command. -/
theorem test_wrong_port :
    presentCommand .audio 0x22000002#32 State.reset = .done { State.reset with status := 0b000100#6 } ∧
      presentCommand .control 0x11000000#32 State.reset = .done { State.reset with status := 0b000100#6 } := by
  decide

/-- Log entry 2: a word placed at reset is the next step. -/
theorem test_step_runs_placed_word :
    (after (step (State.reset.withFetchWord 32 0x02008000))).map (fun t => t.fout) = some [(0, 0xBF800000#32)] := by rfl

/-! ## Sample Codec (95_test_vectors 2.1 to 2.3) -/

/-- V-Q10: -0.999 truncates toward zero. -/
theorem test_qF2I_truncates :
    (after (exec .qF2I (withFin [0xBF7FBE77#32]))).map (fun t => (t.qRes, t.bout, t.status)) =
      some (0x8021#16, [(0, 0x21#8), (1, 0x80#8)], 0#6) := by decide

/-- V-Q22: -32769 wraps and raises QOVF. -/
theorem test_qF2I_wraps :
    (after (exec .qF2I (withFin [0xBF800100#32]))).map (fun t => (t.qRes, t.status)) =
      some (0x7FFF#16, 0b000001#6) := by decide

/-- V-D13: -3276. -/
theorem test_qI2F_negative :
    (after (exec (.qI2F 0xF334#16) State.reset)).map (fun t => (t.fout, t.status)) =
      some ([(0, 0xBDCCC000#32)], 0#6) := by decide

/-- V-F4: NaN, 0.999, +1.0: both flags, each lane on its own. -/
theorem test_frmEnc_flags :
    (after (exec (.frmEnc 3#9) (withFin [0x7FC00000#32, 0x3F7FBE77#32, 0x3F800000#32]))).map
        (fun t => (t.bout.map Prod.snd, t.status)) =
      some ([0x00#8, 0x00#8, 0xDF#8, 0x7F#8, 0x00#8, 0x80#8], 0b000011#6) := by decide

/-- V-F9: `N = 0` is illegal and writes nothing. -/
theorem test_frmEnc_zero :
    (after (exec (.frmEnc 0#9) (withFin [0x3F000000#32]))).map (fun t => (t.bout, t.status)) =
      some ([], 0b000100#6) := by decide

/-- V-F6. -/
theorem test_frmDec_two :
    (after (exec (.frmDec 2#9) (withBin [0xDF#8, 0x7F#8, 0x21#8, 0x80#8]))).map (fun t => t.fout) =
      some [(0, 0x3F7FBE00#32), (1, 0xBF7FBE00#32)] := by decide

/-! ## Header Codec (95_test_vectors 2.4) -/

/-- V-H2. -/
theorem test_hdrEnc_stream1 :
    (after (exec .hdrEnc streaming)).map (fun t => t.bout.map Prod.snd) =
      some ([0x56#8, 0x42#8, 0x41#8, 0x4E#8, 0x03#8, 0xFF#8, 0x01#8, 0x01#8] ++ stream1 ++ List.replicate 13 0x00#8) := by
  decide

/-- V-H7: 27 bytes are no header, and none is read. -/
theorem test_hdrDec_short :
    (after (exec (.hdrDec 27#16) State.reset)).map (fun t => (t.hdrOk, t.hd)) = some (false, Header.zero) := by rfl

/-- V-H5 on the header of `G`: the fields, the counter low byte first. -/
theorem test_hdrDec_fields :
    (after (exec (.hdrDec 28#16) (withBin datagramG))).map
        (fun t => (t.hdrOk, t.hd.srIndex, t.hd.subproto, t.hd.rsv7, t.hd.nbs, t.hd.nbc, t.hd.bit, t.hd.nuFrame)) =
      some (true, 3#5, 0#2, 0#1, 0x00#8, 0x01#8, 0x01#8, 42#32) := by decide

/-! ## Packet Assembler (95_test_vectors 2.5, 2.6) -/

/-- Two channels at 0.5 and -0.5: the frame stands at 28 and the cursor at 32. -/
theorem test_txPush_appends :
    (after (exec .txPush { streaming with fin := Memory.cells 0 [0x3F000000#32, 0xBF000000#32] })).map
        (fun t => (t.wpos, t.abuf)) =
      some (32, [(28, 0x00#8), (29, 0x40#8), (30, 0x00#8), (31, 0xC0#8)]) := by decide

/-- 42_packet_assembler R213: two bytes short of the end a two-channel frame does not fit. -/
theorem test_txPush_overflow :
    (after (exec .txPush { streaming with wpos := streaming.par.abufCap - 2 })).map (fun t => (t.abuf, t.status)) =
      some ([], 0b010000#6) := by decide

/-- One byte below a full packet nothing is sent; a full packet is sent and the residue of one frame carried down
(42_packet_assembler R216, `CAP(2) = 1024`). -/
theorem test_txEnd_below : (after (exec .txEnd { streaming with wpos := 1048 })).map (fun t => (t.wpos, t.linkOut)) =
    some (1048, []) := by decide
theorem test_txEnd_carries : (after (exec .txEnd { streaming with wpos := 1056 })).map
    (fun t => (t.wpos, t.nuFrame, t.linkOut.length)) = some (32, 1#32, 1) := by decide

/-! ## Packet Parser (95_test_vectors 2.7) -/

/-- V-P1. -/
theorem test_rxParse_accepts :
    (after (exec (.rxParse 32#16) (received datagramG))).map
        (fun t => ((t.rxReason, t.rxValid, t.rxNch, t.rxNs), (t.rxSrIdx, t.rxNuFrame), t.chbuf)) =
      some ((0#4, true, 2#9, 1#9), (3#5, 42#32), [(0, 0x3F000000#32), (256, 0xBF000000#32)]) := by decide

/-- V-P5: index 30. -/
theorem test_rxParse_bad_rate :
    (after (exec (.rxParse 32#16) (received (datagramWith 4 0x1E#8)))).map (fun t => (t.rxReason, t.rxValid)) =
      some (6#4, false) := by decide

/-! ## Session (95_test_vectors 2.8) -/

/-- V-S2. -/
theorem test_blkBegin_starts :
    (after (exec (.blkBegin .tx) (startRequested 48000#20))).map
        (fun t => (t.tx.run, t.tx.srIdx, t.tx.srFixed, t.tx.dirty, t.linkOut)) =
      some (true, 3#5, true, false, [.opened .tx Config.defaultDest 13251#16]) := by decide

/-- V-S4: 50000 is in no row of the table. -/
theorem test_blkBegin_rate_mismatch :
    (after (exec (.blkBegin .tx) (startRequested 50000#20))).map
        (fun t => ((t.tx.run, t.tx.srFixed, t.tx.dirty, t.tx.pEn), t.linkOut, t.status)) =
      some ((false, false, false, true), [], 0b001000#6) := by decide

/-- V-S16, its first byte order: the bytes of `CIN` in order. -/
theorem test_cfgHost :
    (after (exec (.cfgHost .rx 2#8) (withCin [0x31#8, 0x39#8, 0x32#8]))).map
        (fun t => (t.rx.pending.host, t.rx.dirty, t.rx.active.host, t.tx.dirty)) =
      some ([0x31#8, 0x39#8], true, [], false) := by decide

/-- V-S17's word. -/
theorem test_cfgPort :
    (after (exec (.cfgPort .rx 6980#16) State.reset)).map (fun t => (t.rx.pending.port, t.rx.active.port, t.tx.pending.port)) =
      some (6980#16, 13251#16, 13251#16) := by decide

/-- V-S13. -/
theorem test_cfgNch_clamps :
    (after (exec (.cfgNch .tx 0#20) State.reset)).map (fun t => t.tx.pending.nch) = some 1#8 ∧
      (after (exec (.cfgNch .tx 1048575#20) State.reset)).map (fun t => t.tx.pending.nch) = some 254#8 := by decide

/-- V-S14: the name stops at the embedded 00. -/
theorem test_cfgName_embedded_zero :
    (after (exec (.cfgName .rx 4#8) (withCin [0x41#8, 0x42#8, 0x00#8, 0x43#8]))).map (fun t => t.rx.pending.name.toList) =
      some ([0x41#8, 0x42#8] ++ List.replicate 14 0x00#8) := by decide

/-- 44_session_control R294: twenty characters keep fifteen (program P3). -/
theorem test_cfgName_truncates :
    (after (exec (.cfgName .tx 20#8) (withCin (List.replicate 20 0x41#8)))).map (fun t => t.tx.pending.name.toList) =
      some (List.replicate 15 0x41#8 ++ [0x00#8]) := by decide

/-- V-S9's word. -/
theorem test_cfgRun_stop :
    (after (exec (.cfgRun .tx false) streaming)).map (fun t => (t.tx.pEn, t.tx.dirty, t.tx.run, t.rx.dirty)) =
      some (false, true, true, false) := by decide

/-- V-S8's word. -/
theorem test_cfgSrclr :
    (after (exec (.cfgSrclr .tx) streaming)).map (fun t => (t.tx.pSrclr, t.tx.dirty, t.tx.srFixed)) =
      some (true, true, true) := by decide

/-! ## Witnesses: inputs that meet the hypotheses of every statement that has some -/

/-! ### Presentation and encoding -/

theorem witness_ResetInputRestoresResetState : { State.reset with inputs := [.reset] }.inputs = Input.reset :: [] := rfl

theorem witness_StepRunsTheDecodedCommand :
    { State.reset with inputs := [.command .control 0x24000001#32] }.inputs = Input.command .control 0x24000001#32 :: [] ∧
      decode 0x24000001#32 = .ok (.cfgRun .tx true) ∧ (Instr.cfgRun .tx true).port = .control := by
  refine ⟨rfl, rfl, rfl⟩

theorem witness_PlacedWordRunsFirst : decodeTableWord 32 0x12000000 = some .txEnd := by rfl

/-- Both clauses, where they meet: `FRM.ENC 256` is legal on the audio port, `FRM.ENC 257` and `FRM.ENC 256` on the control port
are not. -/
theorem witness_IllegalWordSetsIllcmdOnly :
    LegalCommand .audio 0x03000100#32 ∧ ¬ LegalCommand .audio 0x03000101#32 ∧ ¬ LegalCommand .control 0x03000100#32 := by
  unfold LegalCommand; decide

theorem witness_DecoderAgreesWithOpcodeTable :
    decode 0x03000100#32 = .ok (.frmEnc 256#9) ∧ 0x03000100#32 &&& tableMask (.frmEnc 1#9) = tableMatch (.frmEnc 1#9) ∧
      tableConstraint (.frmEnc 1#9) 0x03000100#32 := by
  refine ⟨rfl, by decide, by unfold tableConstraint; decide⟩

theorem witness_DecodeInvertsEncode : (Instr.frmDec 256#9).wellFormed = true := by decide

theorem witness_EncodeInvertsDecode : decode 0x23800004#32 = .ok (.cfgName .rx 4#8) := by rfl

/-! ### Sample Codec -/

/-- `v` for a finite pattern, by 40_sample_codec R141 and R143 in whole numbers. -/
theorem truncRat_scaled_eq {x : Sample} {v : Int} (h : scaledTrunc x = v) : truncRat (scaled x) = v :=
  (Laws.truncRat_scaled x).trans h

/-- In range at both ends (V-Q19, V-Q20), one step out of range at both ends (V-Q21, V-Q22), and not finite (V-Q32, V-Q36). -/
theorem witness_QuantizerTruncatesExactly :
    (FiniteSample 0x3F7FFFFF#32 ∧ -32768 ≤ truncRat (scaled 0x3F7FFFFF#32) ∧ truncRat (scaled 0x3F7FFFFF#32) ≤ 32767) ∧
      (FiniteSample 0xBF800000#32 ∧ -32768 ≤ truncRat (scaled 0xBF800000#32) ∧ truncRat (scaled 0xBF800000#32) ≤ 32767) ∧
      (FiniteSample 0x3F800000#32 ∧ 32767 < truncRat (scaled 0x3F800000#32)) ∧
      (FiniteSample 0xBF800100#32 ∧ truncRat (scaled 0xBF800100#32) < -32768) ∧
      ¬ FiniteSample 0x7FC00000#32 ∧ ¬ FiniteSample 0xFF800000#32 := by
  rw [truncRat_scaled_eq (v := 32767) (by decide), truncRat_scaled_eq (v := -32768) (by decide),
    truncRat_scaled_eq (v := 32768) (by decide), truncRat_scaled_eq (v := -32769) (by decide)]
  unfold FiniteSample
  decide

/-- The exact value of a normal pattern from its fields (00_scope R11). -/
theorem realValue_normal {x : Sample} {e f : Nat} (he : expField x = e) (hf : fracField x = f) (h0 : e ≠ 0) :
    realValue x = (if signBit x then -1 else 1) * (2 ^ 23 + f) * (2 : ℚ) ^ ((e : ℤ) - 150) := by
  subst he; subst hf
  simp only [realValue, if_neg h0]

/-- 0.5 is in range, and so is -0.5. -/
theorem inRange_half : InRange 0x3F000000#32 ∧ InRange 0xBF000000#32 := by
  have h1 : realValue 0x3F000000#32 = 1 / 2 := by
    rw [realValue_normal (e := 126) (f := 0) (by decide) (by decide) (by decide),
      if_neg (by decide)]
    norm_num
  have h2 : realValue 0xBF000000#32 = -(1 / 2) := by
    rw [realValue_normal (e := 126) (f := 0) (by decide) (by decide) (by decide), if_pos (by decide)]
    norm_num
  refine ⟨⟨by unfold FiniteSample; decide, ?_, ?_⟩, ⟨by unfold FiniteSample; decide, ?_, ?_⟩⟩ <;>
    simp only [scaled, h1, h2] <;> norm_num

/-- The ends of the range: the binary32 below 1.0 and the one below -1.0 (V-Q19, V-Q23). -/
theorem inRange_ends : InRange 0x3F7FFFFF#32 ∧ InRange 0xBF800001#32 := by
  have h1 : realValue 0x3F7FFFFF#32 = 16777215 / 16777216 := by
    rw [realValue_normal (e := 126) (f := 8388607) (by decide) (by decide) (by decide), if_neg (by decide)]
    norm_num
  have h2 : realValue 0xBF800001#32 = -(8388609 / 8388608) := by
    rw [realValue_normal (e := 127) (f := 1) (by decide) (by decide) (by decide), if_pos (by decide)]
    norm_num
  refine ⟨⟨by unfold FiniteSample; decide, ?_, ?_⟩, ⟨by unfold FiniteSample; decide, ?_, ?_⟩⟩ <;>
    simp only [scaled, h1, h2] <;> norm_num

/-- Just below `2^-15`, `2^-15`, `-2^-15` (V-Q13, V-Q11, V-Q12). -/
theorem witness_QuantizerTinyInputs :
    (FiniteSample 0x37FFFFFF#32 ∧ |realValue 0x37FFFFFF#32| < (2 : ℚ) ^ (-15 : ℤ)) ∧
      (FiniteSample 0x38000000#32 ∧ realValue 0x38000000#32 = (2 : ℚ) ^ (-15 : ℤ)) ∧
      (FiniteSample 0xB8000000#32 ∧ realValue 0xB8000000#32 = -(2 : ℚ) ^ (-15 : ℤ)) := by
  refine ⟨⟨by unfold FiniteSample; decide, ?_⟩, ⟨by unfold FiniteSample; decide, ?_⟩, ⟨by unfold FiniteSample; decide, ?_⟩⟩
  · rw [realValue_normal (e := 111) (f := 8388607) (by decide) (by decide) (by decide), if_neg (by decide)]
    norm_num [abs_of_pos]
  · rw [realValue_normal (e := 112) (f := 0) (by decide) (by decide) (by decide), if_neg (by decide)]
    norm_num
  · rw [realValue_normal (e := 112) (f := 0) (by decide) (by decide) (by decide), if_pos (by decide)]
    norm_num

theorem witness_QuantizerLaws :
    (InRange 0xBF800001#32 ∧ InRange 0x3F7FFFFF#32 ∧ realValue 0xBF800001#32 ≤ realValue 0x3F7FFFFF#32) ∧
      (InRange 0x3F000000#32 ∧ InRange (0x3F000000#32 ^^^ 0x80000000#32)) := by
  refine ⟨⟨inRange_ends.2, inRange_ends.1, ?_⟩, inRange_half.1, inRange_half.2⟩
  rw [realValue_normal (e := 127) (f := 1) (by decide) (by decide) (by decide),
    realValue_normal (e := 126) (f := 8388607) (by decide) (by decide) (by decide), if_pos (by decide), if_neg (by decide)]
  norm_num

/-- `k = 0`, `k = 14`, `k = 15`: the magnitudes 1, 32767 and 32768. -/
theorem witness_DequantizerIsExact :
    (2 ^ 0 ≤ (0xFFFF#16).toInt.natAbs ∧ (0xFFFF#16).toInt.natAbs < 2 ^ 1) ∧
      (2 ^ 14 ≤ (0x7FFF#16).toInt.natAbs ∧ (0x7FFF#16).toInt.natAbs < 2 ^ 15) ∧
      (2 ^ 15 ≤ (0x8000#16).toInt.natAbs ∧ (0x8000#16).toInt.natAbs < 2 ^ 16) := by decide

theorem witness_DequantizerRange : qdec 0x8000#16 = qdec 0x8000#16 := rfl

theorem witness_SampleRoundTrips : InRange 0x3F7FFFFF#32 ∧ InRange 0xBF800001#32 := inRange_ends

theorem witness_FrameEncodeLayout : 1 < [0x3F000000#32, 0xBF000000#32].length := by decide

theorem witness_FrameDecodeInverted : 0 < (frameDecode 1 (fun _ => 0x40#8)).length := by decide

/-- The ends of `N` and the values beside them. -/
theorem witness_FrameEncodeCommandResult :
    (1 ≤ (1#9).toNat ∧ (1#9).toNat ≤ 256) ∧ (1 ≤ (256#9).toNat ∧ (256#9).toNat ≤ 256) ∧
      ¬ (1 ≤ (0#9).toNat ∧ (0#9).toNat ≤ 256) ∧ ¬ (1 ≤ (257#9).toNat ∧ (257#9).toNat ≤ 256) ∧
      ¬ (1 ≤ (257#20).toNat ∧ (257#20).toNat ≤ 256) := by decide

theorem witness_FrameDecodeCommandResult :
    (1 ≤ (1#9).toNat ∧ (1#9).toNat ≤ 256) ∧ (1 ≤ (256#9).toNat ∧ (256#9).toNat ≤ 256) ∧
      ¬ (1 ≤ (0#9).toNat ∧ (0#9).toNat ≤ 256) ∧ ¬ (1 ≤ (511#9).toNat ∧ (511#9).toNat ≤ 256) ∧
      ¬ (1 ≤ (512#20).toNat ∧ (512#20).toNat ≤ 256) := by decide

/-! ### Header Codec -/

theorem decided_default : Config.defaultParams.DecidedCodes := ⟨rfl, rfl, rfl⟩

/-- Both ends of the channel count. -/
theorem witness_HeaderEncodeCommandResult :
    (State.reset.par.DecidedCodes ∧ 1 ≤ State.reset.tx.active.nch.toNat ∧ State.reset.tx.active.nch.toNat ≤ 254) ∧
      (1 ≤ (streamingUnit 254#8 stream1 3#5).active.nch.toNat ∧ (streamingUnit 254#8 stream1 3#5).active.nch.toNat ≤ 254) := by
  refine ⟨⟨decided_default, by decide, by decide⟩, by decide, by decide⟩

theorem binAt_received {bytes : List Byte} {k : Nat} {b : Byte} (h : bytes[k]? = some b) : (received bytes).binAt k = b := by
  simp only [State.binAt, received, Laws.read_cells, Nat.zero_le, if_true, Nat.sub_zero, h]
  rfl

/-- An accepted header of 28 bytes, and the same bytes one short. -/
theorem witness_HeaderDecodeCommandResult :
    (received datagramG).par.DecidedCodes ∧ HeaderAccepted (received datagramG).binAt 28 ∧
      ¬ HeaderAccepted (received datagramG).binAt 27 := by
  refine ⟨decided_default, ⟨by decide, ⟨binAt_received rfl, binAt_received rfl, binAt_received rfl, binAt_received rfl⟩, ?_,
    binAt_received rfl⟩, fun h => absurd h.1 (by decide)⟩
  rw [binAt_received (b := 0x03#8) rfl]
  decide

/-- The header of V-H3 (section 1, S1) and the bytes it encodes to. -/
def headerMix : Header where
  srIndex := 16#5
  subproto := 0#2
  rsv7 := 0#1
  nbs := 0x57#8
  nbc := 0x07#8
  bit := 0x01#8
  name := nameOfBytes [0x4D#8, 0x69#8, 0x78#8]
  nuFrame := 0xFFFFFFFF#32

theorem witness_HeaderRoundTrips :
    (headerMix.srIndex.toNat < 21 ∧ headerMix.bit = pcm16 Config.defaultParams ∧
      ∀ k, k < 28 → (hdrEncode headerMix)[k]? = some ((hdrEncode headerMix)[k]?.getD 0#8)) ∧
      hdrDecode Config.defaultParams (fun k => (hdrEncode headerMix)[k]?.getD 0#8) 28 = some headerMix := by
  refine ⟨⟨by decide, by decide, fun k hk => ?_⟩, by decide⟩
  rw [List.getElem?_eq_getElem (by rw [Laws.length_hdrEncode]; exact hk)]
  rfl

theorem witness_HeaderDecodeAgreesWithParser :
    (received datagramG).par.DecidedCodes ∧ (received datagramG).rx.run = true ∧ (received datagramG).binAt 4 &&& 0xE0#8 = 0#8 ∧
      (∃ t, exec (.hdrDec 32#16) (received datagramG) = .next t) ∧ ∃ t, exec (.rxParse 32#16) (received datagramG) = .next t := by
  refine ⟨decided_default, rfl, ?_, ⟨_, rfl⟩, ⟨_, rfl⟩⟩
  rw [binAt_received (b := 0x03#8) rfl]
  decide

/-! ### Packet Assembler -/

theorem witness_PacketSizeBounds : (1 ≤ 1 ∧ 1 ≤ 254) ∧ (1 ≤ 3 ∧ 3 ≤ 254 ∧ 3 ≤ 3) ∧ (1 ≤ 254 ∧ 254 ≤ 254) := by decide

/-- Idle; the last cursor at which a two-channel frame fits, and the next one; the first frame after the header. -/
theorem witness_PushCommandResult :
    State.reset.tx.run = false ∧
      ({ streaming with wpos := 2097148 }.tx.run = true ∧
        { streaming with wpos := 2097148 }.wpos + 2 * { streaming with wpos := 2097148 }.tx.active.nch.toNat ≤
          { streaming with wpos := 2097148 }.par.abufCap) ∧
      ({ streaming with wpos := 2097149 }.tx.run = true ∧
        { streaming with wpos := 2097149 }.par.abufCap <
          { streaming with wpos := 2097149 }.wpos + 2 * { streaming with wpos := 2097149 }.tx.active.nch.toNat) ∧
      (streaming.tx.run = true ∧ streaming.wpos = 28 + 0 * (2 * streaming.tx.active.nch.toNat) ∧
        1 < streaming.tx.active.nch.toNat ∧
        streaming.wpos + 2 * streaming.tx.active.nch.toNat ≤ streaming.par.abufCap) := by decide

theorem witness_IdleUnitsIgnoreDatapathCommands : State.reset.tx.run = false ∧ State.reset.rx.run = false := by decide

/-- Idle; an empty buffer: no turn; a full packet and a residue: one turn. -/
theorem witness_EndOfBlockEmitsEveryFullPacket :
    State.reset.tx.run = false ∧ (streaming.tx.run = true ∧ 1 ≤ streaming.tx.active.nch.toNat ∧ streaming.tx.active.nch.toNat ≤ 254 ∧
      28 ≤ streaming.wpos ∧ (streaming.wpos - 28) / payloadCap streaming.tx.active.nch.toNat = 0) ∧
      ({ streaming with wpos := 1056 }.tx.run = true ∧ 28 ≤ { streaming with wpos := 1056 }.wpos ∧
        0 < ({ streaming with wpos := 1056 }.wpos - 28) / payloadCap { streaming with wpos := 1056 }.tx.active.nch.toNat ∧
        3 < ({ streaming with wpos := 1056 }.wpos - 28) % payloadCap { streaming with wpos := 1056 }.tx.active.nch.toNat) := by
  decide

theorem witness_EndOfBlockLeavesNoFullPacket :
    { streaming with wpos := 1052 }.tx.run = true ∧ 1 ≤ { streaming with wpos := 1052 }.tx.active.nch.toNat ∧
      { streaming with wpos := 1052 }.tx.active.nch.toNat ≤ 254 ∧ 28 ≤ { streaming with wpos := 1052 }.wpos ∧
      ∃ t, exec .txEnd { streaming with wpos := 1052 } = .next t := by
  refine ⟨by decide, by decide, by decide, by decide, _, rfl⟩

/-- A push that fits, and an end of block that emits. -/
theorem witness_NoFrameIsLostOrDuplicated :
    (1 ≤ streaming.tx.active.nch.toNat ∧ streaming.tx.active.nch.toNat ≤ 254 ∧ 28 ≤ streaming.wpos ∧
      Instr.txPush ≠ .blkBegin .tx ∧ (∃ t, exec .txPush streaming = .next t) ∧ streaming.tx.run = true ∧
      streaming.wpos + 2 * streaming.tx.active.nch.toNat ≤ streaming.par.abufCap) ∧
      (28 ≤ { streaming with wpos := 1056 }.wpos ∧ Instr.txEnd ≠ .blkBegin .tx ∧
        ∃ t, exec .txEnd { streaming with wpos := 1056 } = .next t) := by
  refine ⟨⟨by decide, by decide, by decide, by decide, ⟨_, rfl⟩, by decide, by decide⟩, by decide, by decide, _, rfl⟩

/-! ### Packet Parser -/

/-- The bytes of a received datagram, where a test looks at them. -/
theorem binAt_received_fun (bytes : List Byte) (k : Nat) (h : k < bytes.length) :
    (received bytes).binAt k = (fun j => bytes[j]?.getD 0#8) k := by
  rw [binAt_received (List.getElem?_eq_getElem h)]
  simp [h]

/-- Steps 3 to 8 read the bytes as the list gives them. -/
theorem stepFails_received {bytes : List Byte} (h : 28 ≤ bytes.length) (check : SubprotoCheck) (len : Nat) (sub : Name)
    (k : Nat) :
    StepFails check (received bytes).binAt len sub k ↔ StepFails check (fun j => bytes[j]?.getD 0#8) len sub k := by
  have hb : ∀ j, j < 28 → (received bytes).binAt j = (fun j => bytes[j]?.getD 0#8) j := fun j hj =>
    binAt_received_fun bytes j (by omega)
  have hn : nameField (received bytes).binAt = nameField (fun j => bytes[j]?.getD 0#8) :=
    List.map_congr_left (fun j hj => hb _ (by rw [List.mem_range] at hj; omega))
  unfold StepFails
  rw [hn, hb 0 (by omega), hb 1 (by omega), hb 2 (by omega), hb 3 (by omega), hb 4 (by omega), hb 5 (by omega),
    hb 6 (by omega), hb 7 (by omega)]

/-- The least failing step of a datagram of the list's bytes, as a test decides it. -/
def failsAt (bytes : List Byte) (len : Nat) (sub : Name) (k : Nat) : Prop :=
  StepFails .withReserved (fun j => bytes[j]?.getD 0#8) len sub k ∧
    ∀ j, j < k → ¬ StepFails .withReserved (fun j => bytes[j]?.getD 0#8) len sub j

/-- The hypotheses of the statement, on the state that has received the datagram. -/
def rejectsAt (bytes : List Byte) (len : BitVec 16) (k : Nat) : Prop :=
  (received bytes).par.DecidedCodes ∧ (received bytes).rx.run = true ∧ k ≤ 8 ∧
    StepFails (received bytes).par.subprotoCheck (received bytes).binAt len.toNat (received bytes).rx.active.name k ∧
    ∀ j, j < k →
      ¬ StepFails (received bytes).par.subprotoCheck (received bytes).binAt len.toNat (received bytes).rx.active.name j

theorem rejectsAt_of_failsAt {bytes : List Byte} (h : 28 ≤ bytes.length) {len : BitVec 16} {k : Nat} (hk : k ≤ 8)
    (hf : failsAt bytes len.toNat (nameOfBytes alpha) k) : rejectsAt bytes len k :=
  ⟨decided_default, rfl, hk, (stepFails_received h _ _ _ k).mpr hf.1,
    fun j hj hc => hf.2 j hj ((stepFails_received h _ _ _ j).mp hc)⟩

/-- 95_test_vectors 2.7: a datagram for each of the eight reasons, each breaking one thing of `G`. -/
theorem witness_ParseCommandResult_rejects :
    rejectsAt datagramG 27#16 1 ∧ rejectsAt (datagramWith 0 0x58#8) 32#16 2 ∧ rejectsAt (datagramWith 4 0x23#8) 32#16 3 ∧
      rejectsAt (datagramWith 7 0x09#8) 32#16 4 ∧ rejectsAt (datagramWith 7 0x02#8) 32#16 5 ∧
      rejectsAt (datagramWith 4 0x15#8) 32#16 6 ∧ rejectsAt (datagramWith 8 0x41#8) 32#16 7 ∧
      rejectsAt (datagramWith 5 0x01#8) 32#16 8 := by
  refine ⟨rejectsAt_of_failsAt (by decide) (by decide) ?_, rejectsAt_of_failsAt (by decide) (by decide) ?_,
    rejectsAt_of_failsAt (by decide) (by decide) ?_, rejectsAt_of_failsAt (by decide) (by decide) ?_,
    rejectsAt_of_failsAt (by decide) (by decide) ?_, rejectsAt_of_failsAt (by decide) (by decide) ?_,
    rejectsAt_of_failsAt (by decide) (by decide) ?_, rejectsAt_of_failsAt (by decide) (by decide) ?_⟩ <;> constructor
  all_goals first
    | (simp only [StepFails]; decide)
    | (intro j hj; interval_cases j <;> simp only [StepFails] <;> decide)

/-- A datagram that fails at none of the eight steps fails at none. -/
theorem stepFails_none {check : SubprotoCheck} {b : Nat → Byte} {len : Nat} {sub : Name}
    (h : ∀ k, k < 9 → ¬ StepFails check b len sub k) (k : Nat) : ¬ StepFails check b len sub k := by
  by_cases hk : k < 9
  · exact h k hk
  · obtain ⟨m, rfl⟩ := Nat.exists_eq_add_of_le (by omega : 9 ≤ k)
    rw [Nat.add_comm]
    exact fun h => h

/-- Idle; and a datagram that fails at no step, at the highest index and at the exact length. -/
theorem witness_ParseCommandResult :
    State.reset.rx.run = false ∧ (received (datagramWith 4 0x14#8)).par.DecidedCodes ∧
      (received (datagramWith 4 0x14#8)).rx.run = true ∧
      ∀ k, ¬ StepFails (received (datagramWith 4 0x14#8)).par.subprotoCheck (received (datagramWith 4 0x14#8)).binAt
        (32#16).toNat (received (datagramWith 4 0x14#8)).rx.active.name k := by
  refine ⟨rfl, decided_default, rfl, stepFails_none fun k hk => ?_⟩
  rw [stepFails_received (by decide)]
  interval_cases k <;> simp only [StepFails] <;> decide

/-- The streaming state that has received a datagram, in an implementation that ignores the reserved bit 7. -/
def receivedLoose (bytes : List Byte) : State :=
  { received bytes with par := { Config.defaultParams with subprotoCheck := .withoutReserved } }

/-- V-P11 under the mask `0x60`: the datagram with bit 7 of byte 4 set fails at no step; under `0xE0` it fails at step 3. -/
theorem witness_ParseCommandResult_masks :
    ((receivedLoose (datagramWith 4 0x83#8)).par.DecidedCodes ∧ (receivedLoose (datagramWith 4 0x83#8)).rx.run = true ∧
      ∀ k, ¬ StepFails (receivedLoose (datagramWith 4 0x83#8)).par.subprotoCheck
        (receivedLoose (datagramWith 4 0x83#8)).binAt (32#16).toNat
        (receivedLoose (datagramWith 4 0x83#8)).rx.active.name k) ∧
      rejectsAt (datagramWith 4 0x83#8) 32#16 3 := by
  refine ⟨⟨⟨rfl, rfl, rfl⟩, rfl, stepFails_none fun k hk => ?_⟩, rejectsAt_of_failsAt (by decide) (by decide) ⟨?_, ?_⟩⟩
  · show ¬ StepFails .withoutReserved (received (datagramWith 4 0x83#8)).binAt 32 (nameOfBytes alpha) k
    rw [stepFails_received (by decide)]
    interval_cases k <;> simp only [StepFails] <;> decide
  · simp only [StepFails]; decide
  · intro j hj
    interval_cases j <;> simp only [StepFails] <;> decide

/-- Two states whose `BIN` differs beyond the datagram only. -/
theorem witness_ParserReadsOnlyItsDatagram :
    (received datagramG).par = (received (datagramG ++ [0xAA#8])).par ∧ (received datagramG).rx.run = true ∧
      (received (datagramG ++ [0xAA#8])).rx.run = true ∧
      (received datagramG).rx.active.name = (received (datagramG ++ [0xAA#8])).rx.active.name ∧
      (∀ k, k < (32#16).toNat → (received datagramG).binAt k = (received (datagramG ++ [0xAA#8])).binAt k) ∧
      (∃ t, exec (.rxParse 32#16) (received datagramG) = .next t) ∧
      ∃ t, exec (.rxParse 32#16) (received (datagramG ++ [0xAA#8])) = .next t := by
  refine ⟨rfl, rfl, rfl, rfl, fun k hk => ?_, ⟨_, rfl⟩, ⟨_, rfl⟩⟩
  have h : k < datagramG.length := hk
  rw [binAt_received_fun _ k h, binAt_received_fun _ k (by rw [List.length_append]; omega)]
  simp only [List.getElem?_append_left h]

/-- Two fields that differ after the first `00` only, and a field with none. -/
theorem witness_NameMatching :
    (padTo 16 alpha).length = 16 ∧
      (((padTo 16 alpha).set 10 0x78#8).length = 16 ∧ 5 < 16 ∧ (padTo 16 alpha)[5]? = some 0#8 ∧
        ∀ j, j ≤ 5 → ((padTo 16 alpha).set 10 0x78#8)[j]? = (padTo 16 alpha)[j]?) ∧
      Safety.NameLegal (nameOfBytes alpha) ∧ 0#8 ∉ List.replicate 16 0x61#8 := by
  refine ⟨by decide, ⟨by decide, by decide, by decide, fun j hj => ?_⟩, ⟨by decide, by decide⟩, by decide⟩
  rw [List.getElem?_set_ne (by omega)]

theorem witness_ShortDatagramsAreRejected :
    streaming.rx.run = true ∧ (27#16).toNat < 28 ∧ (28#16).toNat = 28 := by decide

/-- One channel, 256 frames of 0.5: a full packet in `ABUF`, and a receive unit subscribed to the same name whose `BIN` holds
the datagram. -/
def loopFrames : List (List Sample) := List.replicate 256 [0x3F000000#32]

/-- The payload of the full packet. -/
def loopPayload : List Byte := loopFrames.flatMap (fun f => (frameEncode Config.defaultParams.qovfPolicy f).1)

/-- The send unit just before its end of block. -/
def loopSender : State :=
  { streaming with tx := streamingUnit 1#8 stream1 3#5, wpos := 28 + payloadCap 1, abuf := Memory.cells 28 loopPayload }

theorem length_loopPayload : loopPayload.length = 512 := by
  rw [loopPayload, loopFrames, List.length_flatMap, List.map_replicate, List.sum_replicate, Laws.length_frameEncode]
  rfl

/-- The bytes a buffer was filled with are the bytes loaded. -/
theorem load_cells (f : Nat → Byte) (base : Nat) (bytes : List Byte) :
    (Memory.cells base bytes).load f base bytes.length = bytes := by
  apply List.ext_getElem?
  intro k
  rw [Laws.getElem?_load]
  by_cases h : k < bytes.length
  · rw [if_pos h, Laws.read_cells, if_pos (by omega), Nat.add_sub_cancel_left, List.getElem?_eq_getElem h]; rfl
  · rw [if_neg h, List.getElem?_eq_none (by omega)]

theorem witness_LoopBackReconstructsEverySample :
    (loopSender.tx.run = true ∧ 1 ≤ loopSender.tx.active.nch.toNat ∧ loopSender.tx.active.nch.toNat ≤ 254 ∧
      loopSender.tx.srIdx.toNat < 21 ∧ loopFrames.length = samplesPerChannel loopSender.tx.active.nch.toNat ∧
      (∀ f ∈ loopFrames, f.length = loopSender.tx.active.nch.toNat) ∧
      loopSender.wpos = 28 + payloadCap loopSender.tx.active.nch.toNat ∧
      loopSender.abufBytes loopSender.abuf 28 (payloadCap loopSender.tx.active.nch.toNat) =
        loopFrames.flatMap (fun f => (frameEncode loopSender.par.qovfPolicy f).1)) ∧
      ∀ datagram : List Byte, ∃ r : State, r.par = loopSender.par ∧ r.rx.run = true ∧
        r.rx.active.name = loopSender.tx.active.name ∧ ∀ k (h : k < datagram.length), r.binAt k = datagram[k] := by
  refine ⟨⟨rfl, by decide, by decide, by decide, ?_, ?_, rfl, ?_⟩, fun d => ?_⟩
  · rw [loopFrames, List.length_replicate]; decide
  · intro f hf
    rw [List.eq_of_mem_replicate hf]; decide
  · have h : payloadCap loopSender.tx.active.nch.toNat = loopPayload.length := by rw [length_loopPayload]; decide
    rw [h]
    exact load_cells _ 28 loopPayload
  · refine ⟨{ received d with rx := streamingUnit 1#8 stream1 3#5 }, rfl, rfl, rfl, fun k h => ?_⟩
    exact binAt_received (List.getElem?_eq_getElem h)

/-! ### Session -/

/-- A clean unit; a start that finds the rate, a start that does not, a stop of a streaming unit. -/
theorem witness_BoundaryCommandResult :
    (State.reset.sess .tx).dirty = false ∧
      (((startRequested 48000#20).sess .tx).dirty = true ∧ RateInTable (startRequested 48000#20)) ∧
      (((startRequested 50000#20).sess .tx).dirty = true ∧ ¬ RateInTable (startRequested 50000#20)) ∧
      (({ streaming with rx := { streaming.rx with pEn := false, dirty := true } }.sess .rx).dirty = true ∧
        ({ streaming with rx := { streaming.rx with pEn := false, dirty := true } }.sess .rx).pEn = false) := by
  unfold RateInTable; decide

/-- The clauses: a fixed index; a rate at the first and at the last row of the table; a rate in no row; no start. -/
theorem witness_RateResolution :
    (¬ StaysFixed ({ State.reset with tx := { State.reset.tx with dirty := true } }.sess .tx) ∧
      ({ State.reset with tx := { State.reset.tx with dirty := true } }.sess .tx).dirty = true ∧
      ({ State.reset with tx := { State.reset.tx with dirty := true } }.sess .tx).pEn = false) ∧
    (StaysFixed (starting streaming.tx) ∧ (starting streaming.tx).dirty = true) ∧
      (¬ StaysFixed ((startRequested 6000#20).sess .tx) ∧ ((startRequested 6000#20).sess .tx).pEn = true ∧
        (startRequested 6000#20).par.srTable[(0 : Fin 21)] = (startRequested 6000#20).sampledRate.toNat) ∧
      (¬ StaysFixed ((startRequested 705600#20).sess .tx) ∧
        (startRequested 705600#20).par.srTable[(20 : Fin 21)] = (startRequested 705600#20).sampledRate.toNat ∧
        ∀ j : Fin 21, j < 20 → (startRequested 705600#20).par.srTable[j] ≠ (startRequested 705600#20).sampledRate.toNat) ∧
      (¬ StaysFixed ((startRequested 50000#20).sess .tx) ∧ ¬ RateInTable (startRequested 50000#20)) := by
  unfold StaysFixed RateInTable; decide

theorem witness_FixedIndexIgnoresHostRate :
    StaysFixed ({ streaming with tx := starting streaming.tx }.sess .tx) ∧
      ∃ t, exec (.blkBegin .tx) { streaming with tx := starting streaming.tx } = .next t := by
  refine ⟨⟨rfl, rfl⟩, _, rfl⟩

theorem witness_ConfigurationTouchesPendingOnly : Configures .rx (.cfgPort .rx 6980#16) ∧ Configures .tx (.cfgSrclr .tx) :=
  ⟨rfl, rfl⟩

/-- The last byte of the longest string. -/
theorem witness_HostCommandResult :
    254 < (255#8).toNat ∧ (withCin (List.replicate 255 0x41#8)).cin.read 254 = some 0x41#8 := by
  refine ⟨by decide, ?_⟩
  rw [withCin, Laws.read_cells, if_pos (by omega), List.getElem?_replicate_of_lt (by omega)]

/-- Fifteen bytes of a longer string. -/
theorem witness_NameCommandTruncates :
    (List.replicate 15 0x41#8).length = min (20#8).toNat 15 ∧
      ∀ k (h : k < (List.replicate 15 0x41#8).length),
        (withCin (List.replicate 20 0x41#8)).cin.read k = some (List.replicate 15 0x41#8)[k] := by
  refine ⟨by decide, fun k h => ?_⟩
  rw [List.length_replicate] at h
  rw [withCin, Laws.read_cells, if_pos (by omega), List.getElem?_replicate_of_lt (by omega), List.getElem_replicate]

/-- Commands between two boundaries of the send unit: every field written, the channel count and the start request twice. -/
def configuring : List Instr :=
  [.cfgNch .tx 2#20, .txPush, .cfgRun .tx false, .cfgNch .tx 300#20, .cfgPort .tx 6980#16, .cfgHost .tx 9#8, .cfgSrclr .tx,
    .cfgName .tx 20#8, .cfgRun .tx true]

/-- No configuration of the send unit; then one of each field, the last value of each counting. -/
theorem witness_ConfigurationIsAppliedExactlyOnce :
    (streaming.sess .tx).dirty = false ∧
      (Instr.blkBegin .tx ∉ [Instr.txPush, .cfgNch .rx 3#20, .blkBegin .rx] ∧
        ∀ c ∈ [Instr.txPush, .cfgNch .rx 3#20, .blkBegin .rx], ¬ Configures .tx c) ∧
      Instr.blkBegin .tx ∉ configuring ∧ (∃ c ∈ configuring, Configures .tx c) ∧
      (∃ before after, configuring = before ++ Instr.cfgPort .tx 6980#16 :: after ∧ ∀ q, Instr.cfgPort .tx q ∉ after) ∧
      (∃ before after, configuring = before ++ Instr.cfgNch .tx 300#20 :: after ∧ ∀ m, Instr.cfgNch .tx m ∉ after) ∧
      (∃ before after, configuring = before ++ Instr.cfgHost .tx 9#8 :: after ∧ ∀ l, Instr.cfgHost .tx l ∉ after) ∧
      (∃ before after, configuring = before ++ Instr.cfgName .tx 20#8 :: after ∧ ∀ l, Instr.cfgName .tx l ∉ after) ∧
      (∃ before after, configuring = before ++ Instr.cfgRun .tx true :: after ∧ ∀ b, Instr.cfgRun .tx b ∉ after) ∧
      Instr.cfgSrclr .tx ∈ configuring := by
  refine ⟨by decide, ⟨by decide, ?_⟩, by decide, ⟨.cfgNch .tx 2#20, by decide, rfl⟩,
    ⟨configuring.take 4, configuring.drop 5, rfl, by simp [configuring]⟩,
    ⟨configuring.take 3, configuring.drop 4, rfl, by simp [configuring]⟩,
    ⟨configuring.take 5, configuring.drop 6, rfl, by simp [configuring]⟩,
    ⟨configuring.take 7, configuring.drop 8, rfl, by simp [configuring]⟩,
    ⟨configuring.take 8, configuring.drop 9, rfl, by simp [configuring]⟩, by decide⟩
  intro c hc
  simp only [List.mem_cons, List.not_mem_nil, or_false] at hc
  rcases hc with rfl | rfl | rfl
  · exact fun h => h
  · exact fun h : SessionUnit.rx = .tx => nomatch h
  · exact fun h => h

/-- `CFG.NCH` of the send unit beside a push, and beside the boundary of the other unit. -/
theorem witness_PortsCommute :
    (∀ u i, decode 0x22000002#32 = .ok i → Configures u i → decode 0x11000000#32 ≠ .ok (.blkBegin u)) ∧
      (∀ u i, decode 0x22000002#32 = .ok i → Configures u i → decode 0x10800000#32 ≠ .ok (.blkBegin u)) ∧
      (∃ t₁ t₂, step { streaming with inputs := [.command .control 0x22000002#32, .command .audio 0x11000000#32] } = .next t₁ ∧
        step t₁ = .next t₂) ∧
      ∃ t₃ t₄, step { streaming with inputs := [.command .audio 0x11000000#32, .command .control 0x22000002#32] } = .next t₃ ∧
        step t₃ = .next t₄ := by
  have h1 : decode 0x22000002#32 = .ok (.cfgNch .tx 2#20) := rfl
  have h2 : decode 0x10800000#32 = .ok (.blkBegin .rx) := rfl
  have h3 : decode 0x11000000#32 = .ok .txPush := rfl
  refine ⟨?_, ?_, ⟨_, _, rfl, rfl⟩, ⟨_, _, rfl, rfl⟩⟩
  · intro u i _ _ h
    rw [h3] at h
    cases h
  · intro u i h hc hb
    rw [h1] at h
    cases h
    rw [h2] at hb
    cases hb
    cases hc

/-! ### The whole machine -/

/-- The invariant holds of the reset state. -/
theorem reset_inv : Safety.Inv State.reset := by
  have hn : Safety.NameLegal Name.empty := ⟨by decide, by decide⟩
  have hb : ∀ h : List Byte, h.length ≤ 255 → Safety.BankLegal (Bank.resetWith h) := fun h hh =>
    { hostLength := hh, channelsLow := Nat.le_refl 1, channelsHigh := (by decide : (1#8).toNat ≤ 254), name := hn }
  have hs : ∀ h : List Byte, h.length ≤ 255 → Safety.SessionInv (Session.resetWith h) := fun h hh =>
    { pending := hb h hh, active := hb h hh, srIdx := (by decide : (0#5).toNat < 21), fixedWhileStreaming := fun h => nomatch h
      cleanBank := fun _ => rfl, cleanRelease := fun _ => rfl, cleanStop := fun _ _ => rfl }
  exact
    { tx := hs _ (by decide), rx := hs _ (by decide), cursorLow := Nat.le_refl 28, cursorHigh := by decide
      wholeFrames := fun h => nomatch h
      framesWritten := fun a h1 h2 => absurd h2 (by simpa [State.reset] using h1)
      reason := by decide, valid := fun h => nomatch h
      buffersWritten := fun h => nomatch h
      header := fun h => nomatch h
      failedStart := fun u _ h => (by cases u <;> cases h)
      fin := by decide, fout := by decide, bin := by decide, bout := by decide, cin := by decide, abuf := by decide
      chbuf := by decide }

theorem witness_EveryStepKeepsInvariant : Safety.Inv State.reset ∧ step State.reset = .next State.reset :=
  ⟨reset_inv, rfl⟩

theorem witness_StatusIsStickyAndLinkOutputGrows :
    (∃ t, step { State.reset with inputs := [.linkFailure], status := 0b000001#6 } = .next t) ∧
      (∀ rest, { State.reset with inputs := [.linkFailure], status := 0b000001#6 }.inputs ≠ Input.reset :: rest) ∧
      { State.reset with inputs := [.linkFailure], status := 0b000001#6 }.hasFlag .qovf = true := by
  refine ⟨⟨_, rfl⟩, fun rest h => ?_, by decide⟩
  simp at h

theorem witness_OnlyBoundaryMovesUnit :
    (∃ t, exec .txEnd streaming = .next t) ∧ ∀ u, Instr.txEnd ≠ .blkBegin u := by
  refine ⟨⟨_, rfl⟩, fun u h => ?_⟩
  cases h

theorem witness_DirtyIsSetAndClearedByItsOwners :
    ((∃ t, exec (.cfgSrclr .tx) streaming = .next t) ∧ Configures .tx (.cfgSrclr .tx)) ∧
      (∃ t, exec (.blkBegin .tx) (startRequested 48000#20) = .next t) ∧
      ((∃ t, exec (.blkBegin .rx) streaming = .next t) ∧ ¬ Configures .tx (.blkBegin .rx) ∧
        Instr.blkBegin .rx ≠ .blkBegin .tx) := by
  refine ⟨⟨⟨_, rfl⟩, rfl⟩, ⟨_, rfl⟩, ⟨_, rfl⟩, fun h => h, by decide⟩

/-- A command that changes each space. -/
theorem witness_SpacesAreReachedByTheirCommands :
    (∃ t, exec (.qI2F 1#16) State.reset = .next t ∧ t.fout ≠ State.reset.fout) ∧
      (∃ t, exec .hdrEnc State.reset = .next t ∧ t.bout ≠ State.reset.bout) ∧
      (∃ t, exec .txEnd { streaming with wpos := 1052 } = .next t ∧ t.abuf ≠ streaming.abuf ∧
        t.nuFrame ≠ streaming.nuFrame) ∧
      ∃ t, exec (.rxParse 32#16) (received datagramG) = .next t ∧ t.chbuf ≠ (received datagramG).chbuf := by
  refine ⟨⟨_, rfl, by decide⟩, ⟨_, rfl, by decide⟩, ⟨_, rfl, by decide, by decide⟩, _, rfl, by decide⟩

theorem witness_LinkFailureSetsLinkerrOnly :
    { streaming with inputs := [.linkFailure] }.inputs = Input.linkFailure :: [] := rfl

/-- A datagram of the least length while streaming; one while Idle. -/
theorem witness_DeliveryFillsBinWhileStreaming :
    ({ streaming with inputs := [.deliver [0x56#8]] }.inputs = Input.deliver [0x56#8] :: [] ∧ streaming.rx.run = true ∧
        1 ≤ [0x56#8].length ∧ [0x56#8].length ≤ 65535) ∧
      ¬ (State.reset.rx.run = true ∧ 1 ≤ [0x56#8].length ∧ [0x56#8].length ≤ 65535) := by
  refine ⟨⟨rfl, rfl, by decide, by decide⟩, fun h => ?_⟩
  exact absurd h.1 (by decide)

theorem witness_AgentWritesReachOneElement :
    State.reset.inputs = [] ∧ { State.reset with inputs := [.writeFin 255#8 0#32] }.inputs = Input.writeFin 255#8 0#32 :: [] ∧
      { State.reset with inputs := [.writeBin 65535#16 0#8] }.inputs = Input.writeBin 65535#16 0#8 :: [] ∧
      { State.reset with inputs := [.writeCin 254 0#8] }.inputs = Input.writeCin 254 0#8 :: [] ∧
      { State.reset with inputs := [.driveRate 48000#20] }.inputs = Input.driveRate 48000#20 :: [] := by
  refine ⟨rfl, rfl, rfl, rfl, rfl⟩

/-- An agent that filled `FIN[0]`, after one write from reset. -/
theorem witness_FilledWindowsHideUnspecifiedValues :
    Safety.Inv { State.reset with fin := Memory.cells 0 [0x3F000000#32] } ∧
      Safety.OperandsWritten .qF2I { State.reset with fin := Memory.cells 0 [0x3F000000#32] } ∧
      ∃ t, exec .qF2I { State.reset with fin := Memory.cells 0 [0x3F000000#32] } = .next t := by
  refine ⟨?_, ?_, ⟨_, rfl⟩⟩
  · exact { reset_inv with
      fin := by decide
      failedStart := fun u _ h => (by cases u <;> cases h) }
  · intro a ha
    have : a = 0 := by omega
    subst this
    decide

end Sys2Proof.Tests
end

section
/-! PROOF. The state family: the invariant of the reachable states and its preservation, what a command leaves of a unit's
registers, of the sticky bits and of the link output, and what the agents' and the link's events do. -/

namespace Sys2Proof.Proofs.StateFamily

open Sys2Proof.Machine Sys2Proof.Claims Sys2Proof.Laws Sys2Proof.Safety

/-! ## The operations of a boundary -/

/-- What holds before a boundary and is kept by each operation that a boundary is made of holds after it (44_session_control
R272, R280, R285). -/
theorem reconfigure_induction {u : SessionUnit} (P : State → Prop) (hset : ∀ t x, P t → P (t.setSess u x))
    (hstop : ∀ t, P t → P (t.stop u)) (hopen : ∀ t, P t → P (t.openLink u)) (hcount : ∀ t, P t → P t.countSample)
    (hflag : ∀ t, P t → P (t.flag .cfgerr)) {s : State} (h : P s) : P (s.reconfigure u) := by
  have h1 : P ((s.setSess u (s.sess u).applied).stop u) := hstop _ (hset _ _ h)
  rcases reconfigure_cases s u with ⟨_, e⟩ | ⟨_, _, e⟩ | ⟨_, _, _, e⟩ | ⟨_, _, i, _, e⟩ <;> rw [e]
  · exact h1
  · exact hopen _ h1
  · exact hflag _ (hcount _ h1)
  · exact hopen _ (hset _ _ (hcount _ h1))

/-- A boundary of one unit leaves the other alone (44_session_control R272). -/
theorem sess_reconfigure_of_ne (s : State) {u v : SessionUnit} (h : v ≠ u) : (s.reconfigure u).sess v = s.sess v := by
  refine reconfigure_induction (fun t => t.sess v = s.sess v) (fun t x ht => ?_) (fun t ht => ?_) (fun t ht => ?_)
    (fun t ht => ?_) (fun t ht => ?_) rfl
  · rw [sess_setSess_of_ne t h, ht]
  · rw [sess_stop_of_ne t h, ht]
  · rw [sess_openLink_of_ne t h, ht]
  · exact (sess_congr rfl rfl v).trans ht
  · exact (sess_congr rfl rfl v).trans ht

/-- A boundary changes nothing but these. -/
theorem reconfigure_frame (s : State) (u : SessionUnit) :
    s.reconfigure u = { s with
      tx := (s.reconfigure u).tx, rx := (s.reconfigure u).rx, linkOut := (s.reconfigure u).linkOut,
      status := (s.reconfigure u).status, wpos := (s.reconfigure u).wpos, nuFrame := (s.reconfigure u).nuFrame,
      rxValid := (s.reconfigure u).rxValid, rateSamples := (s.reconfigure u).rateSamples } := by
  refine reconfigure_induction (fun t => t = { s with
    tx := t.tx, rx := t.rx, linkOut := t.linkOut, status := t.status, wpos := t.wpos, nuFrame := t.nuFrame,
    rxValid := t.rxValid, rateSamples := t.rateSamples }) (fun t x ht => ?_) (fun t ht => ?_) (fun t ht => ?_)
    (fun t ht => ?_) (fun t ht => ?_) rfl
  · rw [ht]; cases u <;> rfl
  · rw [stop_frame, ht]
  · rw [openLink_frame, ht]
  · rw [ht]; rfl
  · rw [ht]; rfl

/-! ## Sticky bits and the link output -/

theorem hasFlag_raise (s : State) (m : BitVec 6) (f : StatusBit) :
    (s.raise m).hasFlag f = (s.hasFlag f || m.getLsbD (statusIndex f)) := by
  simp [State.hasFlag]

theorem hasFlag_flag_self (s : State) (f : StatusBit) : (s.flag f).hasFlag f = true := by
  have h : (statusMask f).getLsbD (statusIndex f) = true := by cases f <;> rfl
  rw [State.flag, hasFlag_raise, h, Bool.or_true]

/-- No sticky bit is lost and no link event is taken back between two states (10_state R47, R50). -/
def Grows (s t : State) : Prop := (∀ f, s.hasFlag f = true → t.hasFlag f = true) ∧ s.linkOut <+: t.linkOut

theorem Grows.of_eq {s t : State} (h1 : t.status = s.status) (h2 : t.linkOut = s.linkOut) : Grows s t :=
  ⟨fun f h => by rwa [State.hasFlag, h1], h2 ▸ List.prefix_rfl⟩

theorem Grows.refl (s : State) : Grows s s := .of_eq rfl rfl

theorem Grows.trans {s t r : State} (h1 : Grows s t) (h2 : Grows t r) : Grows s r :=
  ⟨fun f h => h2.1 f (h1.1 f h), h1.2.trans h2.2⟩

theorem grows_raise (s : State) (m : BitVec 6) : Grows s (s.raise m) :=
  ⟨fun f h => by rw [hasFlag_raise, h, Bool.true_or], List.prefix_rfl⟩

theorem grows_stop (s : State) (u : SessionUnit) : Grows s (s.stop u) :=
  ⟨fun f h => by simpa [State.hasFlag] using h, by simp⟩

theorem grows_openLink (s : State) (u : SessionUnit) : Grows s (s.openLink u) :=
  ⟨fun f h => by simpa [State.hasFlag] using h, by simp⟩

theorem grows_setSess (s : State) (u : SessionUnit) (x : Session) : Grows s (s.setSess u x) :=
  .of_eq (by simp) (by simp)

theorem grows_countSample (s : State) : Grows s s.countSample := .of_eq rfl rfl

theorem grows_emitWhileFull (cap fuel : Nat) (s : State) : Grows s (emitWhileFull cap fuel s) :=
  emitWhileFull_induction (Grows s) (fun _ ht _ => ht.trans ⟨fun _ h => h, List.prefix_append _ _⟩) fuel s (.refl s)

theorem grows_reconfigure (s : State) (u : SessionUnit) : Grows s (s.reconfigure u) :=
  reconfigure_induction (Grows s) (fun t x h => h.trans (grows_setSess t u x)) (fun t h => h.trans (grows_stop t u))
    (fun t h => h.trans (grows_openLink t u)) (fun t h => h.trans (grows_countSample t))
    (fun t h => h.trans (grows_raise t _)) (.refl s)

/-- No command clears a sticky bit or takes a link event back. -/
theorem grows_exec {i : Instr} {s t : State} (h : exec i s = .next t) : Grows s t := by
  cases i with
  | qF2I => cases h; exact grows_raise _ _
  | qI2F w => cases h; exact .of_eq rfl rfl
  | frmEnc n =>
    cases h; split
    · exact grows_raise _ _
    · exact grows_raise _ _
  | frmDec n =>
    cases h; split
    · exact .of_eq rfl rfl
    · exact grows_raise _ _
  | hdrEnc => cases h; exact .of_eq rfl rfl
  | hdrDec len => cases h; split <;> exact .of_eq rfl rfl
  | blkBegin u =>
    cases h; split
    · exact grows_reconfigure s u
    · exact .refl s
  | txPush =>
    cases h; split
    · split
      · exact grows_raise _ _
      · exact grows_raise _ _
    · exact .refl s
  | txEnd =>
    cases h; split
    · exact grows_emitWhileFull _ _ s
    · exact .refl s
  | rxParse len =>
    cases h; split
    · split <;> exact .of_eq rfl rfl
    · exact .refl s
  | cfgHost u len | cfgPort u port | cfgNch u n | cfgName u len | cfgRun u b | cfgSrclr u =>
    cases h; exact grows_setSess _ _ _

/-- Settles O51, from what a command and every other event leave of the sticky bits and of the link output. -/
theorem statusIsStickyAndLinkOutputGrows : Obligations.StatusIsStickyAndLinkOutputGrows := by
  intro s t hst
  have key : t.par = s.par ∧ ((∀ rest, s.inputs ≠ Input.reset :: rest) → Grows s t) := by
    rcases step_cases s with ⟨_, h⟩ | ⟨e, rest, he, hcase⟩
    · rw [h] at hst; cases hst; exact ⟨rfl, fun _ => .refl s⟩
    rcases hcase with ⟨p, w, i, _, _, _, h⟩ | ⟨p, w, _, _, h⟩ | ⟨i, x, _, h⟩ | ⟨a, b, _, h⟩ | ⟨a, b, _, h⟩ | ⟨hz, _, h⟩ |
      ⟨d, _, h⟩ | ⟨_, h⟩ | ⟨rfl, h⟩ <;> rw [h] at hst
    case inl => exact ⟨(exec_inputs_par i _ t hst).2, fun _ => grows_exec (s := { s with inputs := rest }) hst⟩
    all_goals cases hst
    · exact ⟨rfl, fun _ => grows_raise _ _⟩
    · exact ⟨rfl, fun _ => .of_eq rfl rfl⟩
    · exact ⟨rfl, fun _ => .of_eq rfl rfl⟩
    · exact ⟨rfl, fun _ => .of_eq rfl rfl⟩
    · exact ⟨rfl, fun _ => .of_eq rfl rfl⟩
    · exact ⟨by simp, fun _ => .of_eq (by simp) (by simp)⟩
    · exact ⟨rfl, fun _ => grows_raise _ _⟩
    · exact ⟨rfl, fun hno => absurd he (hno rest)⟩
  refine ⟨key.1, fun hno => ?_⟩
  obtain ⟨hflags, es, hes⟩ := key.2 hno
  exact ⟨hflags, es, hes.symm⟩

/-! ## What a boundary leaves -/

/-- The registers of its unit after a boundary: the pending bank is applied; the unit streams on a fixed index or is Idle; one
asked to start is Idle only where `CFGERR` says so (44_session_control R272, R280, R286). -/
theorem sess_reconfigure_self (s : State) (u : SessionUnit) :
    ∃ run idx fixed, (s.reconfigure u).sess u =
        { (s.sess u).applied with run := run, srIdx := idx, srFixed := fixed } ∧
      (run = true → fixed = true) ∧ (idx = (s.sess u).srIdx ∨ idx.toNat < 21) ∧ ((s.sess u).pEn = false → run = false) ∧
      ((s.sess u).pEn = true → run = false → (s.reconfigure u).hasFlag .cfgerr = true) := by
  rcases reconfigure_cases s u with ⟨hp, e⟩ | ⟨hp, hf, e⟩ | ⟨hp, hf, _, e⟩ | ⟨hp, _, i, hi, e⟩ <;> rw [e]
  · exact ⟨false, _, _, sess_applied_stop s u, by simp, .inl rfl, fun _ => rfl, by simp [hp]⟩
  · exact ⟨true, _, _, by rw [sess_openLink_self, sess_applied_stop]; rfl, fun _ => hf, .inl rfl, by simp [hp], by simp⟩
  · exact ⟨false, _, _, sess_applied_stop s u, by simp, .inl rfl, fun _ => rfl, fun _ _ => hasFlag_flag_self _ _⟩
  · obtain ⟨k, hk, -⟩ := resolveRate_some hi
    exact ⟨true, i, true, by rw [sess_openLink_self, sess_setSess_self], by simp, .inr (hk ▸ k.isLt), by simp [hp],
      by simp⟩

/-- A boundary of the send unit resets the cursor, one of the receive unit the result's validity (44_session_control R284,
R285). -/
theorem reconfigure_datapath (s : State) (u : SessionUnit) :
    (s.reconfigure u).wpos = (if u = .tx then 28 else s.wpos) ∧
      (s.reconfigure u).rxValid = (if u = .rx then false else s.rxValid) := by
  rcases reconfigure_cases s u with ⟨_, e⟩ | ⟨_, _, e⟩ | ⟨_, _, _, e⟩ | ⟨_, _, i, _, e⟩ <;> rw [e] <;>
    cases u <;> simp

/-! ## The invariant at reset -/

theorem nameLegal_empty : NameLegal Name.empty := ⟨by decide, by decide⟩

theorem bankLegal_resetWith {host : List Byte} (h : host.length ≤ 255) : BankLegal (Bank.resetWith host) where
  hostLength := h
  channelsLow := (by decide : 1 ≤ (1#8).toNat)
  channelsHigh := (by decide : (1#8).toNat ≤ 254)
  name := nameLegal_empty

theorem sessionInv_resetWith {host : List Byte} (h : host.length ≤ 255) : SessionInv (Session.resetWith host) where
  pending := bankLegal_resetWith h
  active := bankLegal_resetWith h
  srIdx := (by decide : (0#5).toNat < 21)
  fixedWhileStreaming := nofun
  cleanBank _ := rfl
  cleanRelease _ := rfl
  cleanStop _ _ := rfl

/-- The registers' reset values meet the invariant whatever stands outside the block (10_state R60, R61). -/
theorem inv_reset (par : Params) (inputs : List Input) (hostRate : Option (BitVec 20)) (epoch rateSamples : Nat) :
    Inv { State.reset with
      par := par, inputs := inputs, hostRate := hostRate, epoch := epoch, rateSamples := rateSamples } where
  tx := sessionInv_resetWith (by decide)
  rx := sessionInv_resetWith (by decide)
  cursorLow := Nat.le_refl 28
  cursorHigh := by simp only [State.reset, Params.abufCap]; omega
  wholeFrames := nofun
  framesWritten a h1 h2 := absurd h2 (Nat.not_lt.mpr h1)
  reason := (by decide : (0#4).toNat ≤ 8)
  valid := nofun
  buffersWritten := nofun
  header := nofun
  failedStart u _ h := by cases u <;> cases h
  fin := ⟨.nil, nofun⟩
  fout := ⟨.nil, nofun⟩
  bin := ⟨.nil, nofun⟩
  bout := ⟨.nil, nofun⟩
  cin := ⟨.nil, nofun⟩
  abuf := ⟨.nil, nofun⟩
  chbuf := ⟨.nil, nofun⟩

/-- Settles O49: reset is the case in which nothing outside the block has moved. -/
theorem resetMeetsInvariant : Obligations.ResetMeetsInvariant := inv_reset _ _ _ _ _

/-! ## What keeps the invariant -/

section Kept

variable {s : State}

theorem inv_raise (h : Inv s) (m : BitVec 6) : Inv (s.raise m) :=
  { h with failedStart := fun u h1 h2 h3 => (grows_raise s m).1 _ (h.failedStart u h1 h2 h3) }

theorem inv_writeBout (h : Inv s) {bytes : List Byte} (hlen : bytes.length ≤ 512) : Inv (s.writeBout bytes) :=
  { h with bout := ⟨wf_store h.bout.1 _ _, within_store h.bout.2 (by omega)⟩ }

theorem inv_writeFout (h : Inv s) {xs : List Sample} (hlen : xs.length ≤ 256) : Inv (s.writeFout xs) :=
  { h with fout := ⟨wf_store h.fout.1 _ _, within_store h.fout.2 (by omega)⟩ }

/-- A header that `hdr_decode` answers is a supported one (41_header_codec R190). -/
theorem hdrDecode_supported {p : Params} {b : Nat → Byte} {len : Nat} {hd : Header} (h : hdrDecode p b len = some hd) :
    hd.srIndex.toNat < 21 ∧ hd.bit = pcm16 p := by
  rw [hdrDecode_eq] at h
  split at h
  · next hc => cases h; exact hc.2.2
  · cases h

/-- A push that fits keeps whole, written frames below the cursor (42_packet_assembler R212, R218 (a)). -/
theorem inv_appendFrame (h : Inv s) (hfit : s.wpos + 2 * s.txChannels ≤ s.par.abufCap) : Inv s.appendFrame := by
  have hlen : (frameEncode s.par.qovfPolicy (s.finFrame s.txChannels)).1.length = 2 * s.txChannels := by simp
  have hlow := h.cursorLow
  exact
    { inv_raise h (frameMask (frameEncode s.par.qovfPolicy (s.finFrame s.txChannels)).2) with
      cursorLow := by simp only [appendFrame_fields]; omega
      cursorHigh := hfit
      wholeFrames := fun hrun => by
        have hmod := h.wholeFrames hrun
        have e : s.wpos + 2 * s.txChannels - 28 = s.wpos - 28 + 2 * s.tx.active.nch.toNat := by
          simp only [State.txChannels]; omega
        simp only [appendFrame_fields, e, Nat.add_mod_right, hmod]
      framesWritten := fun a h1 h2 => by
        simp only [appendFrame_fields] at h2 ⊢
        rw [read_store_isSome, hlen]
        by_cases ha : s.wpos ≤ a
        · simp [ha, h2]
        · simp [h.framesWritten a h1 (by omega)]
      abuf := ⟨wf_store h.abuf.1 _ _, within_store h.abuf.2 (by rw [hlen]; exact hfit)⟩ }

/-- One turn of `TX.END` keeps whole, written frames below the cursor (42_packet_assembler R216, R218 (a)). -/
theorem inv_emitDatagram (h : Inv s) (hfull : 28 + payloadCap s.txChannels ≤ s.wpos) :
    Inv (s.emitDatagram (payloadCap s.txChannels)) := by
  have hlow := h.cursorLow
  have hhigh := h.cursorHigh
  exact
    { h with
      cursorLow := by simp only [emitDatagram_fields]; omega
      cursorHigh := by simp only [emitDatagram_fields]; omega
      wholeFrames := fun hrun => by
        have e : 28 + (s.wpos - (28 + payloadCap s.txChannels)) - 28 = s.wpos - 28 - payloadCap s.txChannels := by omega
        simp only [emitDatagram_fields, e]
        exact Nat.mod_eq_zero_of_dvd (Nat.dvd_sub (Nat.dvd_of_mod_eq_zero (h.wholeFrames hrun))
          (Nat.dvd_of_mod_eq_zero (payloadCap_mod _)))
      framesWritten := fun a h1 h2 => by
        simp only [emitDatagram_fields] at h2
        rw [read_emitDatagram, if_neg (by omega), if_pos h2, List.getElem?_eq_getElem (by simp; omega)]
        rfl
      abuf := ⟨wf_store (wf_store h.abuf.1 _ _) _ _, within_store (within_store h.abuf.2 (by simp; omega))
        (by simp only [Config.hdrSize, length_abufBytes]; omega)⟩ }

theorem inv_emitWhileFull (h : Inv s) (fuel : Nat) : Inv (emitWhileFull (payloadCap s.txChannels) fuel s) := by
  refine (emitWhileFull_induction (fun t => Inv t ∧ t.txChannels = s.txChannels) ?_ fuel s ⟨h, rfl⟩).1
  rintro t ⟨ht, hc⟩ hfull
  rw [← hc] at hfull ⊢
  exact ⟨inv_emitDatagram ht hfull, rfl⟩

theorem inv_rejectDatagram (h : Inv s) (r : RejectReason) : Inv (s.rejectDatagram r) :=
  { h with
    reason := (toNat_reasonCode r).2
    valid := nofun
    buffersWritten := nofun }

/-- An acceptance of a streaming unit leaves a valid, fully written result (43_packet_parser R243, R254). -/
theorem inv_acceptDatagram (h : Inv s) (hrun : s.rx.run = true) {b : Nat → Byte} {len : Nat} {sub : Name} {a : Accepted}
    (hok : parse s.par b len sub = .ok a) : Inv (s.acceptDatagram a) := by
  obtain ⟨-, -, -, -, -, hidx, -, -, rfl⟩ := parse_ok hok
  have hcount : ∀ c : Byte, (BitVec.ofNat 9 (c.toNat + 1)).toNat = c.toNat + 1 := fun c => by
    have := c.isLt
    simp only [BitVec.toNat_ofNat]; omega
  have hc := (b 6).isLt
  have hs := (b 5).isLt
  exact
    { h with
      reason := (by decide : (0#4).toNat ≤ 8)
      valid := fun _ => by
        simp only [acceptDatagram_fields, hcount]
        exact ⟨hrun, trivial, by omega, by omega, by omega, by omega, hidx⟩
      buffersWritten := fun _ c i hci hii => by
        simp only [acceptDatagram_fields, hcount] at hci hii ⊢
        rw [read_deinterleave b (by omega) c i (by omega), if_pos ⟨hci, hii⟩]
        rfl
      chbuf := ⟨wf_deinterleave b (by omega), within_deinterleave b (by omega) (by omega)⟩ }

theorem inv_sess (h : Inv s) : ∀ u, SessionInv (s.sess u)
  | .tx => h.tx
  | .rx => h.rx

/-- A configuration command leaves a dirty unit, of which the invariant asks legal banks and what the command does not write
(44_session_control R290). -/
theorem sessionInv_configured {x : Session} (h : SessionInv x) {b : Bank} (hb : BankLegal b) (en release : Bool) :
    SessionInv { x with pending := b, pEn := en, pSrclr := release, dirty := true } :=
  { h with
    pending := hb
    cleanBank := nofun
    cleanRelease := nofun
    cleanStop := nofun }

theorem inv_configured (h : Inv s) (u : SessionUnit) {b : Bank} (hb : BankLegal b) (en release : Bool) :
    Inv (s.setSess u { s.sess u with pending := b, pEn := en, pSrclr := release, dirty := true }) := by
  have hstart : ∀ v, v ≠ u → ∀ x, ((s.setSess u x).sess v).dirty = false → ((s.setSess u x).sess v).pEn = true →
      ((s.setSess u x).sess v).run = false → s.hasFlag .cfgerr = true := fun v hv x h1 h2 h3 => by
    rw [sess_setSess_of_ne s hv] at h1 h2 h3
    exact h.failedStart v h1 h2 h3
  cases u with
  | tx =>
    exact { h with
      tx := sessionInv_configured h.tx hb en release
      failedStart := fun v h1 => hstart v (by rintro rfl; cases h1) _ h1 }
  | rx =>
    exact { h with
      rx := sessionInv_configured h.rx hb en release
      failedStart := fun v h1 => hstart v (by rintro rfl; cases h1) _ h1 }

theorem inv_configure (h : Inv s) (u : SessionUnit) {b : Bank} (hb : BankLegal b) : Inv (s.configure u b) :=
  inv_configured h u hb _ _

/-- A boundary leaves a unit that is clean, applied and streams only on a fixed index (44_session_control R272). -/
theorem sessionInv_reconfigure (h : Inv s) (u v : SessionUnit) : SessionInv ((s.reconfigure u).sess v) := by
  by_cases hv : v = u
  · subst hv
    obtain ⟨run, idx, fixed, e, hfix, hidx, hidle, -⟩ := sess_reconfigure_self s v
    have hs := inv_sess h v
    rw [e]
    exact
      { pending := hs.pending
        active := hs.pending
        srIdx := hidx.elim (fun h0 => h0 ▸ hs.srIdx) id
        fixedWhileStreaming := hfix
        cleanBank := fun _ => rfl
        cleanRelease := fun _ => rfl
        cleanStop := fun _ => hidle }
  · rw [sess_reconfigure_of_ne s hv]
    exact inv_sess h v

theorem inv_reconfigure (h : Inv s) (u : SessionUnit) : Inv (s.reconfigure u) := by
  have hsess := sessionInv_reconfigure h u
  have hstart : ∀ v, ((s.reconfigure u).sess v).dirty = false → ((s.reconfigure u).sess v).pEn = true →
      ((s.reconfigure u).sess v).run = false → (s.reconfigure u).hasFlag .cfgerr = true := fun v h1 h2 h3 => by
    by_cases hv : v = u
    · subst hv
      obtain ⟨run, idx, fixed, e, -, -, -, hfail⟩ := sess_reconfigure_self s v
      rw [e] at h2 h3
      exact hfail h2 h3
    · rw [sess_reconfigure_of_ne s hv] at h1 h2 h3
      exact (grows_reconfigure s u).1 _ (h.failedStart v h1 h2 h3)
  obtain ⟨hwpos, hvalid⟩ := reconfigure_datapath s u
  have hother : ∀ v, v ≠ u → (s.reconfigure u).sess v = s.sess v := fun v hv => sess_reconfigure_of_ne s hv
  rw [reconfigure_frame]
  generalize s.reconfigure u = t at *
  cases u with
  | tx =>
    have hrx : t.rx = s.rx := hother .rx nofun
    simp only [if_true, reduceCtorEq, if_false] at hwpos hvalid
    rw [hwpos, hvalid]
    exact
      { h with
        tx := hsess .tx
        rx := hsess .rx
        cursorLow := Nat.le_refl 28
        cursorHigh := h.cursorLow.trans h.cursorHigh
        wholeFrames := fun _ => Nat.zero_mod _
        framesWritten := fun a h1 h2 => absurd h2 (Nat.not_lt.mpr h1)
        valid := by simpa only [hrx] using h.valid
        failedStart := hstart }
  | rx =>
    have htx : t.tx = s.tx := hother .tx nofun
    simp only [if_true, reduceCtorEq, if_false] at hwpos hvalid
    rw [hwpos, hvalid]
    exact
      { h with
        tx := hsess .tx
        rx := hsess .rx
        wholeFrames := by simpa only [htx] using h.wholeFrames
        valid := nofun
        buffersWritten := nofun
        failedStart := hstart }

/-- Every command keeps the invariant. -/
theorem inv_exec {i : Instr} {t : State} (h : Inv s) (hex : exec i s = .next t) : Inv t := by
  have hcount : ∀ {n : BitVec 9}, legalCount n = true → n.toNat ≤ 256 := fun hn => (of_decide_eq_true hn).2
  have hpend : ∀ u, BankLegal (s.sess u).pending := fun u => (inv_sess h u).pending
  cases i with
  | qF2I =>
    cases hex
    have hq : Inv { s with qRes := (qenc s.par.qovfPolicy (s.finAt 0)).1 } := { h with tx := h.tx }
    exact inv_raise (inv_writeBout hq (by simp)) _
  | qI2F w => cases hex; exact inv_writeFout h (by simp)
  | frmEnc n =>
    cases hex; split
    · next hn => exact inv_raise (inv_writeBout h (by simp; have := hcount hn; omega)) _
    · exact inv_raise h _
  | frmDec n =>
    cases hex; split
    · next hn => exact inv_writeFout h (by simpa using hcount hn)
    · exact inv_raise h _
  | hdrEnc => cases hex; exact inv_writeBout h (by simp)
  | hdrDec len =>
    cases hex; split
    · exact { h with header := nofun }
    · next hd => exact { h with header := fun _ => hdrDecode_supported hd }
  | blkBegin u =>
    cases hex; split
    · exact inv_reconfigure h u
    · exact h
  | txPush =>
    cases hex; split
    · split
      · exact inv_raise h _
      · next hfit => exact inv_appendFrame h (Nat.not_lt.mp hfit)
    · exact h
  | txEnd =>
    cases hex; split
    · exact inv_emitWhileFull h _
    · exact h
  | rxParse len =>
    cases hex; split
    · next hrun =>
      split
      · exact inv_rejectDatagram h _
      · next hok => exact inv_acceptDatagram h hrun hok
    · exact h
  | cfgHost u len =>
    cases hex
    exact inv_configure h u { hpend u with hostLength := by simp [State.cinBytes]; omega }
  | cfgPort u port => cases hex; exact inv_configure h u { hpend u with name := (hpend u).name }
  | cfgNch u n =>
    cases hex
    exact inv_configure h u
      { hpend u with
        channelsLow := by rw [toNat_clampChannels]; omega
        channelsHigh := by rw [toNat_clampChannels]; omega }
  | cfgName u len => cases hex; exact inv_configure h u { hpend u with name := configuredName_legal _ }
  | cfgRun u b => cases hex; exact inv_configured h u (hpend u) b _
  | cfgSrclr u => cases hex; exact inv_configured h u (hpend u) _ true

theorem inv_deliverDatagram (h : Inv s) (d : List Byte) : Inv (s.deliverDatagram d) := by
  unfold State.deliverDatagram
  split
  · next hd => exact { h with bin := ⟨wf_store h.bin.1 _ _, within_store h.bin.2 (by omega)⟩ }
  · exact h

end Kept

/-- Settles O50, event by event: a command by `inv_exec`, the reset input because the reset values meet the invariant
whatever stands outside the block, every other event because it writes inside one window or sets a sticky bit. -/
theorem everyStepKeepsInvariant : Obligations.EveryStepKeepsInvariant := by
  intro s t hs hst
  rcases step_cases s with ⟨_, h⟩ | ⟨e, rest, _, hcase⟩
  · rw [h] at hst; cases hst; exact hs
  have hrest : Inv { s with inputs := rest } := { hs with tx := hs.tx }
  rcases hcase with ⟨p, w, i, _, _, _, h⟩ | ⟨p, w, _, _, h⟩ | ⟨i, x, _, h⟩ | ⟨a, b, _, h⟩ | ⟨a, b, _, h⟩ | ⟨hz, _, h⟩ |
    ⟨d, _, h⟩ | ⟨_, h⟩ | ⟨_, h⟩ <;> rw [h] at hst
  case inl => exact inv_exec hrest hst
  all_goals cases hst
  · exact inv_raise hrest _
  · exact { hs with fin := ⟨wf_store hs.fin.1 _ _, within_store hs.fin.2 i.isLt⟩ }
  · exact { hs with bin := ⟨wf_store hs.bin.1 _ _, within_store hs.bin.2 a.isLt⟩ }
  · exact { hs with cin := ⟨wf_store hs.cin.1 _ _, within_store hs.cin.2 a.isLt⟩ }
  · exact { hs with tx := hs.tx }
  · exact inv_deliverDatagram hrest d
  · exact inv_raise hrest _
  · exact inv_reset _ _ _ _ _

/-! ## What a command leaves of a unit's registers -/

/-- A configuration command writes the pending bank, the two requests and `DIRTY` of its unit (44_session_control R290). -/
theorem exec_sess_of_configures {i : Instr} {s t : State} {u : SessionUnit} (h : exec i s = .next t)
    (hc : Configures u i) :
    ∃ bank en release,
      t = s.setSess u { s.sess u with pending := bank, pEn := en, pSrclr := release, dirty := true } := by
  cases i with
  | cfgHost v len | cfgPort v port | cfgNch v n | cfgName v len | cfgRun v b | cfgSrclr v =>
    cases hc; cases h; exact ⟨_, _, _, rfl⟩
  | _ => exact hc.elim

/-- A command that neither configures a unit nor is its boundary leaves its registers alone (10_state R33, R34). -/
theorem exec_sess_of_not {i : Instr} {s t : State} {u : SessionUnit} (h : exec i s = .next t) (hc : ¬ Configures u i)
    (hb : i ≠ .blkBegin u) : t.sess u = s.sess u := by
  cases i with
  | qF2I | qI2F w | hdrEnc => cases h; exact sess_congr rfl rfl u
  | frmEnc n | frmDec n | hdrDec len => cases h; split <;> exact sess_congr rfl rfl u
  | blkBegin v =>
    cases h; split
    · exact sess_reconfigure_of_ne s (by rintro rfl; exact hb rfl)
    · rfl
  | txPush =>
    cases h; split
    · split <;> exact sess_congr rfl rfl u
    · rfl
  | txEnd =>
    cases h; split
    · rw [emitWhileFull_frame]; exact sess_congr rfl rfl u
    · rfl
  | rxParse len =>
    cases h; split
    · split <;> exact sess_congr rfl rfl u
    · rfl
  | cfgHost v len | cfgPort v port | cfgNch v n | cfgName v len | cfgRun v b | cfgSrclr v =>
    cases h; exact sess_setSess_of_ne s (by rintro rfl; exact hc rfl) _

/-- No loop of `TX.END` opens or closes the link. -/
theorem emitWhileFull_sends (cap fuel : Nat) (s : State) :
    ∃ es, (emitWhileFull cap fuel s).linkOut = s.linkOut ++ es ∧ ∀ e ∈ es, ∃ bytes, e = .send bytes := by
  refine emitWhileFull_induction
    (fun t => ∃ es, t.linkOut = s.linkOut ++ es ∧ ∀ e ∈ es, ∃ bytes, e = .send bytes) ?_ fuel s ⟨[], by simp⟩
  rintro t ⟨es, he, hs⟩ _
  refine ⟨es ++ [.send _], by rw [linkOut_emitDatagram, he, List.append_assoc], fun e h => ?_⟩
  rcases List.mem_append.mp h with h | h
  · exact hs e h
  · exact ⟨_, List.mem_singleton.mp h⟩

/-- A command that is no boundary appends nothing but `Send` events (10_state R34). -/
theorem exec_sends {i : Instr} {s t : State} (h : exec i s = .next t) (hb : ∀ u, i ≠ .blkBegin u) :
    ∃ es, t.linkOut = s.linkOut ++ es ∧ ∀ e ∈ es, ∃ bytes, e = .send bytes := by
  have hkept : ∀ {r : State}, r.linkOut = s.linkOut →
      ∃ es, r.linkOut = s.linkOut ++ es ∧ ∀ e ∈ es, ∃ bytes, e = LinkEvent.send bytes := fun hr => ⟨[], by simp [hr]⟩
  cases i with
  | qF2I | qI2F w | hdrEnc => cases h; exact hkept rfl
  | frmEnc n | frmDec n | hdrDec len => cases h; split <;> exact hkept rfl
  | blkBegin u => exact absurd rfl (hb u)
  | txPush =>
    cases h; split
    · split <;> exact hkept rfl
    · exact hkept rfl
  | txEnd =>
    cases h; split
    · exact emitWhileFull_sends _ _ s
    · exact hkept rfl
  | rxParse len =>
    cases h; split
    · split <;> exact hkept rfl
    · exact hkept rfl
  | cfgHost u len | cfgPort u port | cfgNch u n | cfgName u len | cfgRun u b | cfgSrclr u =>
    cases h; exact hkept (by simp [State.configure])

/-- Settles O52: a command that is not the unit's boundary writes at most its pending registers. -/
theorem onlyBoundaryMovesUnit : Obligations.OnlyBoundaryMovesUnit := by
  refine ⟨fun u => by cases u <;> rfl, fun i s t h => ⟨fun u hb => ?_, exec_sends h⟩⟩
  by_cases hc : Configures u i
  · obtain ⟨bank, en, release, rfl⟩ := exec_sess_of_configures h hc
    rw [sess_setSess_self]
    exact ⟨rfl, rfl, rfl, rfl⟩
  · rw [exec_sess_of_not h hc hb]
    exact ⟨rfl, rfl, rfl, rfl⟩

/-! ## `DIRTY` -/

/-- A boundary leaves its unit clean (10_state R33). -/
theorem exec_blkBegin_dirty {s t : State} {u : SessionUnit} (h : exec (.blkBegin u) s = .next t) :
    (t.sess u).dirty = false := by
  cases h; split
  · obtain ⟨run, idx, fixed, e, -⟩ := sess_reconfigure_self s u
    rw [e]; rfl
  · next hd => exact Bool.eq_false_of_not_eq_true hd

/-- A configuration command overwrites `DIRTY` of its unit unread. -/
theorem exec_setDirty_of_configures {i : Instr} {s t : State} {u : SessionUnit} (h : exec i s = .next t)
    (hc : Configures u i) (d : Bool) : exec i (s.setSess u { s.sess u with dirty := d }) = .next t := by
  cases i with
  | cfgHost v len | cfgPort v port | cfgNch v n | cfgName v len | cfgRun v b | cfgSrclr v =>
    cases hc; cases h; cases u <;> rfl
  | _ => exact hc.elim

/-- What the datapath commands read of the state is not `DIRTY`. -/
theorem setDirty_reads (s : State) (u : SessionUnit) (d : Bool) :
    (s.setSess u { s.sess u with dirty := d }).binAt = s.binAt ∧
    (s.setSess u { s.sess u with dirty := d }).tx.run = s.tx.run ∧
    (s.setSess u { s.sess u with dirty := d }).rx.run = s.rx.run ∧
    (s.setSess u { s.sess u with dirty := d }).rx.active = s.rx.active ∧
    (s.setSess u { s.sess u with dirty := d }).txChannels = s.txChannels := by
  cases u <;> exact ⟨rfl, rfl, rfl, rfl, rfl⟩

/-- A command that neither configures a unit nor is its boundary does not read the unit's `DIRTY` (10_state R33). -/
theorem exec_setDirty_of_not {i : Instr} {s t : State} {u : SessionUnit} (h : exec i s = .next t)
    (hc : ¬ Configures u i) (hb : i ≠ .blkBegin u) (d : Bool) :
    exec i (s.setSess u { s.sess u with dirty := d }) = .next (t.setSess u { t.sess u with dirty := d }) := by
  cases i with
  | qF2I | qI2F w | hdrEnc => cases h; cases u <;> rfl
  | frmEnc n | frmDec n => cases h; simp only [exec, execFrmEnc, execFrmDec]; split <;> cases u <;> rfl
  | hdrDec len =>
    cases h; simp only [exec, execHdrDec, setSess_fields, setDirty_reads]
    split <;> cases u <;> rfl
  | blkBegin v =>
    have hv : v ≠ u := by rintro rfl; exact hb rfl
    cases h; simp only [exec, execBlkBegin, sess_setSess_of_ne s hv]
    split
    · rw [reconfigure_setSess_of_ne s hv, sess_reconfigure_of_ne s hv.symm]
    · rfl
  | txPush =>
    cases h; simp only [exec, execTxPush, setSess_fields, setDirty_reads]
    split
    · split <;> cases u <;> rfl
    · rfl
  | txEnd =>
    cases h; simp only [exec, execTxEnd, setSess_fields, setDirty_reads]
    split
    · rw [emitWhileFull_dirty]
    · rfl
  | rxParse len =>
    cases h; simp only [exec, execRxParse, setSess_fields, setDirty_reads]
    split
    · split <;> cases u <;> rfl
    · rfl
  | cfgHost v len | cfgPort v port | cfgNch v n | cfgName v len | cfgRun v b | cfgSrclr v =>
    cases h
    cases u <;> cases v
    case tx.tx | rx.rx => exact absurd rfl hc
    all_goals rfl

/-- Settles O53: what writes `DIRTY` of a unit, and that nothing but the unit's boundary reads it. -/
theorem dirtyIsSetAndClearedByItsOwners : Obligations.DirtyIsSetAndClearedByItsOwners := by
  refine ⟨fun u => by cases u <;> rfl, fun i s t u h => ⟨fun hc => ?_, ?_, fun hc hb => ?_, fun d =>
    ⟨fun hc => exec_setDirty_of_configures h hc d, fun hc hb => exec_setDirty_of_not h hc hb d⟩⟩⟩
  · obtain ⟨bank, en, release, rfl⟩ := exec_sess_of_configures h hc
    rw [sess_setSess_self]
  · rintro rfl
    exact exec_blkBegin_dirty h
  · rw [exec_sess_of_not h hc hb]

/-! ## Reset values, agents' writes, the link -/

/-- Settles O1: the reset values, register by register. -/
theorem resetLeavesTheStatedValues : Obligations.ResetLeavesTheStatedValues := by
  refine ⟨fun u => ⟨?_, fun bank hbank => ?_⟩, rfl, rfl, rfl, ⟨rfl, rfl, rfl, rfl, rfl, rfl⟩,
    ⟨rfl, rfl, rfl, rfl, rfl, rfl, rfl, rfl, rfl, rfl⟩, rfl⟩
  · cases u <;> exact ⟨rfl, rfl, rfl, rfl, rfl, rfl⟩
  · cases u <;> rcases hbank with rfl | rfl <;> exact ⟨rfl, rfl, rfl, rfl⟩

/-- Settles O55: the event is done in one step that raises the one bit. -/
theorem linkFailureSetsLinkerrOnly : Obligations.LinkFailureSetsLinkerrOnly :=
  fun _ _ h => step_cons h

/-- Settles O56: the delivery is one store from offset 0, made only while the receive unit streams. -/
theorem deliveryFillsBinWhileStreaming : Obligations.DeliveryFillsBinWhileStreaming := by
  intro s d rest h
  refine ⟨_, step_cons h, ?_⟩
  simp only [State.deliverDatagram]
  split
  · next hd =>
    refine ⟨rfl, fun _ _ _ => ⟨fun k hk => ?_, fun a ha => ?_⟩, fun hno => absurd hd hno⟩
    · simpa using read_store_inside s.bin 0 d k hk
    · exact read_store_outside s.bin 0 d a (by omega)
  · next hd => exact ⟨rfl, fun h1 h2 h3 => absurd ⟨h1, h2, h3⟩ hd, fun _ => rfl⟩

/-- A write of one element reads back and leaves every other element alone. -/
theorem read_store_singleton {α : Type} (m : Memory α) (i : Nat) (x : α) :
    (m.store i [x]).read i = some x ∧ ∀ a, a ≠ i → (m.store i [x]).read a = m.read a :=
  ⟨read_store_inside m i [x] 0 (by simp), fun a ha => read_store_outside m i [x] a (by simp; omega)⟩

/-- Settles O57: each agent write is one step that stores one element. -/
theorem agentWritesReachOneElement : Obligations.AgentWritesReachOneElement := by
  intro s rest
  refine ⟨step_nil, fun i x h => ?_, fun i b h => ?_, fun i b h => ?_, fun hz h => step_cons h⟩
  · exact ⟨_, step_cons h, rfl, read_store_singleton s.fin i.toNat x⟩
  · exact ⟨_, step_cons h, rfl, read_store_singleton s.bin i.toNat b⟩
  · exact ⟨_, step_cons h, rfl, read_store_singleton s.cin i.val b⟩

/-! ## Filled windows hide the free values -/

theorem getD_of_isSome {α : Type} {o : Option α} (h : o.isSome = true) (a b : α) : o.getD a = o.getD b := by
  obtain ⟨v, rfl⟩ := Option.isSome_iff_exists.mp h
  rfl

/-- `frame_decode` reads the `2 n` bytes of its frame only. -/
theorem frameDecode_congr {n : Nat} {b b' : Nat → Byte} (h : ∀ k, k < 2 * n → b k = b' k) :
    frameDecode n b = frameDecode n b' :=
  List.map_congr_left fun c hc => by
    rw [List.mem_range] at hc
    rw [sampleAt, sampleAt, h _ (by omega), h _ (by omega)]

section Epoch

variable {s : State} (epoch : Nat)

theorem finAt_epoch {n k : Nat} (h : Written s.fin n) (hk : k < n) : { s with epoch := epoch }.finAt k = s.finAt k :=
  getD_of_isSome (h k hk) _ _

theorem finFrame_epoch {n : Nat} (h : Written s.fin n) : { s with epoch := epoch }.finFrame n = s.finFrame n :=
  List.map_congr_left fun _ hk => finAt_epoch epoch h (List.mem_range.mp hk)

theorem binAt_epoch {n k : Nat} (h : Written s.bin n) (hk : k < n) : { s with epoch := epoch }.binAt k = s.binAt k :=
  getD_of_isSome (h k hk) _ _

theorem cinBytes_epoch {n : Nat} (h : Written s.cin n) : { s with epoch := epoch }.cinBytes n = s.cinBytes n :=
  load_congr _ _ _ _ _ _ fun k hk => getD_of_isSome (h _ (by omega)) _ _

theorem appendFrame_epoch (h : Written s.fin s.txChannels) :
    { s with epoch := epoch }.appendFrame = { s.appendFrame with epoch := epoch } := by
  have hframe : { s with epoch := epoch }.finFrame { s with epoch := epoch }.txChannels = s.finFrame s.txChannels :=
    finFrame_epoch epoch h
  simp only [State.appendFrame, hframe]
  rfl

/-- The stamped buffer is written from its first byte to the cursor. -/
theorem stampedAbuf_epoch (h : Inv s) {a n : Nat} (ha : a + n ≤ s.wpos) :
    { s with epoch := epoch }.abufBytes s.stampedAbuf a n = s.abufBytes s.stampedAbuf a n :=
  load_congr _ _ _ _ _ _ fun k hk => getD_of_isSome (by
    rw [read_stampedAbuf]
    split
    · next hlow => rw [List.getElem?_eq_getElem (by simpa using hlow)]; rfl
    · next hhigh => exact h.framesWritten _ (Nat.not_lt.mp hhigh) (by omega)) _ _

theorem emitDatagram_epoch (h : Inv s) {cap : Nat} (hfull : 28 + cap ≤ s.wpos) :
    { s with epoch := epoch }.emitDatagram cap = { s.emitDatagram cap with epoch := epoch } := by
  have hsent := stampedAbuf_epoch epoch h (a := 0) (n := 28 + cap) (by omega)
  have hresidue := stampedAbuf_epoch epoch h (a := 28 + cap) (n := s.wpos - (28 + cap)) (by omega)
  have hstamp : { s with epoch := epoch }.stampedAbuf = s.stampedAbuf := rfl
  simp only [State.emitDatagram, Config.hdrSize, hstamp, hsent, hresidue]

theorem emitWhileFull_epoch (fuel : Nat) (h : Inv s) :
    emitWhileFull (payloadCap s.txChannels) fuel { s with epoch := epoch } =
      { emitWhileFull (payloadCap s.txChannels) fuel s with epoch := epoch } := by
  induction fuel generalizing s with
  | zero => rfl
  | succ fuel ih =>
    simp only [emitWhileFull]
    split
    · next hfull =>
      rw [emitDatagram_epoch epoch h hfull]
      exact ih (inv_emitDatagram h hfull)
    · rfl

/-- A boundary reads no window. -/
theorem reconfigure_epoch (s : State) (u : SessionUnit) :
    { s with epoch := epoch }.reconfigure u = { s.reconfigure u with epoch := epoch } := by
  have hset : ∀ (t : State) x, { t with epoch := epoch }.setSess u x = { t.setSess u x with epoch := epoch } :=
    fun t x => by cases u <;> rfl
  have hopen : ∀ t : State, { t with epoch := epoch }.openLink u = { t.openLink u with epoch := epoch } :=
    fun t => by cases u <;> rfl
  have hsess : ∀ t : State, { t with epoch := epoch }.sess u = t.sess u := fun t => sess_congr rfl rfl u
  have hstop : ∀ t : State, { t with epoch := epoch }.stop u = { t.stop u with epoch := epoch } := fun t => by
    simp only [State.stop, hsess]
    split <;> cases u <;> rfl
  have hstart : ∀ t : State, { t with epoch := epoch }.start u = { t.start u with epoch := epoch } := fun t => by
    have hrate : { t with epoch := epoch }.sampledRate = t.sampledRate := rfl
    simp only [State.start, hsess, hopen, hrate]
    split
    · rfl
    · split
      · rfl
      · cases u <;> rfl
  simp only [State.reconfigure, hsess, hset, hstop, hstart]
  split <;> rfl

/-- A command whose operand window is filled gives the same result under every reset number. -/
theorem exec_epoch {i : Instr} {t : State} (hs : Inv s) (hw : OperandsWritten i s) (h : exec i s = .next t) :
    exec i { s with epoch := epoch } = .next { t with epoch := epoch } := by
  cases i with
  | qF2I =>
    cases h
    simp only [exec, execQF2I, finAt_epoch epoch hw (Nat.zero_lt_one)]
    rfl
  | qI2F w | hdrEnc => cases h; rfl
  | cfgPort u port | cfgNch u n | cfgRun u b | cfgSrclr u => cases h; cases u <;> rfl
  | frmEnc n =>
    cases h
    simp only [exec, execFrmEnc, finFrame_epoch epoch hw]
    split <;> rfl
  | frmDec n =>
    cases h
    have hdec : frameDecode n.toNat { s with epoch := epoch }.binAt = frameDecode n.toNat s.binAt :=
      frameDecode_congr fun _ => binAt_epoch epoch hw
    simp only [exec, execFrmDec, hdec]
    split <;> rfl
  | hdrDec len =>
    cases h
    have hdec : hdrDecode s.par { s with epoch := epoch }.binAt len.toNat = hdrDecode s.par s.binAt len.toNat :=
      hdrDecode_congr _ fun k h1 h2 => binAt_epoch epoch hw (by omega)
    simp only [exec, execHdrDec, hdec]
    split <;> rfl
  | blkBegin u =>
    cases h
    have hsess : { s with epoch := epoch }.sess u = s.sess u := sess_congr rfl rfl u
    simp only [exec, execBlkBegin, hsess, reconfigure_epoch]
    split <;> rfl
  | txPush =>
    cases h
    have hchannels : { s with epoch := epoch }.txChannels = s.txChannels := rfl
    simp only [exec, execTxPush, hchannels]
    split
    · next hrun =>
      split
      · rfl
      · exact congrArg _ (appendFrame_epoch epoch (hw hrun))
    · rfl
  | txEnd =>
    cases h
    simp only [exec, execTxEnd]
    split
    · exact congrArg _ (emitWhileFull_epoch epoch _ hs)
    · rfl
  | rxParse len =>
    cases h
    simp only [exec, execRxParse]
    split
    · next hrun =>
      have hparse : parse s.par { s with epoch := epoch }.binAt len.toNat s.rx.active.name =
          parse s.par s.binAt len.toNat s.rx.active.name := parse_congr _ _ fun _ => binAt_epoch epoch (hw hrun)
      simp only [hparse]
      split <;> rfl
    · rfl
  | cfgHost u len =>
    cases h
    simp only [exec, execCfgHost, cinBytes_epoch epoch hw]
    cases u <;> rfl
  | cfgName u len =>
    cases h
    have hbytes : { s with epoch := epoch }.cinBytes (min len.toNat 15) = s.cinBytes (min len.toNat 15) :=
      cinBytes_epoch epoch fun a ha => hw a (by omega)
    simp only [exec, execCfgName, Config.nameChars, hbytes]
    cases u <;> rfl

end Epoch

/-- Settles O58: command by command, every window element read has been written, by the agent or, in `ABUF`, by the pushes the
invariant records. -/
theorem filledWindowsHideUnspecifiedValues : Obligations.FilledWindowsHideUnspecifiedValues :=
  fun _ _ _ epoch hs hw h => exec_epoch epoch hs hw h


end Sys2Proof.Proofs.StateFamily
end

section
/-! PROOF. The memory family: a presented word runs its command whole, which command writes which fields, and why two words on
different ports may be presented in either order. -/

namespace Sys2Proof.Proofs.MemoryFamily

open Sys2Proof.Machine Sys2Proof.Claims Sys2Proof.Laws Sys2Proof.Proofs.StateFamily

/-! ## A presented word -/

/-- Settles O3: of the two things a word on a port can do, the decoded command rules out the illegal one. -/
theorem stepRunsTheDecodedCommand : Obligations.StepRunsTheDecodedCommand := by
  intro s p w rest i h hd hp
  obtain ⟨-, hop⟩ := decode_ok hd
  refine ⟨(decodeOp_ok hop).2, ?_⟩
  rcases step_command h with ⟨j, hj, _, hstep⟩ | ⟨hno, _⟩
  · cases hd.symm.trans hj
    exact hstep
  · exact absurd hp (hno i hd)

/-- On every state a word runs the one command of its port that it stands for, or it is illegal on every state
(30_encoding R108). -/
theorem word_cases (p : Port) (w : Word) :
    (∃ i, decode w = .ok i ∧ i.port = p ∧
      ∀ s rest, s.inputs = Input.command p w :: rest → step s = exec i { s with inputs := rest }) ∨
    ∀ s rest, s.inputs = Input.command p w :: rest →
      step s = .next ({ s with inputs := rest }.raise (statusMask .illcmd)) := by
  by_cases h : ∃ i, decode w = .ok i ∧ i.port = p
  · obtain ⟨i, hd, hp⟩ := h
    exact .inl ⟨i, hd, hp, fun s rest hin => (stepRunsTheDecodedCommand s p w rest i hin hd hp).2⟩
  · refine .inr fun s rest hin => ?_
    rcases step_command hin with ⟨i, hd, hp, _⟩ | ⟨_, hstep⟩
    · exact absurd ⟨i, hd, hp⟩ h
    · exact hstep

/-- A word takes itself off the pending events and no other. -/
theorem step_word_inputs {s t : State} {p : Port} {w : Word} {rest : List Input} (hin : s.inputs = Input.command p w :: rest)
    (h : step s = .next t) : t.inputs = rest := by
  rcases step_command hin with ⟨i, _, _, hstep⟩ | ⟨_, hstep⟩ <;> rw [hstep] at h
  · exact (exec_inputs_par i _ t h).1
  · cases h; rfl

/-! ## What a command writes -/

/-- `s` with the fields that a command may write taken from `t` (20_memory R70, 30_encoding R106). -/
def written (i : Instr) (s t : State) : State :=
  match i with
  | .qF2I => { s with qRes := t.qRes, bout := t.bout, status := t.status }
  | .qI2F _ => { s with fout := t.fout }
  | .frmEnc _ => { s with bout := t.bout, status := t.status }
  | .frmDec _ => { s with fout := t.fout, status := t.status }
  | .hdrEnc => { s with bout := t.bout }
  | .hdrDec _ => { s with hdrOk := t.hdrOk, hd := t.hd }
  | .blkBegin .tx =>
    { s with
      tx := t.tx, linkOut := t.linkOut, status := t.status, rateSamples := t.rateSamples, wpos := t.wpos,
      nuFrame := t.nuFrame }
  | .blkBegin .rx =>
    { s with
      rx := t.rx, linkOut := t.linkOut, status := t.status, rateSamples := t.rateSamples, rxValid := t.rxValid }
  | .txPush => { s with abuf := t.abuf, wpos := t.wpos, status := t.status }
  | .txEnd => { s with abuf := t.abuf, wpos := t.wpos, nuFrame := t.nuFrame, linkOut := t.linkOut }
  | .rxParse _ =>
    { s with
      chbuf := t.chbuf, rxReason := t.rxReason, rxValid := t.rxValid, rxNch := t.rxNch, rxNs := t.rxNs,
      rxSrIdx := t.rxSrIdx, rxNuFrame := t.rxNuFrame }
  | .cfgHost u _ | .cfgPort u _ | .cfgNch u _ | .cfgName u _ | .cfgRun u _ | .cfgSrclr u => s.setSess u (t.sess u)

/-- The receive unit's boundary leaves `NUFRAME` alone (44_session_control R284). -/
theorem reconfigure_rx_nuFrame (s : State) : (s.reconfigure .rx).nuFrame = s.nuFrame :=
  reconfigure_induction (fun t => t.nuFrame = s.nuFrame) (fun t _ h => by simpa using h)
    (fun t h => by simpa using h) (fun t h => by simpa using h) (fun _ h => h) (fun _ h => h) rfl

/-- A boundary writes its own unit's registers and datapath. -/
theorem reconfigure_written (s : State) (u : SessionUnit) :
    s.reconfigure u = written (.blkBegin u) s (s.reconfigure u) := by
  have hframe := reconfigure_frame s u
  have hother : ∀ v, v ≠ u → (s.reconfigure u).sess v = s.sess v := fun v hv => sess_reconfigure_of_ne s hv
  obtain ⟨hwpos, hvalid⟩ := reconfigure_datapath s u
  cases u with
  | tx =>
    have hrx : (s.reconfigure .tx).rx = s.rx := hother .rx nofun
    rw [hrx, hvalid] at hframe
    exact hframe
  | rx =>
    have htx : (s.reconfigure .rx).tx = s.tx := hother .tx nofun
    rw [htx, hwpos, reconfigure_rx_nuFrame] at hframe
    exact hframe

/-- A command writes no field but its own. -/
theorem exec_written {i : Instr} {s t : State} (h : exec i s = .next t) : t = written i s t := by
  cases i with
  | qF2I | qI2F w | hdrEnc => cases h; rfl
  | frmEnc n | frmDec n | hdrDec len => cases h; split <;> rfl
  | blkBegin u =>
    cases h; split
    · exact reconfigure_written s u
    · cases u <;> rfl
  | txPush =>
    cases h; split
    · split <;> rfl
    · rfl
  | txEnd =>
    cases h; split
    · exact emitWhileFull_frame _ _ s
    · rfl
  | rxParse len =>
    cases h; split
    · split <;> rfl
    · rfl
  | cfgHost u len | cfgPort u port | cfgNch u n | cfgName u len | cfgRun u b | cfgSrclr u => cases h; cases u <;> rfl

/-- Settles O54, by reading the spaces off the fields each command writes. -/
theorem spacesAreReachedByTheirCommands : Obligations.SpacesAreReachedByTheirCommands := by
  intro i s t h
  rw [exec_written h]
  cases i with
  | blkBegin u => cases u <;> simp [written]
  | _ => simp [written]

/-- No command changes what `CIN` reads as. -/
theorem exec_cinBytes {i : Instr} {s t : State} (h : exec i s = .next t) (n : Nat) : t.cinBytes n = s.cinBytes n := by
  have hepoch : t.epoch = s.epoch := by
    rw [exec_written h]
    cases i with
    | blkBegin u => cases u <;> rfl
    | _ => simp [written]
  obtain ⟨-, -, hcin, -⟩ := spacesAreReachedByTheirCommands i s t h
  rw [State.cinBytes, State.cinBytes, hcin, hepoch]

/-! ## Pending events and sticky bits are read by no command -/

/-- `s` with other events pending and more sticky bits set: all that an illegal word leaves (30_encoding R108). -/
def beside (s : State) (es : List Input) (m : BitVec 6) : State := { s.raise m with inputs := es }

section Beside

variable (es : List Input) (m : BitVec 6)

theorem raise_beside (s : State) (m' : BitVec 6) : (beside s es m).raise m' = beside (s.raise m') es m := by
  have h : s.status ||| m ||| m' = s.status ||| m' ||| m := by
    rw [BitVec.or_assoc, BitVec.or_comm m, BitVec.or_assoc]
  simp only [beside, State.raise, h]

theorem writeBout_beside (s : State) (bytes : List Byte) :
    (beside s es m).writeBout bytes = beside (s.writeBout bytes) es m := rfl

/-- What the commands read is not changed. -/
theorem beside_reads (s : State) :
    (beside s es m).par = s.par ∧ (beside s es m).binAt = s.binAt ∧ (beside s es m).finAt = s.finAt ∧
    (beside s es m).finFrame = s.finFrame ∧ (beside s es m).tx = s.tx ∧
    (beside s es m).rx = s.rx ∧ (beside s es m).txChannels = s.txChannels ∧ (beside s es m).wpos = s.wpos ∧
    (beside s es m).sampledRate = s.sampledRate ∧ ∀ u, (beside s es m).sess u = s.sess u :=
  ⟨rfl, rfl, rfl, rfl, rfl, rfl, rfl, rfl, rfl, fun u => by cases u <;> rfl⟩

theorem appendFrame_beside (s : State) : (beside s es m).appendFrame = beside s.appendFrame es m :=
  raise_beside es m
    { s with
      abuf := s.abuf.store s.wpos (frameEncode s.par.qovfPolicy (s.finFrame s.txChannels)).1
      wpos := s.wpos + 2 * s.txChannels } _

/-- A boundary reads neither. -/
theorem reconfigure_beside (s : State) (u : SessionUnit) :
    (beside s es m).reconfigure u = beside (s.reconfigure u) es m := by
  have hset : ∀ (t : State) x, (beside t es m).setSess u x = beside (t.setSess u x) es m := fun t x => by
    cases u <;> rfl
  have hopen : ∀ t : State, (beside t es m).openLink u = beside (t.openLink u) es m := fun t => by cases u <;> rfl
  have hcount : ∀ t : State, (beside t es m).countSample = beside t.countSample es m := fun t => rfl
  have hstop : ∀ t : State, (beside t es m).stop u = beside (t.stop u) es m := fun t => by
    simp only [State.stop, beside_reads]
    split <;> cases u <;> rfl
  have hstart : ∀ t : State, (beside t es m).start u = beside (t.start u) es m := fun t => by
    simp only [State.start, beside_reads, hopen, hcount, hset]
    split
    · rfl
    · split
      · exact raise_beside es m _ _
      · rfl
  simp only [State.reconfigure, beside_reads, hset, hstop, hstart]
  split <;> rfl

end Beside

/-- What commutes with a turn of `TX.END` and leaves the cursor alone commutes with the loop. -/
theorem emitWhileFull_comm {cap : Nat} (φ : State → State) (hwpos : ∀ s, (φ s).wpos = s.wpos)
    (hturn : ∀ s, (φ s).emitDatagram cap = φ (s.emitDatagram cap)) (fuel : Nat) (s : State) :
    emitWhileFull cap fuel (φ s) = φ (emitWhileFull cap fuel s) := by
  induction fuel generalizing s with
  | zero => rfl
  | succ fuel ih =>
    simp only [emitWhileFull, hwpos]
    split
    · rw [hturn, ih]
    · rfl

/-- A command reads neither the pending events nor the sticky bits. -/
theorem exec_beside {i : Instr} {s t : State} (h : exec i s = .next t) (es : List Input) (m : BitVec 6) :
    exec i (beside s es m) = .next (beside t es m) := by
  cases i with
  | qF2I =>
    cases h
    exact congrArg _ (raise_beside es m ({ s with qRes := (qenc s.par.qovfPolicy (s.finAt 0)).1 }.writeBout _) _)
  | qI2F w | hdrEnc => cases h; rfl
  | frmEnc n =>
    cases h; simp only [exec, execFrmEnc, beside_reads, writeBout_beside]
    split <;> exact congrArg _ (raise_beside es m _ _)
  | frmDec n =>
    cases h; simp only [exec, execFrmDec]
    split
    · rfl
    · exact congrArg _ (raise_beside es m _ _)
  | hdrDec len =>
    cases h; simp only [exec, execHdrDec, beside_reads]
    split <;> rfl
  | blkBegin u =>
    cases h; simp only [exec, execBlkBegin, beside_reads, reconfigure_beside]
    split <;> rfl
  | txPush =>
    cases h; simp only [exec, execTxPush, beside_reads]
    split
    · split
      · exact congrArg _ (raise_beside es m s _)
      · exact congrArg _ (appendFrame_beside es m s)
    · rfl
  | txEnd =>
    cases h; simp only [exec, execTxEnd, beside_reads]
    split
    · exact congrArg _ (emitWhileFull_comm (beside · es m) (fun _ => rfl) (fun _ => rfl) _ s)
    · rfl
  | rxParse len =>
    cases h; simp only [exec, execRxParse, beside_reads]
    split
    · split <;> rfl
    · rfl
  | cfgHost u len | cfgPort u port | cfgNch u n | cfgName u len | cfgRun u b | cfgSrclr u => cases h; cases u <;> rfl

/-- A command does not read the pending events. -/
theorem exec_setInputs {i : Instr} {s t : State} (h : exec i s = .next t) (es : List Input) :
    exec i { s with inputs := es } = .next { t with inputs := es } := by
  simpa [beside, State.raise] using exec_beside h es 0#6

/-! ## Requests wait for the unit's boundary -/

/-- A unit's registers as a configuration command leaves them: the bank and the two requests pending, `DIRTY` set
(44_session_control R290). -/
def setRequests (s : State) (u : SessionUnit) (bank : Bank) (en release : Bool) : State :=
  s.setSess u { s.sess u with pending := bank, pEn := en, pSrclr := release, dirty := true }

/-- Two states whose unit and `CIN` read alike are given the same requests. -/
theorem exec_requests_congr {i : Instr} {s s' t t' : State} {u : SessionUnit} (hc : Configures u i)
    (hsess : s'.sess u = s.sess u) (hcin : ∀ n, s'.cinBytes n = s.cinBytes n) (h : exec i s = .next t)
    (h' : exec i s' = .next t') :
    ∃ bank en release, t = setRequests s u bank en release ∧ t' = setRequests s' u bank en release := by
  cases i with
  | cfgHost v len | cfgPort v port | cfgNch v n | cfgName v len | cfgRun v b | cfgSrclr v =>
    cases hc; cases h; cases h'
    refine ⟨_, _, _, rfl, ?_⟩
    simp only [State.configure, setRequests, hsess, hcin]
  | _ => exact hc.elim

/-- What the datapath commands read is no request. -/
theorem setRequests_reads (s : State) (u : SessionUnit) (bank : Bank) (en release : Bool) :
    (setRequests s u bank en release).par = s.par ∧ (setRequests s u bank en release).binAt = s.binAt ∧
    (setRequests s u bank en release).tx.run = s.tx.run ∧ (setRequests s u bank en release).rx.run = s.rx.run ∧
    (setRequests s u bank en release).rx.active = s.rx.active ∧
    (setRequests s u bank en release).txChannels = s.txChannels ∧ (setRequests s u bank en release).wpos = s.wpos := by
  cases u <;> exact ⟨rfl, rfl, rfl, rfl, rfl, rfl, rfl⟩

/-- No command of the audio port but the unit's boundary reads or writes a request (20_memory R85). -/
theorem exec_setRequests {i : Instr} {s t : State} {u : SessionUnit} (h : exec i s = .next t) (hp : i.port = .audio)
    (hb : i ≠ .blkBegin u) (bank : Bank) (en release : Bool) :
    exec i (setRequests s u bank en release) = .next (setRequests t u bank en release) := by
  cases i with
  | qF2I | qI2F w | hdrEnc => cases h; cases u <;> rfl
  | frmEnc n | frmDec n => cases h; simp only [exec, execFrmEnc, execFrmDec]; split <;> cases u <;> rfl
  | hdrDec len =>
    cases h; simp only [exec, execHdrDec, setRequests_reads]
    split <;> cases u <;> rfl
  | blkBegin v =>
    have hv : v ≠ u := by rintro rfl; exact hb rfl
    cases h; simp only [exec, execBlkBegin, setRequests, sess_setSess_of_ne s hv]
    split
    · rw [reconfigure_setSess_of_ne s hv, sess_reconfigure_of_ne s hv.symm]
    · rfl
  | txPush =>
    cases h; simp only [exec, execTxPush, setRequests_reads]
    split
    · split <;> cases u <;> rfl
    · rfl
  | txEnd =>
    cases h; simp only [exec, execTxEnd, setRequests_reads]
    split
    · exact congrArg _ (emitWhileFull_comm (setRequests · u bank en release) (fun _ => by cases u <;> rfl)
        (fun _ => by cases u <;> rfl) _ s)
    · rfl
  | rxParse len =>
    cases h; simp only [exec, execRxParse, setRequests_reads]
    split
    · split <;> cases u <;> rfl
    · rfl
  | cfgHost v len | cfgPort v port | cfgNch v n | cfgName v len | cfgRun v b | cfgSrclr v => cases hp

/-! ## The order of two ports' words -/

/-- The commands of the control port are those that configure a unit (30_encoding R104). -/
theorem port_control_iff (i : Instr) : i.port = .control ↔ ∃ u, Configures u i := by
  cases i with
  | cfgHost u len | cfgPort u port | cfgNch u n | cfgName u len | cfgRun u b | cfgSrclr u =>
    exact ⟨fun _ => ⟨u, rfl⟩, fun _ => rfl⟩
  | _ => exact ⟨nofun, fun ⟨_, h⟩ => h.elim⟩

/-- A command that configures a unit and one of the audio port that is not the unit's boundary end alike in either order: the
second neither moves the requests nor `CIN`, nor reads the requests. -/
theorem exec_comm_of_configures {c a : Instr} {s t₁ t₂ t₃ t₄ : State} {u : SessionUnit} (hc : Configures u c)
    (hp : a.port = .audio) (hb : a ≠ .blkBegin u) (h₁ : exec c s = .next t₁) (h₂ : exec a t₁ = .next t₂)
    (h₃ : exec a s = .next t₃) (h₄ : exec c t₃ = .next t₄) : t₂ = t₄ := by
  have hna : ¬ Configures u a := fun h => by
    cases hp.symm.trans ((port_control_iff a).mpr ⟨u, h⟩)
  obtain ⟨bank, en, release, rfl, rfl⟩ :=
    exec_requests_congr hc (exec_sess_of_not h₃ hna hb) (exec_cinBytes h₃) h₁ h₄
  rw [exec_setRequests h₃ hp hb] at h₂
  cases h₂; rfl

/-- Sticky bits raised before a command or after it end alike, so an illegal word commutes with every command (10_state R47). -/
theorem exec_raise {i : Instr} {s t : State} (h : exec i s = .next t) (m : BitVec 6) :
    exec i (s.raise m) = .next (t.raise m) := by
  have hb : beside t s.inputs m = t.raise m := by
    rw [← (exec_inputs_par i s t h).1]; rfl
  exact hb ▸ exec_beside h s.inputs m

/-- Settles O48, on the state that holds neither word: two commands by `exec_comm_of_configures`, a command and an illegal word by
`exec_raise`, two illegal words because they raise the same bit. -/
theorem portsCommute : Obligations.PortsCommute := by
  intro s rest wc wa hbnd t₁ t₂ t₃ t₄ h₁ h₂ h₃ h₄
  have hin₁ : t₁.inputs = Input.command .audio wa :: rest := step_word_inputs rfl h₁
  have hin₃ : t₃.inputs = Input.command .control wc :: rest := step_word_inputs rfl h₃
  rcases word_cases .control wc with ⟨c, hdc, hpc, hc⟩ | hc <;>
    rcases word_cases .audio wa with ⟨a, hda, hpa, ha⟩ | ha <;>
    rw [hc _ _ rfl] at h₁ <;> rw [ha _ _ hin₁] at h₂ <;> rw [ha _ _ rfl] at h₃ <;> rw [hc _ _ hin₃] at h₄
  · obtain ⟨u, hcu⟩ := (port_control_iff c).mp hpc
    have hb : a ≠ .blkBegin u := by rintro rfl; exact hbnd u c hdc hcu hda
    exact exec_comm_of_configures hcu hpa hb (exec_setInputs h₁ rest) h₂ (exec_setInputs h₃ rest) h₄
  · cases h₂; cases h₃
    exact Host.Outcome.next.inj ((exec_raise (exec_setInputs h₁ rest) _).symm.trans h₄)
  · cases h₁; cases h₄
    exact Host.Outcome.next.inj (h₂.symm.trans (exec_raise (exec_setInputs h₃ rest) _))
  · cases h₁; cases h₂; cases h₃; cases h₄
    rfl

end Sys2Proof.Proofs.MemoryFamily
end

section
/-! PROOF. The encoding family: the opcode map, the decoder and the encoder describe the same words (30_encoding R101 to R108).
A command belongs to one row of R104, its word has the fields of that row, and a word with those fields decodes to a command of
it; the port rule, the match/mask table and the illegal words are readings of this one fact. -/

namespace Sys2Proof.Proofs.EncodingFamily

open Sys2Proof.Machine Sys2Proof.Claims Sys2Proof.Laws Sys2Proof.Proofs.MemoryFamily

/-! ## The decoder and the encoder invert each other -/

/-- Settles O7: each command's form of operand is read back. -/
theorem decodeInvertsEncode : Obligations.DecodeInvertsEncode
  | .qF2I => RoundTrip.qF2I
  | .qI2F w => RoundTrip.qI2F w
  | .frmEnc n => RoundTrip.frmEnc n
  | .frmDec n => RoundTrip.frmDec n
  | .hdrEnc => RoundTrip.hdrEnc
  | .hdrDec len => RoundTrip.hdrDec len
  | .blkBegin u => RoundTrip.blkBegin u
  | .txPush => RoundTrip.txPush
  | .txEnd => RoundTrip.txEnd
  | .rxParse len => RoundTrip.rxParse len
  | .cfgHost u len => RoundTrip.cfgHost u len
  | .cfgPort u port => RoundTrip.cfgPort u port
  | .cfgNch u n => RoundTrip.cfgNch u n
  | .cfgName u len => RoundTrip.cfgName u len
  | .cfgRun u b => RoundTrip.cfgRun u b
  | .cfgSrclr u => RoundTrip.cfgSrclr u

/-- Settles O8: the word is packed from its fields, and those are the fields the encoder packs. -/
theorem encodeInvertsDecode : Obligations.EncodeInvertsDecode := by
  intro w i h
  obtain ⟨hrsv, hop⟩ := decode_ok h
  obtain ⟨hpack, hwf⟩ := decodeOp_ok hop
  exact ⟨hpack.symm.trans (pack_fields hrsv), hwf⟩

/-! ## The row of a command -/

/-- The row of 30_encoding R104 that a command belongs to. -/
def rowOf : Instr → OpRow
  | .qF2I => ⟨0x01#8, .audio, false, 0, 0⟩
  | .qI2F _ => ⟨0x02#8, .audio, false, 0, 65535⟩
  | .frmEnc _ => ⟨0x03#8, .audio, false, 1, 256⟩
  | .frmDec _ => ⟨0x04#8, .audio, false, 1, 256⟩
  | .hdrEnc => ⟨0x05#8, .audio, false, 0, 0⟩
  | .hdrDec _ => ⟨0x06#8, .audio, false, 0, 65535⟩
  | .blkBegin _ => ⟨0x10#8, .audio, true, 0, 0⟩
  | .txPush => ⟨0x11#8, .audio, false, 0, 0⟩
  | .txEnd => ⟨0x12#8, .audio, false, 0, 0⟩
  | .rxParse _ => ⟨0x18#8, .audio, false, 0, 65535⟩
  | .cfgHost _ _ => ⟨0x20#8, .control, true, 0, 255⟩
  | .cfgPort _ _ => ⟨0x21#8, .control, true, 0, 65535⟩
  | .cfgNch _ _ => ⟨0x22#8, .control, true, 0, 1048575⟩
  | .cfgName _ _ => ⟨0x23#8, .control, true, 0, 255⟩
  | .cfgRun _ _ => ⟨0x24#8, .control, true, 0, 1⟩
  | .cfgSrclr _ => ⟨0x25#8, .control, true, 0, 0⟩

theorem rowOf_mem_opcodeMap (i : Instr) : rowOf i ∈ opcodeMap := by
  cases i <;> simp [rowOf, opcodeMap]

theorem port_rowOf (i : Instr) : (rowOf i).port = i.port := by cases i <;> rfl

/-- Every row of the opcode map is the row of some command. -/
theorem exists_rowOf_eq : ∀ r ∈ opcodeMap, ∃ i, rowOf i = r := by
  simp only [opcodeMap, List.forall_mem_cons]
  exact ⟨⟨.qF2I, rfl⟩, ⟨.qI2F 0, rfl⟩, ⟨.frmEnc 0, rfl⟩, ⟨.frmDec 0, rfl⟩, ⟨.hdrEnc, rfl⟩, ⟨.hdrDec 0, rfl⟩,
    ⟨.blkBegin .tx, rfl⟩, ⟨.txPush, rfl⟩, ⟨.txEnd, rfl⟩, ⟨.rxParse 0, rfl⟩, ⟨.cfgHost .tx 0, rfl⟩, ⟨.cfgPort .tx 0, rfl⟩,
    ⟨.cfgNch .tx 0, rfl⟩, ⟨.cfgName .tx 0, rfl⟩, ⟨.cfgRun .tx true, rfl⟩, ⟨.cfgSrclr .tx, rfl⟩, nofun⟩

/-- The word has the fields that the row asks for: none of 30_encoding R108 (a) to (d) holds by it. -/
structure FitsRow (r : OpRow) (w : Word) : Prop where
  op : opField w = r.op
  rsv : rsvField w = 0#3
  unit : r.unit = false → unitField w = 0#1
  least : r.least ≤ (argField w).toNat
  greatest : (argField w).toNat ≤ r.greatest

/-- A word is legal on a port when it fits a row of the port. -/
theorem legalCommand_iff_fitsRow (p : Port) (w : Word) :
    LegalCommand p w ↔ ∃ r ∈ opcodeMap, FitsRow r w ∧ r.port = p :=
  ⟨fun ⟨r, hr, hop, hrsv, hunit, hleast, hgreatest, hp⟩ => ⟨r, hr, ⟨hop, hrsv, hunit, hleast, hgreatest⟩, hp⟩,
    fun ⟨r, hr, h, hp⟩ => ⟨r, hr, h.op, h.rsv, h.unit, h.least, h.greatest, hp⟩⟩

/-! ## A word decodes to a command of a row when it fits the row -/

/-- The word of a well-formed command fits the command's row. -/
theorem fitsRow_encode {i : Instr} (h : i.wellFormed = true) : FitsRow (rowOf i) (encode i) := by
  cases i with
  | frmEnc n | frmDec n =>
    have hn : 1 ≤ n.toNat ∧ n.toNat ≤ 256 := of_decide_eq_true h
    constructor <;> simp [encode, rowOf] <;> omega
  | qI2F w | hdrDec w | rxParse w | cfgHost _ w | cfgPort _ w | cfgNch _ w | cfgName _ w =>
    have hw := w.isLt
    constructor <;> simp [encode, rowOf]
    omega
  | cfgRun u b => cases b <;> constructor <;> simp [encode, rowOf]
  | _ => constructor <;> simp [encode, rowOf]

/-- A decoded word fits the row of its command. -/
theorem fitsRow_of_decode {w : Word} {i : Instr} (h : decode w = .ok i) : FitsRow (rowOf i) w := by
  obtain ⟨rfl, hwf⟩ := encodeInvertsDecode w i h
  exact fitsRow_encode hwf

/-- A number below `2 ^ n` in the field `arg` is an operand of `n` bits. -/
theorem exists_eq_setWidth (n : Nat) {arg : BitVec 20} (h : arg.toNat < 2 ^ n) : ∃ x : BitVec n, arg = x.setWidth 20 :=
  ⟨arg.setWidth n, BitVec.eq_of_toNat_eq (by simp [Nat.mod_eq_of_lt h, Nat.mod_eq_of_lt arg.isLt])⟩

/-- The fields of a row decode to a command of the row. -/
theorem decodeOp_of_row (i : Instr) {u : BitVec 1} {arg : BitVec 20} (hunit : (rowOf i).unit = false → u = 0#1)
    (hleast : (rowOf i).least ≤ arg.toNat) (hgreatest : arg.toNat ≤ (rowOf i).greatest) :
    ∃ j, decodeOp (rowOf i).op u arg = .ok j ∧ rowOf j = rowOf i := by
  cases i with
  | qF2I | hdrEnc | txPush | txEnd =>
    obtain rfl := hunit rfl
    obtain rfl : arg = 0#20 := BitVec.eq_of_toNat_eq (Nat.le_zero.mp hgreatest)
    exact ⟨_, rfl, rfl⟩
  | blkBegin v | cfgSrclr v =>
    obtain rfl : arg = 0#20 := BitVec.eq_of_toNat_eq (Nat.le_zero.mp hgreatest)
    exact ⟨_, rfl, rfl⟩
  | qI2F w | hdrDec w | rxParse w =>
    obtain rfl := hunit rfl
    obtain ⟨x, rfl⟩ := exists_eq_setWidth 16 (Nat.lt_succ_of_le hgreatest)
    exact ⟨_, argHalf_setWidth x _, rfl⟩
  | cfgPort v w =>
    obtain ⟨x, rfl⟩ := exists_eq_setWidth 16 (Nat.lt_succ_of_le hgreatest)
    exact ⟨_, argHalf_setWidth x _, rfl⟩
  | cfgHost v n | cfgName v n =>
    obtain ⟨x, rfl⟩ := exists_eq_setWidth 8 (Nat.lt_succ_of_le hgreatest)
    exact ⟨_, argLength_setWidth x _, rfl⟩
  | frmEnc n | frmDec n =>
    obtain rfl := hunit rfl
    exact ⟨_, if_pos ⟨hleast, hgreatest⟩, rfl⟩
  | cfgNch v n => exact ⟨_, rfl, rfl⟩
  | cfgRun v b =>
    obtain ⟨x, rfl⟩ := exists_eq_setWidth 1 (Nat.lt_succ_of_le hgreatest)
    obtain rfl | rfl := BitVec.eq_zero_or_eq_one x <;> exact ⟨_, rfl, rfl⟩

/-- A word that fits the row of a command decodes to a command of the row. -/
theorem decode_of_fitsRow {i : Instr} {w : Word} (h : FitsRow (rowOf i) w) :
    ∃ j, decode w = .ok j ∧ rowOf j = rowOf i := by
  rw [← pack_fields h.rsv, decode_pack, h.op]
  exact decodeOp_of_row i h.unit h.least h.greatest

/-! ## The port of a word -/

/-- The legal words of a port are those that decode to a command of the port (30_encoding R108). -/
theorem legalCommand_iff_decode (p : Port) (w : Word) : LegalCommand p w ↔ ∃ i, decode w = .ok i ∧ i.port = p := by
  rw [legalCommand_iff_fitsRow]
  constructor
  · rintro ⟨r, hr, hfit, hp⟩
    obtain ⟨i, rfl⟩ := exists_rowOf_eq r hr
    obtain ⟨j, hj, hrow⟩ := decode_of_fitsRow hfit
    exact ⟨j, hj, by rw [← port_rowOf, hrow, hp]⟩
  · rintro ⟨i, hi, hp⟩
    exact ⟨rowOf i, rowOf_mem_opcodeMap i, fitsRow_of_decode hi, (port_rowOf i).trans hp⟩

/-- Settles O5: what a step makes of a word turns on whether it decodes to a command of the port. -/
theorem illegalWordSetsIllcmdOnly : Obligations.IllegalWordSetsIllcmdOnly := by
  intro p w
  refine ⟨(legalCommand_iff_decode p w).mp, fun hillegal s rest hin => ?_⟩
  rcases step_command hin with ⟨i, hd, hp, -⟩ | ⟨-, hstep⟩
  · exact absurd ((legalCommand_iff_decode p w).mpr ⟨i, hd, hp⟩) hillegal
  · exact hstep

/-! ## The match and the mask of a row (spec/opcode_table.json) -/

/-- How many low bits of `arg` hold the operand: the bits of `arg` that the mask leaves out. -/
def operandBits : Instr → Nat
  | .qF2I | .hdrEnc | .blkBegin _ | .txPush | .txEnd | .cfgSrclr _ => 0
  | .cfgRun _ _ => 1
  | .cfgHost _ _ | .cfgName _ _ => 8
  | .frmEnc _ | .frmDec _ => 9
  | .qI2F _ | .hdrDec _ | .rxParse _ | .cfgPort _ _ => 16
  | .cfgNch _ _ => 20

/-- Two words with the same fields are the same word. -/
theorem word_eq_iff_fields {v w : Word} :
    v = w ↔ opField v = opField w ∧ unitField v = unitField w ∧ rsvField v = rsvField w ∧ argField v = argField w := by
  refine ⟨by rintro rfl; exact ⟨rfl, rfl, rfl, rfl⟩, fun ⟨hop, hunit, hrsv, harg⟩ => BitVec.eq_of_toNat_eq ?_⟩
  have h1 := congrArg BitVec.toNat hop
  have h2 := congrArg BitVec.toNat hunit
  have h3 := congrArg BitVec.toNat hrsv
  have h4 := congrArg BitVec.toNat harg
  rw [toNat_opField, toNat_opField] at h1
  rw [toNat_unitField, toNat_unitField] at h2
  rw [toNat_rsvField, toNat_rsvField] at h3
  rw [toNat_argField, toNat_argField] at h4
  omega

/-- A mask acts field by field. -/
theorem and_eq_iff_fields (v m w : Word) :
    v &&& m = w ↔ opField v &&& opField m = opField w ∧ unitField v &&& unitField m = unitField w ∧
      rsvField v &&& rsvField m = rsvField w ∧ argField v &&& argField m = argField w := by
  simp only [word_eq_iff_fields, opField, unitField, rsvField, argField, BitVec.extractLsb'_and]

/-- The mask holds all of `op` and `rsv`, `u` where the command takes no unit, and `arg` above the operand. -/
theorem tableMask_fields (i : Instr) :
    opField (tableMask i) = BitVec.allOnes 8 ∧ unitField (tableMask i) = BitVec.ofBool (!(rowOf i).unit) ∧
      rsvField (tableMask i) = BitVec.allOnes 3 ∧ argField (tableMask i) = BitVec.allOnes 20 <<< operandBits i := by
  cases i <;> simp only [tableMask, rowOf, operandBits] <;> decide

/-- The match is the operation code of the row, every other field 0. -/
theorem tableMatch_eq_pack (i : Instr) : tableMatch i = pack (rowOf i).op 0#1 0#20 := by
  cases i <;> simp only [tableMatch, rowOf] <;> decide

/-- The bits from `n` up are 0 in the numbers below `2 ^ n`. -/
theorem and_allOnes_shiftLeft_eq_zero_iff (arg : BitVec 20) (n : Nat) :
    arg &&& BitVec.allOnes 20 <<< n = 0#20 ↔ arg.toNat < 2 ^ n := by
  have hle := Nat.div_mul_le_self arg.toNat (2 ^ n)
  have hlt := arg.isLt
  rw [← BitVec.shiftLeft_ushiftRight, BitVec.toNat_eq, BitVec.toNat_shiftLeft, BitVec.toNat_ushiftRight,
    Nat.shiftLeft_eq, Nat.shiftRight_eq_div_pow, Nat.mod_eq_of_lt (by omega), BitVec.toNat_ofNat, Nat.zero_mod,
    Nat.mul_eq_zero, or_iff_left (Nat.two_pow_pos n).ne', Nat.div_eq_zero_iff_lt (Nat.two_pow_pos n)]

/-- The unit bit is masked where the command takes no unit. -/
theorem and_ofBool_not_eq_zero_iff (u : BitVec 1) (b : Bool) :
    u &&& BitVec.ofBool (!b) = 0#1 ↔ (b = false → u = 0#1) := by
  revert u b; decide

/-- Below the operand's width the row's constraint is the row's range. -/
theorem range_iff_constraint (i : Instr) (w : Word) :
    (argField w).toNat < 2 ^ operandBits i ∧ tableConstraint i w ↔
      (rowOf i).least ≤ (argField w).toNat ∧ (argField w).toNat ≤ (rowOf i).greatest := by
  cases i with
  | frmEnc n | frmDec n =>
    have hlow : (w.extractLsb' 0 9).toNat = (argField w).toNat % 512 := by
      rw [toNat_argField]; simp only [BitVec.extractLsb'_toNat]; omega
    simp only [tableConstraint, operandBits, rowOf, hlow]
    omega
  | _ => simp only [tableConstraint, operandBits, rowOf, and_true]; omega

/-- A word fits a command's row when it agrees with the match under the mask and meets the constraint. -/
theorem fitsRow_iff_table (i : Instr) (w : Word) :
    FitsRow (rowOf i) w ↔ w &&& tableMask i = tableMatch i ∧ tableConstraint i w := by
  obtain ⟨hop, hunit, hrsv, harg⟩ := tableMask_fields i
  rw [and_eq_iff_fields, hop, hunit, hrsv, harg, tableMatch_eq_pack, opField_pack, unitField_pack, rsvField_pack,
    argField_pack, BitVec.and_allOnes, BitVec.and_allOnes, and_ofBool_not_eq_zero_iff,
    and_allOnes_shiftLeft_eq_zero_iff, and_assoc, and_assoc, and_assoc, range_iff_constraint]
  exact ⟨fun h => ⟨h.op, h.unit, h.rsv, h.least, h.greatest⟩,
    fun ⟨hop, hunit, hrsv, hleast, hgreatest⟩ => ⟨hop, hrsv, hunit, hleast, hgreatest⟩⟩

/-- Settles O6: both directions are about the words that fit the command's row. -/
theorem decoderAgreesWithOpcodeTable : Obligations.DecoderAgreesWithOpcodeTable := by
  refine fun i w => ⟨fun h => (fitsRow_iff_table i w).mp (fitsRow_of_decode h), fun hmask hcon => ?_⟩
  obtain ⟨j, hj, hrow⟩ := decode_of_fitsRow ((fitsRow_iff_table i w).mpr ⟨hmask, hcon⟩)
  exact ⟨j, hj, by rw [tableMatch_eq_pack, tableMatch_eq_pack, hrow]⟩

/-! ## Presented and written-out words -/

/-- Settles O4: the word is put before all pending events, on the port of its command. -/
theorem placedWordRunsFirst : Obligations.PlacedWordRunsFirst := by
  intro s w i h
  have hd : decode (BitVec.ofNat 32 (w % 2 ^ 32)) = .ok i := by
    unfold decodeTableWord at h
    split at h
    · next j hj => cases h; exact hj
    · cases h
  have hport : i.port = portFor (BitVec.ofNat 32 (w % 2 ^ 32)) := by rw [portFor, hd]
  exact (stepRunsTheDecodedCommand (s.withFetchWord 32 w) _ _ s.inputs i rfl hd hport).2

/-- Settles O9: each word is evaluated. -/
theorem specWordsDecode : Obligations.SpecWordsDecode :=
  ⟨rfl, rfl, rfl, rfl, rfl, rfl, rfl, rfl, rfl, rfl, rfl, rfl⟩

end Sys2Proof.Proofs.EncodingFamily
end

section
/-! PROOF. The sample codec family: truncation of exact rationals, the quantizer and the dequantizer as functions on patterns
(40_sample_codec R140 to R153), the frames and the four commands made of them (R154 to R160), and the way of a sample from the
send unit's buffer through a datagram into `CHBUF` (R163). -/

namespace Sys2Proof.Proofs.SampleCodecFamily

open Sys2Proof.Machine Sys2Proof.Claims Sys2Proof.Laws

/-! ## Truncation toward zero (00_scope R13) -/

theorem truncRat_of_nonneg {q : ℚ} (h : 0 ≤ q) : truncRat q = ⌊q⌋ := if_pos h

theorem truncRat_of_neg {q : ℚ} (h : q < 0) : truncRat q = ⌈q⌉ := if_neg (not_le.mpr h)

theorem truncRat_neg (q : ℚ) : truncRat (-q) = -truncRat q := by
  rcases lt_trichotomy q 0 with h | rfl | h
  · rw [truncRat_of_nonneg (neg_nonneg.mpr h.le), truncRat_of_neg h, Int.floor_neg]
  · simp [truncRat]
  · rw [truncRat_of_neg (neg_lt_zero.mpr h), truncRat_of_nonneg h.le, Int.ceil_neg]

@[simp] theorem truncRat_intCast (n : ℤ) : truncRat n = n := by
  simp [truncRat]

theorem truncRat_mono {q r : ℚ} (h : q ≤ r) : truncRat q ≤ truncRat r := by
  rcases le_or_gt 0 q with hq | hq
  · rw [truncRat_of_nonneg hq, truncRat_of_nonneg (hq.trans h)]
    exact Int.floor_mono h
  · rw [truncRat_of_neg hq]
    rcases le_or_gt 0 r with hr | hr
    · rw [truncRat_of_nonneg hr]
      exact (Int.ceil_le.mpr (by simpa using hq.le)).trans (Int.floor_nonneg.mpr hr)
    · rw [truncRat_of_neg hr]
      exact Int.ceil_mono h

theorem truncRat_le_iff {n : ℤ} (hn : 0 ≤ n) (q : ℚ) : truncRat q ≤ n ↔ q < n + 1 := by
  rcases le_or_gt 0 q with h | h
  · rw [truncRat_of_nonneg h, Int.floor_le_iff]
  · have hn' : (0 : ℚ) ≤ n := by exact_mod_cast hn
    have hle : ⌈q⌉ ≤ n := Int.ceil_le.mpr (h.le.trans hn')
    rw [truncRat_of_neg h]
    exact iff_of_true hle (by linarith)

theorem le_truncRat_iff {n : ℤ} (hn : n ≤ 0) (q : ℚ) : n ≤ truncRat q ↔ (n : ℚ) - 1 < q := by
  have h := truncRat_le_iff (neg_nonneg.mpr hn) (-q)
  rw [truncRat_neg, neg_le_neg_iff] at h
  rw [h, Int.cast_neg]
  constructor <;> intro _ <;> linarith

/-- The truncation is in 16-bit range exactly when the value is in the open range one step wider (40_sample_codec R144). -/
theorem truncRat_in_range_iff (q : ℚ) :
    -32768 ≤ truncRat q ∧ truncRat q ≤ 32767 ↔ -32769 < q ∧ q < 32768 := by
  rw [le_truncRat_iff (by decide), truncRat_le_iff (by decide)]
  norm_num

/-- Truncation loses less than one in magnitude, and never adds. -/
theorem abs_truncRat_bounds (q : ℚ) : |(truncRat q : ℚ)| ≤ |q| ∧ |q| < |(truncRat q : ℚ)| + 1 := by
  wlog h : 0 ≤ q generalizing q with nonneg
  · simpa [truncRat_neg] using nonneg (-q) (by linarith)
  · have hfloor : (0 : ℚ) ≤ (⌊q⌋ : ℚ) := by exact_mod_cast Int.floor_nonneg.mpr h
    rw [truncRat_of_nonneg h, abs_of_nonneg h, abs_of_nonneg hfloor]
    exact ⟨Int.floor_le q, Int.lt_floor_add_one q⟩

theorem abs_sub_truncRat_lt_one (q : ℚ) : |q - truncRat q| < 1 := by
  rw [abs_sub_lt_iff]
  rcases le_or_gt 0 q with h | h
  · rw [truncRat_of_nonneg h]
    have h1 := Int.floor_le q
    have h2 := Int.lt_floor_add_one q
    constructor <;> linarith
  · rw [truncRat_of_neg h]
    have h1 := Int.le_ceil q
    have h2 := Int.ceil_lt_add_one q
    constructor <;> linarith

/-! ## The quantizer (40_sample_codec R140 to R149) -/

/-- The quantizer on a finite input, in the exact rationals. -/
theorem qenc_of_finiteSample {x : Sample} (h : FiniteSample x) (policy : QovfPolicy) :
    qenc policy x = (quantWord policy (truncRat (scaled x)), if fits16 (truncRat (scaled x)) then .none else .qovf) := by
  rw [scaled, truncRat_scaled]
  exact qenc_finite ((isFinite_iff x).mpr h) policy

/-- A truncation that fits 16 bits is the word, under either policy and without flag. -/
theorem qenc_of_truncRat {x : Sample} (h : FiniteSample x) {v : ℤ} (hv : truncRat (scaled x) = v)
    (hfits : fits16 v = true) (policy : QovfPolicy) : qenc policy x = (BitVec.ofInt 16 v, .none) := by
  rw [qenc_of_finiteSample h, hv, quantWord_fits hfits, if_pos hfits]

theorem fits16_of_inRange {x : Sample} (h : InRange x) : fits16 (truncRat (scaled x)) = true :=
  decide_eq_true ((truncRat_in_range_iff _).mpr h.2)

/-- In range the word, read as a signed number, is the truncation. -/
theorem toInt_qenc_of_inRange {x : Sample} (h : InRange x) (policy : QovfPolicy) :
    (qenc policy x).1.toInt = truncRat (scaled x) := by
  rw [qenc_of_truncRat h.1 rfl (fits16_of_inRange h), toInt_ofInt_fits (fits16_of_inRange h)]

/-- Settles O11: the whole-number arithmetic of the quantizer is the truncation of the exact value. -/
theorem quantizerTruncatesExactly : Obligations.QuantizerTruncatesExactly := by
  refine fun policy x => ⟨fun hfin => ⟨truncRat_in_range_iff _, fun hlow hhigh => ?_, fun hover => ?_, fun hunder => ?_⟩,
    fun hnot => ?_⟩
  · exact qenc_of_truncRat hfin rfl (decide_eq_true ⟨hlow, hhigh⟩) policy
  · have hfits : fits16 (truncRat (scaled x)) = false := decide_eq_false (by omega)
    rw [qenc_of_finiteSample hfin, hfits]
    cases policy with
    | wrap => rfl
    | saturate => rw [quantWord, if_pos hover]; rfl
  · have hfits : fits16 (truncRat (scaled x)) = false := decide_eq_false (by omega)
    rw [qenc_of_finiteSample hfin, hfits]
    cases policy with
    | wrap => rfl
    | saturate => rw [quantWord, if_neg (by omega), if_pos hunder]; rfl
  · exact qenc_not_finite (by rwa [← Bool.not_eq_true, isFinite_iff]) policy

/-- Settles O12: below one step the truncation is 0, at one step it is 1 or -1. -/
theorem quantizerTinyInputs : Obligations.QuantizerTinyInputs := by
  have hstep : (2 : ℚ) ^ (-15 : ℤ) * 32768 = 1 := by norm_num
  refine fun policy => ⟨fun x hfin hx => ?_, fun x hfin hx => ?_, fun x hfin hx => ?_, ?_, ?_⟩
  · have hscaled : |scaled x| < 1 := by
      rw [scaled, abs_mul, ← hstep, abs_of_pos (by norm_num : (0 : ℚ) < 32768)]
      exact mul_lt_mul_of_pos_right hx (by norm_num)
    have hzero : truncRat (scaled x) = 0 := by
      obtain ⟨hlow, hhigh⟩ := abs_lt.mp hscaled
      exact le_antisymm ((truncRat_le_iff le_rfl _).mpr (by simpa using hhigh))
        ((le_truncRat_iff le_rfl _).mpr (by simpa using hlow))
    exact qenc_of_truncRat hfin hzero rfl policy
  · have hone : truncRat (scaled x) = 1 := by
      rw [scaled, hx, hstep]
      exact truncRat_intCast 1
    exact qenc_of_truncRat hfin hone rfl policy
  · have hone : truncRat (scaled x) = -1 := by
      rw [scaled, hx, neg_mul, hstep]
      exact truncRat_intCast (-1)
    exact qenc_of_truncRat hfin hone rfl policy
  · cases policy <;> decide
  · cases policy <;> decide

/-- Changing the sign bit negates the value. -/
theorem scaled_xor_sign (x : Sample) : scaled (x ^^^ 0x80000000#32) = -scaled x := by
  have hsign : signBit (x ^^^ 0x80000000#32) = !signBit x := by
    rw [signBit, BitVec.getLsbD_xor]
    exact Bool.xor_true _
  have hexp : expField (x ^^^ 0x80000000#32) = expField x := by
    rw [expField, BitVec.extractLsb'_xor, show (0x80000000#32).extractLsb' 23 8 = 0#8 from rfl, BitVec.xor_zero, expField]
  have hfrac : fracField (x ^^^ 0x80000000#32) = fracField x := by
    rw [fracField, BitVec.extractLsb'_xor, show (0x80000000#32).extractLsb' 0 23 = 0#23 from rfl, BitVec.xor_zero, fracField]
  have habs : scaledAbs (x ^^^ 0x80000000#32) = scaledAbs x := by rw [scaledAbs, hexp, hfrac, scaledAbs]
  rw [scaled, scaled, scaled_eq, scaled_eq, habs, signFactor, signFactor, hsign]
  cases signBit x <;> simp

/-! ## The dequantizer (40_sample_codec R150, R151) -/

theorem signBit_append (s : BitVec 1) (e : BitVec 8) (f : BitVec 23) : signBit (s ++ e ++ f) = s.getLsbD 0 := by
  rw [signBit, BitVec.getLsbD_append, if_neg (by decide), BitVec.getLsbD_append, if_neg (by decide)]

theorem expField_append (s : BitVec 1) (e : BitVec 8) (f : BitVec 23) : expField (s ++ e ++ f) = e.toNat := by
  rw [expField, BitVec.extractLsb'_append_eq_of_le (le_refl 23), BitVec.extractLsb'_append_eq_right]

theorem fracField_append (s : BitVec 1) (e : BitVec 8) (f : BitVec 23) : fracField (s ++ e ++ f) = f.toNat := by
  rw [fracField, BitVec.extractLsb'_append_eq_right]

theorem natAbs_toInt_le (w : BitVec 16) : w.toInt.natAbs ≤ 32768 := by
  have hlow := w.le_toInt
  have hhigh := w.toInt_lt
  omega

theorem natAbs_toInt_ne_zero {w : BitVec 16} (h : w ≠ 0#16) : w.toInt.natAbs ≠ 0 :=
  Int.natAbs_ne_zero.mpr (fun h0 => h (BitVec.toInt_inj.mp (h0.trans BitVec.toInt_zero.symm)))

theorem le_fifteen_of_two_pow_le {w : BitVec 16} {k : Nat} (h : 2 ^ k ≤ w.toInt.natAbs) : k ≤ 15 :=
  Nat.pow_le_pow_iff_right (by decide) |>.mp (h.trans (natAbs_toInt_le w))

theorem qdec_of_ne_zero {w : BitVec 16} (h : w ≠ 0#16) :
    qdec w = (if w.msb then 1#1 else 0#1) ++ BitVec.ofNat 8 (127 + w.toInt.natAbs.log2 - 15) ++
      BitVec.ofNat 23 ((w.toInt.natAbs - 2 ^ w.toInt.natAbs.log2) * 2 ^ (23 - w.toInt.natAbs.log2)) := if_neg h

/-- The fields of a dequantized word, where `k` is the index of the highest set bit of its magnitude (40_sample_codec R150). -/
theorem qdec_fields {w : BitVec 16} {k : Nat} (hlow : 2 ^ k ≤ w.toInt.natAbs) (hhigh : w.toInt.natAbs < 2 ^ (k + 1)) :
    (signBit (qdec w) = true ↔ w.toInt < 0) ∧ expField (qdec w) = 127 + k - 15 ∧
      fracField (qdec w) = (w.toInt.natAbs - 2 ^ k) * 2 ^ (23 - k) := by
  have hmag : w.toInt.natAbs ≠ 0 := (Nat.two_pow_pos k |>.trans_le hlow).ne'
  have hw : w ≠ 0#16 := by rintro rfl; exact hmag rfl
  have hk := le_fifteen_of_two_pow_le hlow
  have hfrac : (w.toInt.natAbs - 2 ^ k) * 2 ^ (23 - k) < 2 ^ 23 := by
    calc (w.toInt.natAbs - 2 ^ k) * 2 ^ (23 - k) < 2 ^ k * 2 ^ (23 - k) :=
          Nat.mul_lt_mul_of_pos_right (by omega) (Nat.two_pow_pos _)
      _ = 2 ^ 23 := by rw [← Nat.pow_add]; congr 1; omega
  rw [qdec_of_ne_zero hw, (Nat.log2_eq_iff hmag).mpr ⟨hlow, hhigh⟩, signBit_append, expField_append, fracField_append,
    BitVec.toNat_ofNat, BitVec.toNat_ofNat, Nat.mod_eq_of_lt hfrac]
  refine ⟨?_, by omega, rfl⟩
  rw [BitVec.msb_eq_toInt]
  by_cases hneg : w.toInt < 0 <;> simp [hneg]

theorem scaledAbs_qdec {w : BitVec 16} {k : Nat} (hlow : 2 ^ k ≤ w.toInt.natAbs) (hhigh : w.toInt.natAbs < 2 ^ (k + 1)) :
    scaledAbs (qdec w) = w.toInt.natAbs := by
  obtain ⟨-, hexp, hfrac⟩ := qdec_fields hlow hhigh
  have hk := le_fifteen_of_two_pow_le hlow
  have hsig : 2 ^ 23 + (w.toInt.natAbs - 2 ^ k) * 2 ^ (23 - k) = w.toInt.natAbs * 2 ^ (23 - k) := by
    have h23 : 2 ^ 23 = 2 ^ k * 2 ^ (23 - k) := by rw [← Nat.pow_add]; congr 1; omega
    rw [h23, ← Nat.add_mul, Nat.add_sub_cancel' hlow]
  have hscale : ((127 + k - 15 : ℕ) : ℤ) - 135 = -((23 - k : ℕ) : ℤ) := by omega
  rw [scaledAbs, if_neg (by omega), hexp, hfrac, hsig, hscale, zpow_neg, zpow_natCast, Nat.cast_mul, Nat.cast_pow,
    Nat.cast_ofNat, mul_inv_cancel_right₀ (by positivity)]

/-- The exact value of a dequantized word, in whole steps. -/
theorem scaled_qdec (w : BitVec 16) : scaled (qdec w) = w.toInt := by
  by_cases hw : w = 0#16
  · subst hw
    norm_num [scaled, realValue, qdec, signBit, expField, fracField]
  · obtain ⟨hlow, hhigh⟩ := (Nat.log2_eq_iff (natAbs_toInt_ne_zero hw)).mp rfl
    have hsign := (qdec_fields hlow hhigh).1
    rw [scaled, scaled_eq, scaledAbs_qdec hlow hhigh, signFactor, Nat.cast_natAbs, Int.cast_abs]
    by_cases hneg : w.toInt < 0
    · have hneg' : (w.toInt : ℚ) < 0 := by exact_mod_cast hneg
      rw [if_pos (hsign.mpr hneg), abs_of_neg hneg', neg_one_mul, neg_neg]
    · have hpos : (0 : ℚ) ≤ w.toInt := by exact_mod_cast not_lt.mp hneg
      rw [if_neg (mt hsign.mp hneg), abs_of_nonneg hpos, one_mul]

theorem finiteSample_qdec (w : BitVec 16) : FiniteSample (qdec w) := by
  refine (isFinite_iff _).mp (bne_iff_ne.mpr ?_)
  by_cases hw : w = 0#16
  · rw [hw]; decide
  · obtain ⟨hlow, hhigh⟩ := (Nat.log2_eq_iff (natAbs_toInt_ne_zero hw)).mp rfl
    have hk := le_fifteen_of_two_pow_le hlow
    rw [(qdec_fields hlow hhigh).2.1]
    omega

theorem realValue_qdec (w : BitVec 16) : realValue (qdec w) = (w.toInt : ℚ) / 32768 := by
  rw [← scaled_qdec, scaled, mul_div_cancel_right₀ _ (by norm_num)]

/-- Every word is in range, and quantizes to itself (40_sample_codec R149 (d)). -/
theorem qenc_qdec (policy : QovfPolicy) (w : BitVec 16) : qenc policy (qdec w) = (w, .none) := by
  have hlow := w.le_toInt
  have hhigh := w.toInt_lt
  have htrunc : truncRat (scaled (qdec w)) = w.toInt := by rw [scaled_qdec, truncRat_intCast]
  rw [qenc_of_truncRat (finiteSample_qdec w) htrunc (decide_eq_true (by omega)), BitVec.ofInt_toInt]

/-- Settles O13: each law is the law of truncation, read through the word's signed value. -/
theorem quantizerLaws : Obligations.QuantizerLaws := by
  refine fun policy => ⟨fun x y hx hy hle => ?_, fun x hx hneg => ?_, fun x hx => ?_, qenc_qdec policy⟩
  · rw [toInt_qenc_of_inRange hx, toInt_qenc_of_inRange hy]
    exact truncRat_mono (mul_le_mul_of_nonneg_right hle (by norm_num))
  · rw [toInt_qenc_of_inRange hx, toInt_qenc_of_inRange hneg, scaled_xor_sign, truncRat_neg]
  · obtain ⟨hle, hlt⟩ := abs_truncRat_bounds (scaled x)
    have hscaled : |scaled x| = |realValue x| * 32768 := by
      rw [scaled, abs_mul, abs_of_pos (by norm_num : (0 : ℚ) < 32768)]
    rw [hscaled] at hle hlt
    rw [toInt_qenc_of_inRange hx]
    constructor <;> linarith

/-- Settles O14: the value by `scaled_qdec`, the fields by `qdec_fields`. -/
theorem dequantizerIsExact : Obligations.DequantizerIsExact :=
  fun w => ⟨finiteSample_qdec w, realValue_qdec w, fun hw => by rw [hw]; rfl, fun _ => qdec_fields⟩

/-- Settles O15: the range is that of a signed 16-bit number, and the exact value tells the words apart. -/
theorem dequantizerRange : Obligations.DequantizerRange := by
  refine ⟨by decide, by decide, fun w => ?_, fun v w h => ?_⟩
  · have hlow : (-32768 : ℚ) ≤ w.toInt := by exact_mod_cast w.le_toInt
    have hhigh : (w.toInt : ℚ) ≤ 32767 := by exact_mod_cast Int.le_of_lt_add_one w.toInt_lt
    rw [realValue_qdec]
    constructor <;> linarith
  · have hval := congrArg scaled h
    rw [scaled_qdec, scaled_qdec] at hval
    exact BitVec.toInt_inj.mp (by exact_mod_cast hval)

/-- Settles O16: a sample comes back as its truncation, which loses less than one step. -/
theorem sampleRoundTrips : Obligations.SampleRoundTrips := by
  refine ⟨qenc_qdec, fun policy x hx => ?_, by decide⟩
  have hreal : realValue x = scaled x / 32768 := by rw [scaled, mul_div_cancel_right₀ _ (by norm_num)]
  have hback : realValue (qdec (qenc policy x).1) = (truncRat (scaled x) : ℚ) / 32768 := by
    rw [realValue_qdec, toInt_qenc_of_inRange hx]
  have hpos : (0 : ℚ) < 32768 := by norm_num
  refine ⟨hback, ?_, ?_⟩ <;> rw [hback, hreal]
  · rw [← sub_div, abs_div, abs_of_pos hpos]
    exact div_lt_div_of_pos_right (abs_sub_truncRat_lt_one _) hpos
  · rw [abs_div, abs_div]
    exact div_le_div_of_nonneg_right (abs_truncRat_bounds _).1 (abs_nonneg _)

/-! ## Frames (40_sample_codec R154, R158) -/

theorem getLsbD_quantMask_zero (f : QFlag) : (quantMask f).getLsbD 0 = decide (f = .qovf) := by
  cases f <;> rfl

theorem getLsbD_quantMask_one (f : QFlag) : (quantMask f).getLsbD 1 = decide (f = .qinv) := by
  cases f <;> rfl

/-- The quantizer raises bits 0 and 1 of the status word only. -/
theorem getLsbD_quantMask_of_two_le (f : QFlag) {k : Nat} (hk : 2 ≤ k) : (quantMask f).getLsbD k = false := by
  have hlt : (quantMask f).toNat < 2 ^ 2 := by cases f <;> decide
  exact Nat.testBit_lt_two_pow (hlt.trans_le (Nat.pow_le_pow_right (by decide) hk))

/-- `QOVF` of a frame is that of any of its channels. -/
theorem getLsbD_frameMask_zero (policy : QovfPolicy) (xs : List Sample) :
    (frameMask (frameEncode policy xs).2).getLsbD 0 = decide (∃ x ∈ xs, (qenc policy x).2 = .qovf) := by
  rw [getLsbD_frameMask, Bool.eq_iff_iff]
  simp only [frameEncode, List.any_map, List.any_eq_true, Function.comp_apply, getLsbD_quantMask_zero, decide_eq_true_eq]

/-- `QINV` of a frame is that of any of its channels. -/
theorem getLsbD_frameMask_one (policy : QovfPolicy) (xs : List Sample) :
    (frameMask (frameEncode policy xs).2).getLsbD 1 = decide (∃ x ∈ xs, (qenc policy x).2 = .qinv) := by
  rw [getLsbD_frameMask, Bool.eq_iff_iff]
  simp only [frameEncode, List.any_map, List.any_eq_true, Function.comp_apply, getLsbD_quantMask_one, decide_eq_true_eq]

theorem getLsbD_frameMask_of_two_le (fs : List QFlag) {k : Nat} (hk : 2 ≤ k) : (frameMask fs).getLsbD k = false := by
  rw [getLsbD_frameMask, List.any_eq_false]
  exact fun f _ => by rw [getLsbD_quantMask_of_two_le f hk]; decide

/-- The two bytes of a channel are those of its own word. -/
theorem getElem?_frameEncode (policy : QovfPolicy) {xs : List Sample} {c : Nat} {x : Sample} (h : xs[c]? = some x) :
    (frameEncode policy xs).1[2 * c]? = some (lowByte (qenc policy x).1) ∧
      (frameEncode policy xs).1[2 * c + 1]? = some (highByte (qenc policy x).1) := by
  rw [getElem?_frameEncode_low, getElem?_frameEncode_high, h]
  exact ⟨rfl, rfl⟩

/-- Settles O17: the bytes by their position, the flags bit by bit. -/
theorem frameEncodeLayout : Obligations.FrameEncodeLayout := by
  exact fun policy xs => ⟨length_frameEncode policy xs, fun c h => getElem?_frameEncode policy (List.getElem?_eq_getElem h),
    getLsbD_frameMask_zero policy xs, getLsbD_frameMask_one policy xs, fun k hk => getLsbD_frameMask_of_two_le _ hk⟩

/-- Consecutive pairs of bytes laid end to end are the bytes in order. -/
theorem flatMap_range_pair (b : Nat → Byte) (n : Nat) :
    (List.range n).flatMap (fun c => [b (2 * c), b (2 * c + 1)]) = (List.range (2 * n)).map b := by
  induction n with
  | zero => rfl
  | succ n ih =>
    rw [List.range_succ, List.flatMap_append, ih, show 2 * (n + 1) = 2 * n + 1 + 1 by ring, List.range_succ,
      List.range_succ]
    simp

/-- Encoding a decoded frame gives the bytes it was read from. -/
theorem frameEncode_frameDecode (policy : QovfPolicy) (n : Nat) (b : Nat → Byte) :
    (frameEncode policy (frameDecode n b)).1 = (List.range (2 * n)).map b := by
  simp only [frameEncode, frameDecode, List.flatMap_map, sampleAt, qenc_qdec, bytes16_le16, flatMap_range_pair]

/-- Settles O18: every word read is the one its sample quantizes to. -/
theorem frameDecodeInverted : Obligations.FrameDecodeInverted := by
  refine fun policy n b => ⟨length_frameDecode n b, fun c h => ?_, frameEncode_frameDecode policy n b, fun f hf => ?_⟩
  · simp only [frameDecode, List.getElem_map, List.getElem_range, sampleAt, le16]
  · simp only [frameEncode, frameDecode, List.mem_map] at hf
    obtain ⟨_, ⟨c, _, rfl⟩, rfl⟩ := hf
    rw [sampleAt, qenc_qdec]

/-! ## The four commands (40_sample_codec R148, R152, R156, R160) -/

/-- A word of a command without unit, as the spec writes it out (the operation code above the operand), is decoded by its
operation code and operand. -/
theorem decode_or_setWidth {n : Nat} (hn : n ≤ 20) (op : BitVec 8) (x : BitVec n) :
    decode (op.setWidth 32 <<< 24 ||| x.setWidth 32) = decodeOp op 0#1 (x.setWidth 20) := by
  have hx : (x.setWidth 20).setWidth 32 = x.setWidth 32 := by
    have hlt : x.toNat < 2 ^ 20 := x.isLt.trans_le (Nat.pow_le_pow_right (by decide) hn)
    apply BitVec.eq_of_toNat_eq
    simp only [BitVec.toNat_setWidth]
    omega
  rw [← decode_pack, pack_eq_or, hx]
  simp

/-- A channel count outside 1..256 is no operand (30_encoding R108 (d)). -/
theorem argCount_ne_ok {arg : BitVec 20} (h : ¬ (1 ≤ arg.toNat ∧ arg.toNat ≤ 256)) (f : BitVec 9 → Instr) (i : Instr) :
    argCount arg f ≠ .ok i := by
  rw [argCount, if_neg h]
  exact nofun

/-- The sticky bits after the flags of quantized samples have been raised. -/
theorem quantizerFlags_of_status {s t : State} {xs : List Sample}
    (h : t.status = s.status ||| frameMask (frameEncode s.par.qovfPolicy xs).2) : QuantizerFlags s t xs := by
  have hflag : ∀ f, t.hasFlag f =
      (s.hasFlag f || (frameMask (frameEncode s.par.qovfPolicy xs).2).getLsbD (statusIndex f)) := by
    intro f
    rw [State.hasFlag, h, BitVec.getLsbD_or, State.hasFlag]
  refine ⟨?_, ?_, fun f hovf hinv => ?_⟩
  · rw [hflag, show statusIndex .qovf = 0 from rfl, getLsbD_frameMask_zero, Bool.or_eq_true, decide_eq_true_iff]
  · rw [hflag, show statusIndex .qinv = 1 from rfl, getLsbD_frameMask_one, Bool.or_eq_true, decide_eq_true_iff]
  · have hk : 2 ≤ statusIndex f := by
      cases f with
      | qovf => exact absurd rfl hovf
      | qinv => exact absurd rfl hinv
      | illcmd | cfgerr | abufovf | linkerr => decide
    rw [hflag, getLsbD_frameMask_of_two_le _ hk, Bool.or_false]

/-- What is stored from offset 0 is read there. -/
theorem read_store_zero {α : Type} (m : Memory α) {vs : List α} {k : Nat} {v : α} (h : vs[k]? = some v) :
    (m.store 0 vs).read k = some v := by
  obtain ⟨hk, rfl⟩ := List.getElem?_eq_some_iff.mp h
  simpa using read_store_inside m 0 vs k hk

/-- A store from offset 0 leaves every element at and beyond its length alone. -/
theorem read_store_zero_of_le {α : Type} (m : Memory α) {vs : List α} {a : Nat} (h : vs.length ≤ a) :
    (m.store 0 vs).read a = m.read a := read_store_outside m 0 vs a (by omega)

/-- Settles O19: the two bytes are stored from offset 0, and the flag is that of a frame of one channel. -/
theorem quantizeCommandResult : Obligations.QuantizeCommandResult := by
  refine ⟨rfl, fun s => ⟨_, rfl, rfl, read_store_zero s.bout rfl, read_store_zero s.bout rfl,
    fun a ha => read_store_zero_of_le s.bout ha, quantizerFlags_of_status ?_, rfl⟩⟩
  simp [frameEncode, frameMask]

/-- Settles O20: the one sample is stored at offset 0. -/
theorem dequantizeCommandResult : Obligations.DequantizeCommandResult := fun s w =>
  ⟨(decode_or_setWidth (by decide) 0x02#8 w).trans (argHalf_setWidth w _), _, rfl, read_store_zero s.fout rfl,
    fun _ ha => read_store_zero_of_le s.fout ha, rfl⟩

theorem exec_frmEnc {n : BitVec 9} (h : 1 ≤ n.toNat ∧ n.toNat ≤ 256) (s : State) :
    exec (.frmEnc n) s = .next ((s.writeBout (frameEncode s.par.qovfPolicy (s.finFrame n.toNat)).1).raise
      (frameMask (frameEncode s.par.qovfPolicy (s.finFrame n.toNat)).2)) :=
  congrArg Host.Outcome.next (if_pos (decide_eq_true h))

theorem exec_frmDec {n : BitVec 9} (h : 1 ≤ n.toNat ∧ n.toNat ≤ 256) (s : State) :
    exec (.frmDec n) s = .next (s.writeFout (frameDecode n.toNat s.binAt)) :=
  congrArg Host.Outcome.next (if_pos (decide_eq_true h))

/-- On a count that no word decodes to the frame commands are illegal (30_encoding R108 (d)). -/
theorem exec_frm_illegal {n : BitVec 9} (h : ¬ (1 ≤ n.toNat ∧ n.toNat ≤ 256)) (s : State) :
    exec (.frmEnc n) s = .next s.illegalCommand ∧ exec (.frmDec n) s = .next s.illegalCommand := by
  have hcount : ¬ legalCount n = true := fun hlegal => h (of_decide_eq_true hlegal)
  exact ⟨congrArg Host.Outcome.next (if_neg hcount), congrArg Host.Outcome.next (if_neg hcount)⟩

/-- Settles O21: the encoded frame is stored from offset 0, and its flags are raised. -/
theorem frameEncodeCommandResult : Obligations.FrameEncodeCommandResult := by
  refine ⟨fun arg harg i h => ?_, fun s n => ⟨fun hlow hhigh => ?_, fun h => (exec_frm_illegal h s).1⟩⟩
  · exact argCount_ne_ok harg .frmEnc i ((decode_or_setWidth (le_refl 20) 0x03#8 arg).symm.trans h)
  · refine ⟨(decode_or_setWidth (by decide) 0x03#8 n).trans (argCount_setWidth n _ ⟨hlow, hhigh⟩), _,
      exec_frmEnc ⟨hlow, hhigh⟩ s, fun c hc => ?_, fun a ha => read_store_zero_of_le s.bout (by simpa using ha),
      quantizerFlags_of_status rfl, rfl⟩
    have hx : (s.finFrame n.toNat)[c]? = some (s.finAt c) := by simp [State.finFrame, hc]
    obtain ⟨hlo, hhi⟩ := getElem?_frameEncode s.par.qovfPolicy hx
    exact ⟨read_store_zero s.bout hlo, read_store_zero s.bout hhi⟩

/-- Settles O22: the decoded frame is stored from offset 0. -/
theorem frameDecodeCommandResult : Obligations.FrameDecodeCommandResult := by
  refine ⟨fun arg harg i h => ?_, fun s n => ⟨fun hlow hhigh => ?_, fun h => (exec_frm_illegal h s).2⟩⟩
  · exact argCount_ne_ok harg .frmDec i ((decode_or_setWidth (le_refl 20) 0x04#8 arg).symm.trans h)
  · refine ⟨(decode_or_setWidth (by decide) 0x04#8 n).trans (argCount_setWidth n _ ⟨hlow, hhigh⟩), _,
      exec_frmDec ⟨hlow, hhigh⟩ s, fun c hc => read_store_zero s.fout ?_,
      fun a ha => read_store_zero_of_le s.fout (by simpa using ha), rfl⟩
    simp [frameDecode, hc, sampleAt, le16]

/-! ## A sample's way from `ABUF` to `CHBUF` (40_sample_codec R163) -/

/-- Pieces of one length laid end to end: element `j` of piece `i`. -/
theorem getElem?_flatMap_of_length {α β : Type} {f : α → List β} {n : Nat} {xs : List α}
    (hf : ∀ x ∈ xs, (f x).length = n) {i j : Nat} (hj : j < n) (hi : i < xs.length) :
    (xs.flatMap f)[i * n + j]? = (f xs[i])[j]? := by
  induction xs generalizing i with
  | nil => exact absurd hi (Nat.not_lt_zero i)
  | cons x xs ih =>
    rw [List.forall_mem_cons] at hf
    rw [List.flatMap_cons]
    cases i with
    | zero => rw [Nat.zero_mul, Nat.zero_add, List.getElem?_append_left (by omega), List.getElem_cons_zero]
    | succ i =>
      have hoff : (i + 1) * n + j - (f x).length = i * n + j := by rw [hf.1, Nat.succ_mul]; omega
      rw [List.getElem?_append_right (by rw [hf.1, Nat.succ_mul]; omega), hoff, List.getElem_cons_succ]
      exact ih hf.2 (by simpa using hi)

/-- With exactly one full packet in `ABUF` the loop of `TX.END` takes one turn (42_packet_assembler R216). -/
theorem exec_txEnd_of_full {s : State} (hrun : s.tx.run = true) (hcap : 0 < payloadCap s.txChannels)
    (hw : s.wpos = 28 + payloadCap s.txChannels) : exec .txEnd s = .next (s.emitDatagram (payloadCap s.txChannels)) := by
  have hturns : (s.wpos - 28) / payloadCap s.txChannels = 1 := by
    rw [hw, Nat.add_sub_cancel_left, Nat.div_self hcap]
  have h : exec .txEnd s = .next (if s.tx.run then
      emitWhileFull (payloadCap s.txChannels) ((s.wpos - 28) / payloadCap s.txChannels) s else s) := rfl
  rw [h, if_pos hrun, hturns, emitWhileFull, if_pos hw.ge, emitWhileFull]

/-- An audio header passes the test of step 3 under either mask, whatever its index (43_packet_parser R247). -/
theorem isAudio_formatSR (p : Params) (i : BitVec 5) : isAudio p (formatSR 0#1 p.subprotoAudio i) = true := by
  rw [isAudio]
  generalize p.subprotoAudio = a
  cases p.subprotoCheck <;> revert a i <;> decide

/-- A datagram that carries the header of the send unit and its full payload is accepted under the send unit's name: every field
is read back (43_packet_parser R243, 41_header_codec R185). -/
theorem parse_txHeader {s : State} (h1 : 1 ≤ s.txChannels) (h2 : s.txChannels ≤ 254) (hsr : s.tx.srIdx.toNat < 21)
    {b : Nat → Byte} (hb : ∀ k v, (hdrEncode (txHeader s))[k]? = some v → b k = v) :
    parse s.par b (28 + payloadCap s.txChannels) s.tx.active.name = .ok
      { channels := s.txChannels
        samples := samplesPerChannel s.txChannels
        srIndex := s.tx.srIdx
        nuFrame := s.nuFrame
        buffers := deinterleave s.txChannels (samplesPerChannel s.txChannels) b } := by
  obtain ⟨m0, m1, m2, m3, hfsr, hnbs, hnbc, hbit⟩ := hdrEncode_fields (txHeader s)
  have hch : (b 6).toNat + 1 = s.txChannels := by
    rw [hb 6 _ hnbc, txHeader, BitVec.toNat_sub, BitVec.toNat_ofNat]
    simp only [State.txChannels] at h1 ⊢
    omega
  have hns : (b 5).toNat + 1 = samplesPerChannel s.txChannels := by
    have := samplesPerChannel_pos h1 h2
    have := samplesPerChannel_le s.txChannels
    rw [hb 5 _ hnbs, txHeader, BitVec.toNat_ofNat]
    omega
  have hname : (List.range 16).map (fun k => b (8 + k)) = s.tx.active.name.toList := by
    refine List.ext_getElem (by simp) (fun k hk _ => ?_)
    rw [List.getElem_map, List.getElem_range, hb _ _ (hdrEncode_name _ k (by simpa using hk))]
    rfl
  have hnu : le32 (b 24) (b 25) (b 26) (b 27) = s.nuFrame := by
    rw [hb 24 _ (hdrEncode_nuFrame _ 0 (by decide)), hb 25 _ (hdrEncode_nuFrame _ 1 (by decide)),
      hb 26 _ (hdrEncode_nuFrame _ 2 (by decide)), hb 27 _ (hdrEncode_nuFrame _ 3 (by decide))]
    exact le32_bytes s.nuFrame
  have hfsr' : b 4 = formatSR 0#1 s.par.subprotoAudio s.tx.srIdx := hb 4 _ hfsr
  have hbit' : b 7 = pcm16 s.par := hb 7 _ hbit
  have hlen : 28 + ((b 6).toNat + 1) * ((b 5).toNat + 1) * 2 = 28 + payloadCap s.txChannels := by
    rw [hch, hns, payloadCap, Nat.mul_comm s.txChannels]
  have haccepts := parse_accepts (p := s.par) (sub := s.tx.active.name) (b := b) (len := 28 + payloadCap s.txChannels)
    (Nat.le_add_right 28 _) ((hasMagic_iff b).mpr ⟨hb 0 _ m0, hb 1 _ m1, hb 2 _ m2, hb 3 _ m3⟩)
    (by rw [hfsr', isAudio_formatSR]) (by rw [hbit', codecOf_pcm16]) (by rw [hbit', resolutionOf_pcm16])
    (by rwa [hfsr', srIndexOf_formatSR]) (by rw [hname, nameEq_iff]) hlen.le
  rw [haccepts, hch, hns, hnu, hfsr', srIndexOf_formatSR]

/-- A frame's sample is read from the payload of its frames: the two bytes of its word stand where `deinterleave` looks
(40_sample_codec R162). -/
theorem sampleAt_frames {policy : QovfPolicy} {frames : List (List Sample)} {n i c : Nat}
    (hlen : ∀ f ∈ frames, f.length = n) (hi : i < frames.length) (hc : c < frames[i].length) {b : Nat → Byte} {base : Nat}
    (hb : ∀ k v, (frames.flatMap (fun f => (frameEncode policy f).1))[k]? = some v → b (base + k) = v) :
    sampleAt b (base + (i * n + c) * 2) = qdec (qenc policy frames[i][c]).1 := by
  have hf : ∀ f ∈ frames, (frameEncode policy f).1.length = 2 * n := fun f hf => by rw [length_frameEncode, hlen f hf]
  have hcn : c < n := hlen _ (List.getElem_mem hi) ▸ hc
  obtain ⟨hlo, hhi⟩ := getElem?_frameEncode policy (List.getElem?_eq_getElem hc)
  have hlow : b (base + (i * n + c) * 2) = lowByte (qenc policy frames[i][c]).1 := by
    rw [show (i * n + c) * 2 = i * (2 * n) + 2 * c by ring]
    exact hb _ _ ((getElem?_flatMap_of_length hf (by omega) hi).trans hlo)
  have hhigh : b (base + (i * n + c) * 2 + 1) = highByte (qenc policy frames[i][c]).1 := by
    rw [show base + (i * n + c) * 2 + 1 = base + (i * (2 * n) + (2 * c + 1)) by ring]
    exact hb _ _ ((getElem?_flatMap_of_length hf (by omega) hi).trans hhi)
  rw [sampleAt, hlow, hhigh]
  exact congrArg qdec (le16_bytes _)

/-- A streaming unit records what the parser accepts. -/
theorem exec_rxParse_of_accepted {r : State} {len : BitVec 16} {a : Accepted} (hrun : r.rx.run = true)
    (h : parse r.par r.binAt len.toNat r.rx.active.name = .ok a) : exec (.rxParse len) r = .next (r.acceptDatagram a) := by
  rw [exec, execRxParse, if_pos hrun, h]

/-- A count up to 256 fits `RX_NCH` and `RX_NS` (10_state R44). -/
theorem toNat_ofNat_count {n : Nat} (h : n ≤ 256) : (BitVec.ofNat 9 n).toNat = n := by
  rw [BitVec.toNat_ofNat]
  omega

/-- An element of `CHBUF` right after an acceptance (43_packet_parser R243, step 9). -/
theorem chbufAt_acceptDatagram (r : State) {a : Accepted} {b : Nat → Byte}
    (ha : a.buffers = deinterleave a.channels a.samples b) (hchannels : a.channels ≤ 256) (hsamples : a.samples ≤ 256)
    {c i : Nat} (hc : c < a.channels) (hi : i < a.samples) :
    (r.acceptDatagram a).chbufAt c i = some (sampleAt b (28 + (i * a.channels + c) * 2)) := by
  simp only [State.chbufAt, acceptDatagram_fields, toNat_ofNat_count hchannels, toNat_ofNat_count hsamples]
  rw [if_pos ⟨trivial, hc, hi⟩, ha, read_deinterleave b hsamples c i (by omega), if_pos ⟨hc, hi⟩]

/-- The datagram of the send unit's current header and a full packet of frames. -/
def fullDatagram (s : State) : List Byte := hdrEncode (txHeader s) ++ s.abufBytes s.abuf 28 (payloadCap s.txChannels)

@[simp] theorem length_fullDatagram (s : State) : (fullDatagram s).length = 28 + payloadCap s.txChannels := by
  simp [fullDatagram]

theorem getElem?_fullDatagram_header (s : State) {k : Nat} {v : Byte} (h : (hdrEncode (txHeader s))[k]? = some v) :
    (fullDatagram s)[k]? = some v := by
  obtain ⟨hk, -⟩ := List.getElem?_eq_some_iff.mp h
  rwa [fullDatagram, List.getElem?_append_left hk]

theorem getElem?_fullDatagram_payload (s : State) (k : Nat) :
    (fullDatagram s)[28 + k]? = (s.abufBytes s.abuf 28 (payloadCap s.txChannels))[k]? := by
  rw [fullDatagram, List.getElem?_append_right (by simp), length_hdrEncode, Nat.add_sub_cancel_left]

/-- A unit that streams under the send unit's name accepts its datagram (43_packet_parser R243). -/
theorem exec_rxParse_fullDatagram {s r : State} (h1 : 1 ≤ s.txChannels) (h2 : s.txChannels ≤ 254)
    (hsr : s.tx.srIdx.toNat < 21) (hpar : r.par = s.par) (hrun : r.rx.run = true)
    (hname : r.rx.active.name = s.tx.active.name) (hbin : ∀ k v, (fullDatagram s)[k]? = some v → r.binAt k = v) :
    exec (.rxParse (BitVec.ofNat 16 (fullDatagram s).length)) r = .next (r.acceptDatagram
      { channels := s.txChannels
        samples := samplesPerChannel s.txChannels
        srIndex := s.tx.srIdx
        nuFrame := s.nuFrame
        buffers := deinterleave s.txChannels (samplesPerChannel s.txChannels) r.binAt }) := by
  have hcap := payloadCap_le s.txChannels
  have hlen : (BitVec.ofNat 16 (fullDatagram s).length).toNat = 28 + payloadCap s.txChannels := by
    rw [length_fullDatagram, BitVec.toNat_ofNat]
    omega
  refine exec_rxParse_of_accepted hrun ?_
  rw [hlen, hpar, hname]
  exact parse_txHeader h1 h2 hsr (fun k v hv => hbin k v (getElem?_fullDatagram_header s hv))

/-- Settles O37: `TX.END` sends the header and the frames in one turn, the parser reads every field of that header back, and
`deinterleave` finds every word where the frames put it. -/
theorem loopBackReconstructsEverySample : Obligations.LoopBackReconstructsEverySample := by
  intro s frames hrun h1 h2 hsr hframes hlen hwpos hpayload
  have hchannels : s.txChannels ≤ 256 := h2.trans (by decide)
  have hsamples := samplesPerChannel_le s.txChannels
  have hcursor : (s.emitDatagram (payloadCap s.txChannels)).wpos = 28 := by
    have hw : s.wpos = 28 + payloadCap s.txChannels := hwpos
    simp [hw]
  refine ⟨_, fullDatagram s, exec_txEnd_of_full hrun (payloadCap_pos h1 h2) hwpos, linkOut_emitDatagram s _, hcursor,
    length_fullDatagram s, fun r hpar hrx hname hbin => ?_⟩
  have hbytes : ∀ k v, (fullDatagram s)[k]? = some v → r.binAt k = v := by
    intro k v hv
    obtain ⟨hk, rfl⟩ := List.getElem?_eq_some_iff.mp hv
    exact hbin k hk
  refine ⟨_, exec_rxParse_fullDatagram h1 h2 hsr hpar hrx hname hbytes, rfl, rfl,
    toNat_ofNat_count hchannels, (toNat_ofNat_count hsamples).trans hframes.symm, rfl, rfl, fun i c hi hc => ?_⟩
  rw [chbufAt_acceptDatagram r rfl hchannels hsamples (hc.trans_eq (hlen _ (List.getElem_mem hi))) (hi.trans_eq hframes)]
  exact congrArg some (sampleAt_frames hlen hi hc (fun k v hv =>
    hbytes _ _ ((getElem?_fullDatagram_payload s k).trans (hpayload ▸ hv))))

end Sys2Proof.Proofs.SampleCodecFamily
end

section
/-! PROOF. The header codec family: the 28 bytes of a Header and the Header of 28 bytes (41_header_codec R184, R190, R193), the two
commands made of them (R186, R192), and where the parser of datagrams agrees with `hdr_decode` (R194). -/

namespace Sys2Proof.Proofs.HeaderCodecFamily

open Sys2Proof.Machine Sys2Proof.Claims Sys2Proof.Laws Sys2Proof.Proofs.SampleCodecFamily

/-! ## Serializer and parser invert each other (41_header_codec R193) -/

/-- The bytes of a Header are read back into it, field by field. -/
theorem headerOf_hdrEncode {h : Header} {b : Nat → Byte} (hb : ∀ k v, (hdrEncode h)[k]? = some v → b k = v) :
    headerOf b = h := by
  obtain ⟨-, -, -, -, hfsr, hnbs, hnbc, hbit⟩ := hdrEncode_fields h
  have hname : nameOfBytes ((List.range 16).map (fun k => b (8 + k))) = h.name := by
    refine Vector.ext (fun k hk => ?_)
    rw [getElem_nameOfBytes _ k hk]
    simpa [hk] using hb _ _ (hdrEncode_name h k hk)
  have hnu : le32 (b 24) (b 25) (b 26) (b 27) = h.nuFrame := by
    rw [hb 24 _ (hdrEncode_nuFrame h 0 (by decide)), hb 25 _ (hdrEncode_nuFrame h 1 (by decide)),
      hb 26 _ (hdrEncode_nuFrame h 2 (by decide)), hb 27 _ (hdrEncode_nuFrame h 3 (by decide))]
    exact le32_bytes h.nuFrame
  rw [headerOf, hb 4 _ hfsr, srIndexOf_formatSR, subprotoOf_formatSR, rsv7Of_formatSR, hname, hnu, hb 5 _ hnbs, hb 6 _ hnbc,
    hb 7 _ hbit]

/-- The bytes of a Header begin with the magic. -/
theorem hasMagic_of_hdrEncode {h : Header} {b : Nat → Byte} (hb : ∀ k v, (hdrEncode h)[k]? = some v → b k = v) :
    hasMagic b = true :=
  (hasMagic_iff b).mpr ⟨hb 0 _ rfl, hb 1 _ rfl, hb 2 _ rfl, hb 3 _ rfl⟩

/-- The 16 bytes of the name field are kept as they are, whatever stands behind a `00`. -/
theorem name_headerOf (b : Nat → Byte) : (headerOf b).name.toList = (List.range 16).map (fun k => b (8 + k)) :=
  padTo_of_length (by rw [List.length_map, List.length_range])

/-- The Header of 28 bytes that begin with the magic encodes to these bytes: no bit of theirs is lost. -/
theorem hdrEncode_headerOf {b : Nat → Byte} (hmagic : hasMagic b = true) : hdrEncode (headerOf b) = (List.range 28).map b := by
  rw [hdrEncode, name_headerOf, headerOf, formatSR_fields, bytes32_le32, ← eq_of_beq hmagic]
  rfl

/-- Settles O25: the bytes by their offsets, and the two inverse laws on what `hdr_decode` accepts. -/
theorem headerRoundTrips : Obligations.HeaderRoundTrips := by
  refine ⟨fun h => ?_, fun p => ⟨fun h b hsr hbit hb => ?_, fun h b hdec => ?_⟩⟩
  · obtain ⟨m0, m1, m2, m3, hfields⟩ := hdrEncode_fields h
    exact ⟨length_hdrEncode h, ⟨m0, m1, m2, m3⟩, hfields, hdrEncode_name h, hdrEncode_nuFrame h⟩
  · have hbytes : ∀ k v, (hdrEncode h)[k]? = some v → b k = v := by
      intro k v hv
      obtain ⟨hk, -⟩ := List.getElem?_eq_some_iff.mp hv
      exact Option.some.inj ((hb k (by simpa using hk)).symm.trans hv)
    have hmagic := hasMagic_of_hdrEncode hbytes
    obtain rfl : headerOf b = h := headerOf_hdrEncode hbytes
    rw [hdrDecode_eq, if_pos ⟨le_refl 28, hmagic, hsr, hbit⟩]
  · rw [hdrDecode_eq] at hdec
    obtain ⟨⟨-, hmagic, -⟩, hh⟩ := Option.ite_none_right_eq_some.mp hdec
    exact Option.some.inj hh ▸ hdrEncode_headerOf hmagic

/-! ## The two commands (41_header_codec R186, R192) -/

/-- The decided `PCM_16` byte (30_encoding R125). -/
theorem pcm16_decided {p : Params} (h : p.DecidedCodes) : pcm16 p = 0x01#8 := by
  obtain ⟨-, hres, hcodec⟩ := h
  rw [pcm16, hres, hcodec]
  rfl

/-- Settles O23: the header's bytes are stored from offset 0; the two counts are written less one, which loses nothing in their
range. -/
theorem headerEncodeCommandResult : Obligations.HeaderEncodeCommandResult := by
  refine ⟨rfl, fun s hcodes h1 h2 => ?_⟩
  obtain ⟨m0, m1, m2, m3, hfsr, hnbs, hnbc, hbit⟩ := hdrEncode_fields (txHeader s)
  have haudio : formatSR 0#1 s.par.subprotoAudio s.tx.srIdx = 0b000#3 ++ s.tx.srIdx := by
    rw [hcodes.1]
    rfl
  have hsamples : (txHeader s).nbs.toNat + 1 = samplesPerChannel s.tx.active.nch.toNat := by
    have := samplesPerChannel_pos h1 h2
    have := samplesPerChannel_le s.tx.active.nch.toNat
    rw [txHeader, State.txChannels, BitVec.toNat_ofNat]
    omega
  have hchannels : (txHeader s).nbc.toNat + 1 = s.tx.active.nch.toNat := by
    rw [txHeader, BitVec.toNat_sub, BitVec.toNat_ofNat]
    omega
  exact ⟨_, rfl, ⟨read_store_zero _ m0, read_store_zero _ m1, read_store_zero _ m2, read_store_zero _ m3⟩,
    (read_store_zero _ hfsr).trans (congrArg some haudio), ⟨_, read_store_zero _ hnbs, hsamples⟩,
    ⟨_, read_store_zero _ hnbc, hchannels⟩, (read_store_zero _ hbit).trans (congrArg some (pcm16_decided hcodes)),
    fun k hk => read_store_zero _ (hdrEncode_name _ k hk), fun k hk => read_store_zero _ (hdrEncode_nuFrame _ k hk),
    fun a ha => read_store_zero_of_le _ ((length_hdrEncode _).trans_le ha), rfl⟩

/-- With the decided codes `hdr_decode` answers exactly on the accepted headers (41_header_codec R190). -/
theorem headerAccepted_iff {p : Params} (h : p.DecidedCodes) (b : Nat → Byte) (len : Nat) :
    HeaderAccepted b len ↔
      28 ≤ len ∧ hasMagic b = true ∧ (srIndexOf (b 4)).toNat < 21 ∧ b 7 = pcm16 p := by
  rw [hasMagic_iff, pcm16_decided h]
  rfl

theorem exec_hdrDec_of_some {s : State} {len : BitVec 16} {h : Header} (hdec : hdrDecode s.par s.binAt len.toNat = some h) :
    exec (.hdrDec len) s = .next { s with hdrOk := true, hd := h } := by
  rw [exec, execHdrDec, hdec]

theorem exec_hdrDec_of_none {s : State} {len : BitVec 16} (hdec : hdrDecode s.par s.binAt len.toNat = none) :
    exec (.hdrDec len) s = .next { s with hdrOk := false } := by
  rw [exec, execHdrDec, hdec]

/-- Settles O24: the registers take the Header that `hdr_decode` answers, and it answers on the accepted headers only. -/
theorem headerDecodeCommandResult : Obligations.HeaderDecodeCommandResult := by
  intro s len hcodes
  refine ⟨(decode_or_setWidth (by decide) 0x06#8 len).trans (argHalf_setWidth len _), fun haccepted => ?_, fun hrejected => ?_⟩
  · have hdec : hdrDecode s.par s.binAt len.toNat = some (headerOf s.binAt) := by
      rw [hdrDecode_eq, if_pos ((headerAccepted_iff hcodes _ _).mp haccepted)]
    exact ⟨_, exec_hdrDec_of_some hdec, rfl, rfl, rfl, rfl, rfl, rfl, rfl, name_headerOf s.binAt, rfl, rfl⟩
  · exact exec_hdrDec_of_none (by rw [hdrDecode_eq, if_neg (mt (headerAccepted_iff hcodes _ _).mpr hrejected)])

/-! ## `HDR.DEC` beside `RX.PARSE` (41_header_codec R194) -/

/-- The reasons that are about the fields `hdr_decode` checks: those of steps 1, 2, 4, 5 and 6. -/
def headerReasons : List RejectReason :=
  [.tooShort, .badMagic, .unsupportedCodec, .unsupportedResolution, .badSampleRate]

theorem reasonCode_mem_iff (r : RejectReason) : reasonCode r ∈ [1#4, 2#4, 4#4, 5#4, 6#4] ↔ r ∈ headerReasons := by
  cases r <;> decide

/-- On an audio header the parser rejects at one of these steps exactly where `hdr_decode` answers nothing: its codec and
resolution checks together are the test of the whole `format_bit` byte. -/
theorem hdrDecode_eq_none_iff {p : Params} {b : Nat → Byte} (haudio : isAudio p (b 4) = true) (len : Nat) (subscription : Name) :
    hdrDecode p b len = none ↔ ∃ r ∈ headerReasons, parse p b len subscription = .error r := by
  rw [hdrDecode_eq, ite_eq_right_iff, eq_pcm16_iff]
  unfold parse
  dsimp only [Config.hdrSize, Config.srCount]
  by_cases hlen : len < 28
  · simp [hlen, headerReasons]
  by_cases hmagic : hasMagic b = false
  · simp [hlen, hmagic, headerReasons]
  by_cases hcodec : codecOf (b 7) ≠ p.codecPcm
  · simp [hlen, hmagic, haudio, hcodec, headerReasons]
  by_cases hres : resolutionOf (b 7) ≠ p.resPcm16
  · simp [hlen, hmagic, haudio, hcodec, hres, headerReasons]
  by_cases hsr : 21 ≤ (srIndexOf (b 4)).toNat
  · simp [hlen, hmagic, haudio, hcodec, hres, hsr, headerReasons]
  have hchecks : 28 ≤ len ∧ (srIndexOf (b 4)).toNat < 21 := ⟨not_lt.mp hlen, not_le.mp hsr⟩
  by_cases hname : nameEq ((List.range 16).map (fun k => b (8 + k))) subscription = false
  · simp [hchecks, hlen, hmagic, haudio, hcodec, hres, hsr, hname, headerReasons]
  by_cases hpayload : len < 28 + ((b 6).toNat + 1) * ((b 5).toNat + 1) * 2
  · simp [hchecks, hlen, hmagic, haudio, hcodec, hres, hsr, hname, hpayload, headerReasons]
  · simp [hchecks, hlen, hmagic, haudio, hcodec, hres, hsr, hname, hpayload]

/-- `HDR.DEC` clears `HDR_OK` exactly where `hdr_decode` answers nothing (41_header_codec R192). -/
theorem hdrOk_eq_false_iff {s t : State} {len : BitVec 16} (h : exec (.hdrDec len) s = .next t) :
    t.hdrOk = false ↔ hdrDecode s.par s.binAt len.toNat = none := by
  cases hdec : hdrDecode s.par s.binAt len.toNat with
  | none =>
    cases (exec_hdrDec_of_none hdec).symm.trans h
    simp
  | some hd =>
    cases (exec_hdrDec_of_some hdec).symm.trans h
    simp

/-- A streaming unit records the reason of a rejection (43_packet_parser R243). -/
theorem exec_rxParse_of_rejected {s : State} {len : BitVec 16} {r : RejectReason} (hrun : s.rx.run = true)
    (h : parse s.par s.binAt len.toNat s.rx.active.name = .error r) : exec (.rxParse len) s = .next (s.rejectDatagram r) := by
  rw [exec, execRxParse, if_pos hrun, h]

/-- `RX.PARSE` on a streaming unit leaves one of the codes 1, 2, 4, 5, 6 exactly where the parser rejects for a header's reason. -/
theorem rxReason_mem_iff {s t : State} {len : BitVec 16} (hrun : s.rx.run = true) (h : exec (.rxParse len) s = .next t) :
    t.rxReason ∈ [1#4, 2#4, 4#4, 5#4, 6#4] ↔
      ∃ r ∈ headerReasons, parse s.par s.binAt len.toNat s.rx.active.name = .error r := by
  cases hp : parse s.par s.binAt len.toNat s.rx.active.name with
  | error r =>
    cases (exec_rxParse_of_rejected hrun hp).symm.trans h
    simpa using reasonCode_mem_iff r
  | ok a =>
    cases (exec_rxParse_of_accepted hrun hp).symm.trans h
    simp

/-- With the decided codes a `format_SR` with `000` above its index is audio under either mask (30_encoding R122). -/
theorem isAudio_of_and_eq_zero {p : Params} (h : p.DecidedCodes) {b : Byte} (hb : b &&& 0xE0#8 = 0#8) : isAudio p b = true := by
  rw [isAudio_decided h]
  cases p.subprotoCheck <;> revert b <;> decide

/-- Settles O26: both commands turn on the same checks once the datagram is audio. -/
theorem headerDecodeAgreesWithParser : Obligations.HeaderDecodeAgreesWithParser := by
  intro s len t t' hcodes hrun hb hdec hparse
  rw [hdrOk_eq_false_iff hdec, rxReason_mem_iff hrun hparse]
  exact hdrDecode_eq_none_iff (isAudio_of_and_eq_zero hcodes hb) _ _

end Sys2Proof.Proofs.HeaderCodecFamily
end

section
/-! PROOF. The packet assembler family: the packet size (42_packet_assembler R211), `TX.PUSH` (R212 to R214), the turns of `TX.END`
(R216 to R219), and why no frame byte is lost or sent twice (R218 (d)). -/

namespace Sys2Proof.Proofs.PacketAssemblerFamily

open Sys2Proof.Machine Sys2Proof.Claims Sys2Proof.Laws Sys2Proof.Proofs.StateFamily Sys2Proof.Proofs.MemoryFamily
  Sys2Proof.Proofs.SampleCodecFamily

/-! ## Packet size (42_packet_assembler R211) -/

theorem samplesPerChannel_even (c : Nat) : samplesPerChannel c % 2 = 0 := by
  simp only [samplesPerChannel, Config.nsMax]
  omega

/-- From three channels on it is `MAX_PAYLOAD`, not the limit of 256 samples, that bounds the packet: the next even number of
samples per channel does not fit. -/
theorem maxPayload_lt_of_three_le {c : Nat} (h : 3 ≤ c) : 1436 < (samplesPerChannel c + 2) * c * 2 := by
  have hsmall : 1436 / (2 * c) < 240 := (Nat.div_lt_iff_lt_mul (by omega)).mpr (by omega)
  have hnext : 1436 / (2 * c) < samplesPerChannel c + 2 := by
    simp only [samplesPerChannel, Config.nsMax, Config.maxPayload]
    omega
  calc 1436 < (samplesPerChannel c + 2) * (2 * c) := (Nat.div_lt_iff_lt_mul (by omega)).mp hnext
    _ = (samplesPerChannel c + 2) * c * 2 := by ring

/-- Settles O27: `S` and `CAP` by their definitions, the bounds one by one. -/
theorem packetSizeBounds : Obligations.PacketSizeBounds := fun c h1 h2 =>
  ⟨rfl, rfl, samplesPerChannel_pos h1 h2, samplesPerChannel_le c, samplesPerChannel_even c, payloadCap_le c,
    Nat.add_le_add_left (payloadCap_le c) 28, maxPayload_lt_of_three_le⟩

/-! ## The commands, case by case (42_packet_assembler R212 to R216) -/

theorem exec_txPush_of_idle {s : State} (h : s.tx.run = false) : exec .txPush s = .next s := by
  rw [exec, execTxPush, h]; rfl

theorem exec_txPush_of_fits {s : State} (hrun : s.tx.run = true) (hfit : s.wpos + 2 * s.txChannels ≤ s.par.abufCap) :
    exec .txPush s = .next s.appendFrame := by
  rw [exec, execTxPush, if_pos hrun, if_neg (not_lt.mpr hfit)]

theorem exec_txPush_of_full {s : State} (hrun : s.tx.run = true) (hfull : s.par.abufCap < s.wpos + 2 * s.txChannels) :
    exec .txPush s = .next (s.flag .abufovf) := by
  rw [exec, execTxPush, if_pos hrun, if_pos hfull]

theorem exec_txEnd_of_idle {s : State} (h : s.tx.run = false) : exec .txEnd s = .next s := by
  rw [exec, execTxEnd, h]; rfl

theorem exec_txEnd_of_streaming {s : State} (hrun : s.tx.run = true) :
    exec .txEnd s =
      .next (emitWhileFull (payloadCap s.txChannels) ((s.wpos - 28) / payloadCap s.txChannels) s) := by
  rw [exec, execTxEnd, if_pos hrun]

theorem exec_rxParse_of_idle {s : State} (h : s.rx.run = false) (len : BitVec 16) : exec (.rxParse len) s = .next s := by
  rw [exec, execRxParse, h]; rfl

/-- Settles O33: each of the three commands tests `RUN` of its unit first. -/
theorem idleUnitsIgnoreDatapathCommands : Obligations.IdleUnitsIgnoreDatapathCommands :=
  fun _ => ⟨fun h => ⟨exec_txPush_of_idle h, exec_txEnd_of_idle h⟩, exec_rxParse_of_idle⟩

/-! ## A push (42_packet_assembler R212) -/

/-- The word of channel `c` stands in `ABUF` at offset `2c` from the cursor before the push, low byte first. -/
theorem read_appendFrame {s : State} {c : Nat} (hc : c < s.txChannels) :
    s.appendFrame.abuf.read (s.wpos + 2 * c) = some (lowByte (qenc s.par.qovfPolicy (s.finAt c)).1) ∧
      s.appendFrame.abuf.read (s.wpos + 2 * c + 1) = some (highByte (qenc s.par.qovfPolicy (s.finAt c)).1) := by
  have hx : (s.finFrame s.txChannels)[c]? = some (s.finAt c) := by simp [State.finFrame, hc]
  obtain ⟨hlo, hhi⟩ := getElem?_frameEncode s.par.qovfPolicy hx
  simp only [appendFrame_fields, read_store, length_frameEncode, length_finFrame, Nat.add_assoc, Nat.add_sub_cancel_left]
  exact ⟨(if_pos (by omega)).trans hlo, (if_pos (by omega)).trans hhi⟩

/-- Settles O28: a push that fits is one store at the cursor. -/
theorem pushCommandResult : Obligations.PushCommandResult := by
  refine ⟨rfl, fun s => ⟨exec_txPush_of_idle, fun hrun hfit => ?_, exec_txPush_of_full⟩⟩
  refine ⟨s.appendFrame, exec_txPush_of_fits hrun hfit, rfl, fun c hc => read_appendFrame hc, fun k c hk hc => ?_,
    fun a ha => read_store_outside _ _ _ a ?_, quantizerFlags_of_status rfl, rfl⟩
  · have hoffset : 28 + (k * s.tx.active.nch.toNat + c) * 2 = s.wpos + 2 * c := by rw [hk]; ring
    rw [hoffset]
    exact read_appendFrame hc
  · rw [length_frameEncode, length_finFrame]
    exact ha

/-! ## The turns of an end of block (42_packet_assembler R216) -/

/-- The state after `k` turns of the loop. -/
def afterTurns (cap k : Nat) (s : State) : State := (State.emitDatagram · cap)^[k] s

/-- The send unit's header with the counter advanced by `k`. -/
def headerAfter (s : State) (k : Nat) : Header := { txHeader s with nuFrame := s.nuFrame + BitVec.ofNat 32 k }

@[simp] theorem afterTurns_zero (cap : Nat) (s : State) : afterTurns cap 0 s = s := rfl

theorem afterTurns_succ (cap k : Nat) (s : State) : afterTurns cap (k + 1) s = (afterTurns cap k s).emitDatagram cap :=
  Function.iterate_succ_apply' _ k s

/-- While the frames last the loop takes every turn it is given. -/
theorem emitWhileFull_eq_afterTurns {cap k : Nat} {s : State} (h : 28 + k * cap ≤ s.wpos) :
    emitWhileFull cap k s = afterTurns cap k s := by
  induction k generalizing s with
  | zero => rfl
  | succ k ih =>
    rw [Nat.succ_mul] at h
    have hrest : 28 + k * cap ≤ (s.emitDatagram cap).wpos := by
      simp only [emitDatagram_fields]
      omega
    have hfull : 28 + cap ≤ s.wpos := by omega
    rw [emitWhileFull, if_pos hfull, ih hrest]
    rfl

/-- A turn carries the frames down by one packet. -/
theorem abufBytes_emitDatagram {s : State} {cap off m : Nat} (h : 28 + cap + off + m ≤ s.wpos) :
    (s.emitDatagram cap).abufBytes (s.emitDatagram cap).abuf (28 + off) m = s.abufBytes s.abuf (28 + cap + off) m := by
  refine List.map_congr_left (fun k hk => ?_)
  rw [List.mem_range] at hk
  have hcarried : (s.emitDatagram cap).abuf.read (28 + off + k) =
      (s.abufBytes s.abuf (28 + cap) (s.wpos - (28 + cap)))[off + k]? := by
    rw [read_emitDatagram, if_neg (by omega), if_pos (by omega), show 28 + off + k - 28 = off + k by omega]
  rw [hcarried, State.abufBytes, getElem?_load, if_pos (by omega), Option.getD_some, Nat.add_assoc (28 + cap)]

section Turns

variable {cap k : Nat} {s : State}

theorem wpos_afterTurns (h : 28 + k * cap ≤ s.wpos) : (afterTurns cap k s).wpos = s.wpos - k * cap := by
  induction k with
  | zero => simp
  | succ k ih =>
    rw [Nat.succ_mul] at h ⊢
    have hk := ih (by omega)
    simp only [afterTurns_succ, emitDatagram_fields]
    omega

theorem txHeader_afterTurns (cap k : Nat) (s : State) : txHeader (afterTurns cap k s) = headerAfter s k := by
  induction k with
  | zero => rw [headerAfter, BitVec.add_zero]; rfl
  | succ k ih =>
    have hcounter : (afterTurns cap k s).nuFrame = s.nuFrame + BitVec.ofNat 32 k := congrArg Header.nuFrame ih
    rw [afterTurns_succ, txHeader_emitDatagram, ih, hcounter, headerAfter, headerAfter, BitVec.add_assoc,
      ← BitVec.ofNat_add]

theorem nuFrame_afterTurns (cap k : Nat) (s : State) :
    (afterTurns cap k s).nuFrame = s.nuFrame + BitVec.ofNat 32 k :=
  congrArg Header.nuFrame (txHeader_afterTurns cap k s)

/-- After `k` turns the frames behind the first `k` packets stand `k` packets lower. -/
theorem abufBytes_afterTurns {off m : Nat} (h : 28 + k * cap + off + m ≤ s.wpos) :
    (afterTurns cap k s).abufBytes (afterTurns cap k s).abuf (28 + off) m =
      s.abufBytes s.abuf (28 + k * cap + off) m := by
  induction k generalizing off with
  | zero => simp
  | succ k ih =>
    rw [Nat.succ_mul] at h ⊢
    have hwpos : (afterTurns cap k s).wpos = s.wpos - k * cap := wpos_afterTurns (by omega)
    rw [afterTurns_succ, abufBytes_emitDatagram (by omega), Nat.add_assoc 28 cap off, ih (by omega)]
    congr 1
    omega

/-- The datagrams of `k` turns, in order: the header with the counter of the turn, then the packet of that number. -/
theorem linkOut_afterTurns (h : 28 + k * cap ≤ s.wpos) :
    (afterTurns cap k s).linkOut = s.linkOut ++ (List.range k).map (fun j =>
      LinkEvent.send (hdrEncode (headerAfter s j) ++ s.abufBytes s.abuf (28 + j * cap) cap)) := by
  induction k with
  | zero => simp
  | succ k ih =>
    rw [Nat.succ_mul] at h
    have hpacket : (afterTurns cap k s).abufBytes (afterTurns cap k s).abuf 28 cap =
        s.abufBytes s.abuf (28 + k * cap) cap := abufBytes_afterTurns (off := 0) (by omega)
    rw [afterTurns_succ, linkOut_emitDatagram, ih (by omega), txHeader_afterTurns, hpacket, List.range_succ, List.map_append,
      List.append_assoc]
    rfl

/-- No turn writes at or beyond the end of the first residue (42_packet_assembler R217). -/
theorem read_afterTurns_above (h : 28 + k * cap ≤ s.wpos) {a : Nat} (ha : s.wpos - cap ≤ a) :
    (afterTurns cap k s).abuf.read a = s.abuf.read a := by
  induction k with
  | zero => rfl
  | succ k ih =>
    rw [Nat.succ_mul] at h
    have hwpos : (afterTurns cap k s).wpos = s.wpos - k * cap := wpos_afterTurns (by omega)
    rw [afterTurns_succ, read_emitDatagram, if_neg (by omega), if_neg (by omega), ih (by omega)]

/-- Offsets 0..27 hold the header of the last turn (42_packet_assembler R219). -/
theorem read_afterTurns_header (cap k : Nat) (s : State) {a : Nat} (ha : a < 28) :
    (afterTurns cap (k + 1) s).abuf.read a = (hdrEncode (headerAfter s k))[a]? := by
  rw [afterTurns_succ, read_emitDatagram, if_pos ha, txHeader_afterTurns]

/-- The bytes behind the last packet stand from offset 28 on. -/
theorem read_afterTurns_residue {r j : Nat} (h : 28 + (k + 1) * cap + r = s.wpos) (hj : j < r) :
    (afterTurns cap (k + 1) s).abuf.read (28 + j) = (s.abufBytes s.abuf (28 + (k + 1) * cap) r)[j]? := by
  rw [Nat.succ_mul] at h ⊢
  have hwpos : (afterTurns cap k s).wpos = s.wpos - k * cap := wpos_afterTurns (by omega)
  have hresidue : (afterTurns cap k s).wpos - (28 + cap) = r := by omega
  rw [afterTurns_succ, read_emitDatagram, hresidue, if_neg (by omega), if_pos (by omega), Nat.add_sub_cancel_left,
    abufBytes_afterTurns (by omega), Nat.add_assoc]

/-- The turns change `ABUF`, the cursor, the counter and `LINK_OUT` only. -/
theorem afterTurns_frame (h : 28 + k * cap ≤ s.wpos) :
    afterTurns cap k s = { s with
      abuf := (afterTurns cap k s).abuf, wpos := (afterTurns cap k s).wpos, nuFrame := (afterTurns cap k s).nuFrame,
      linkOut := (afterTurns cap k s).linkOut } := by
  rw [← emitWhileFull_eq_afterTurns h]
  exact emitWhileFull_frame cap k s

end Turns

/-- Settles O29: the command takes `n` turns, each of which finds a full packet. -/
theorem endOfBlockEmitsEveryFullPacket : Obligations.EndOfBlockEmitsEveryFullPacket := by
  refine ⟨rfl, fun s => exec_txEnd_of_idle, ?_⟩
  intro s hrun h1 h2 hwpos cap n r
  have hsplit : 28 + n * cap + r = s.wpos := by
    have hdiv : n * cap + r = s.wpos - 28 := Nat.div_add_mod' _ _
    omega
  have hturns : 28 + n * cap ≤ s.wpos := by omega
  have hexec : exec .txEnd s = .next (afterTurns cap n s) :=
    (exec_txEnd_of_streaming hrun).trans (congrArg Host.Outcome.next (emitWhileFull_eq_afterTurns hturns))
  refine ⟨afterTurns cap n s, hexec, by rw [wpos_afterTurns hturns]; omega, nuFrame_afterTurns cap n s,
    linkOut_afterTurns hturns, fun hn => by rw [hn, afterTurns_zero], fun hn => ?_, afterTurns_frame hturns⟩
  obtain ⟨k, hk⟩ : ∃ k, n = k + 1 := ⟨n - 1, by omega⟩
  rw [hk] at hsplit hturns ⊢
  exact ⟨fun j hj => read_afterTurns_residue hsplit hj, fun a ha => read_afterTurns_header cap k s ha,
    fun a ha => read_afterTurns_above hturns ha⟩

/-- Settles O30: the residue is what is left of a division by the packet size. -/
theorem endOfBlockLeavesNoFullPacket : Obligations.EndOfBlockLeavesNoFullPacket := by
  intro s t hrun h1 h2 hwpos h
  obtain ⟨t', hexec, hcursor, -, hlink, -⟩ := endOfBlockEmitsEveryFullPacket.2.2 s hrun h1 h2 hwpos
  cases hexec.symm.trans h
  have hresidue := Nat.mod_lt (s.wpos - 28) (payloadCap_pos h1 h2)
  refine ⟨by omega, by omega, _, hlink, fun e he => ?_⟩
  obtain ⟨k, -, rfl⟩ := List.mem_map.mp he
  exact ⟨_, rfl, by rw [List.length_append, length_hdrEncode, length_abufBytes]⟩

/-! ## The stream of frame bytes (42_packet_assembler R218 (d)) -/

theorem payloads_append (es fs : List LinkEvent) : payloads (es ++ fs) = payloads es ++ payloads fs :=
  List.flatMap_append

theorem load_add {α : Type} (m : Memory α) (f : Nat → α) (base n k : Nat) :
    m.load f base (n + k) = m.load f base n ++ m.load f (base + n) k := by
  simp [Memory.load, List.range_add, Nat.add_assoc]

theorem load_store_self {α : Type} (m : Memory α) (f : Nat → α) (base : Nat) (vs : List α) :
    (m.store base vs).load f base vs.length = vs := by
  refine List.ext_getElem (length_load _ f base _) (fun k _ hk => ?_)
  rw [getElem_load, read_store_inside m base vs k hk, Option.getD_some]

theorem load_store_below {α : Type} (m : Memory α) (f : Nat → α) {base n top : Nat} (vs : List α)
    (h : base + n ≤ top) : (m.store top vs).load f base n = m.load f base n :=
  load_congr _ _ f f base n (fun k hk => by rw [read_store_outside m top vs _ (by omega)])

/-- A turn moves the first packet of the waiting frames into the payloads. -/
theorem sampleStream_emitDatagram {s : State} {cap : Nat} (h : 28 + cap ≤ s.wpos) :
    sampleStream (s.emitDatagram cap) = sampleStream s := by
  have hsent : payloads (s.emitDatagram cap).linkOut = payloads s.linkOut ++ s.abufBytes s.abuf 28 cap := by
    rw [linkOut_emitDatagram, payloads_append]
    simp [payloads]
  have hwpos : (s.emitDatagram cap).wpos - 28 = s.wpos - (28 + cap) := Nat.add_sub_cancel_left ..
  have hcarried : (s.emitDatagram cap).abufBytes (s.emitDatagram cap).abuf 28 (s.wpos - (28 + cap)) =
      s.abufBytes s.abuf (28 + cap) (s.wpos - (28 + cap)) := abufBytes_emitDatagram (off := 0) (by omega)
  have hwaiting : s.wpos - 28 = cap + (s.wpos - (28 + cap)) := by omega
  rw [sampleStream, sampleStream, hsent, hwpos, hcarried, hwaiting, State.abufBytes, State.abufBytes, State.abufBytes,
    load_add, List.append_assoc]

theorem sampleStream_emitWhileFull (cap fuel : Nat) (s : State) :
    sampleStream (emitWhileFull cap fuel s) = sampleStream s :=
  emitWhileFull_induction (fun t => sampleStream t = sampleStream s)
    (fun _ ht hfull => (sampleStream_emitDatagram hfull).trans ht) fuel s rfl

/-- A push that fits puts its frame behind the waiting ones. -/
theorem sampleStream_appendFrame {s : State} (h : 28 ≤ s.wpos) :
    sampleStream s.appendFrame = sampleStream s ++ (frameEncode s.par.qovfPolicy (s.finFrame s.txChannels)).1 := by
  have hwpos : s.wpos + 2 * s.txChannels - 28 =
      s.wpos - 28 + (frameEncode s.par.qovfPolicy (s.finFrame s.txChannels)).1.length := by
    rw [length_frameEncode, length_finFrame]
    omega
  have hcursor : 28 + (s.wpos - 28) = s.wpos := by omega
  simp only [sampleStream, State.abufBytes, appendFrame_fields]
  rw [hwpos, load_add, load_store_below _ _ _ hcursor.le, hcursor, load_store_self, List.append_assoc]

theorem sampleStream_txPush {s t : State} (h28 : 28 ≤ s.wpos) (h : exec .txPush s = .next t) :
    sampleStream t = sampleStream s ++
      if s.tx.run = true ∧ s.wpos + 2 * s.txChannels ≤ s.par.abufCap then
        (frameEncode s.par.qovfPolicy (s.finFrame s.txChannels)).1
      else [] := by
  by_cases hrun : s.tx.run = true
  · by_cases hfit : s.wpos + 2 * s.txChannels ≤ s.par.abufCap
    · cases (exec_txPush_of_fits hrun hfit).symm.trans h
      rw [if_pos ⟨hrun, hfit⟩, sampleStream_appendFrame h28]
    · cases (exec_txPush_of_full hrun (not_le.mp hfit)).symm.trans h
      rw [if_neg (fun hc => hfit hc.2), List.append_nil]
      rfl
  · cases (exec_txPush_of_idle (Bool.eq_false_of_not_eq_true hrun)).symm.trans h
    rw [if_neg (fun hc => hrun hc.1), List.append_nil]

theorem sampleStream_txEnd {s t : State} (h : exec .txEnd s = .next t) : sampleStream t = sampleStream s := by
  by_cases hrun : s.tx.run = true
  · cases (exec_txEnd_of_streaming hrun).symm.trans h
    exact sampleStream_emitWhileFull _ _ s
  · cases (exec_txEnd_of_idle (Bool.eq_false_of_not_eq_true hrun)).symm.trans h
    rfl

/-- A boundary opens and closes, and sends no datagram (44_session_control R280, R285). -/
theorem payloads_reconfigure (s : State) (u : SessionUnit) : payloads (s.reconfigure u).linkOut = payloads s.linkOut := by
  refine reconfigure_induction (fun t => payloads t.linkOut = payloads s.linkOut) (fun t x ht => ?_) (fun t ht => ?_)
    (fun t ht => ?_) (fun _ ht => ht) (fun _ ht => ht) rfl
  · simpa using ht
  · rw [(stop_fields t u).1, payloads_append, ht]
    split <;> simp [payloads]
  · rw [(openLink_fields t u).1, payloads_append, ht]
    simp [payloads]

theorem sampleStream_blkBegin_rx {s t : State} (h : exec (.blkBegin .rx) s = .next t) : sampleStream t = sampleStream s := by
  have hpayloads : payloads t.linkOut = payloads s.linkOut := by
    cases h
    split
    · exact payloads_reconfigure s .rx
    · rfl
  rw [exec_written h]
  exact congrArg (· ++ s.abufBytes s.abuf 28 (s.wpos - 28)) hpayloads

/-- Settles O31: only a push and an end of block touch the frames, and a boundary sends none. -/
theorem noFrameIsLostOrDuplicated : Obligations.NoFrameIsLostOrDuplicated := by
  intro i s t _ _ h28 hi h
  cases i with
  | txPush =>
    simp only [true_and]
    exact sampleStream_txPush h28 h
  | txEnd => rw [if_neg nofun, List.append_nil, sampleStream_txEnd h]
  | blkBegin u =>
    cases u with
    | tx => exact absurd rfl hi
    | rx => rw [if_neg nofun, List.append_nil, sampleStream_blkBegin_rx h]
  | cfgHost u _ | cfgPort u _ | cfgNch u _ | cfgName u _ | cfgRun u _ | cfgSrclr u =>
    rw [if_neg nofun, List.append_nil, exec_written h]
    cases u <;> rfl
  | _ =>
    rw [if_neg nofun, List.append_nil, exec_written h]
    rfl

end Sys2Proof.Proofs.PacketAssemblerFamily
end

section
/-! PROOF. The packet parser family: the names that match a subscription (43_packet_parser R252), the nine steps of `parse` as the
rule that the lowest failing step decides (R243, R256), and what `RX.PARSE` makes of the outcome (R240, R245, R254, R257). -/

namespace Sys2Proof.Proofs.PacketParserFamily

open Sys2Proof.Machine Sys2Proof.Claims Sys2Proof.Laws Sys2Proof.Proofs.SampleCodecFamily
  Sys2Proof.Proofs.HeaderCodecFamily Sys2Proof.Proofs.PacketAssemblerFamily

/-! ## Names (43_packet_parser R252) -/

/-- What stands behind a `00` is not part of the string. -/
theorem nullTerminated_take {bytes : List Byte} {k : Nat} (h : bytes[k]? = some 0#8) :
    nullTerminated (bytes.take (k + 1)) = nullTerminated bytes := by
  induction bytes generalizing k with
  | nil => cases h
  | cons b bs ih =>
    cases k with
    | zero =>
      cases h
      rfl
    | succ k =>
      have hrest : (bs.take (k + 1)).takeWhile (fun b => b != 0#8) = bs.takeWhile (fun b => b != 0#8) := ih (by simpa using h)
      rw [nullTerminated, nullTerminated, List.take_succ_cons, List.takeWhile_cons, List.takeWhile_cons, hrest]

/-- A string ends at the latest before any `00`. -/
theorem length_nullTerminated_le {bytes : List Byte} {k : Nat} (h : bytes[k]? = some 0#8) :
    (nullTerminated bytes).length ≤ k := by
  by_contra hlong
  have hk : k < (nullTerminated bytes).length := not_le.mp hlong
  obtain ⟨_, hzero⟩ := List.getElem?_eq_some_iff.mp h
  have hget : (nullTerminated bytes)[k] = bytes[k] := (List.takeWhile_prefix _).getElem hk
  exact nullTerminated_no_zero bytes _ (List.getElem_mem hk) (hget.trans hzero)

/-- Bytes without a `00` are a string as they stand. -/
theorem nullTerminated_of_not_mem {bytes : List Byte} (h : 0#8 ∉ bytes) : nullTerminated bytes = bytes := by
  refine List.takeWhile_eq_self_iff.mpr (fun b hb => bne_iff_ne.mpr ?_)
  rintro rfl
  exact h hb

/-- The string is empty where the first byte is `00`. -/
theorem nullTerminated_eq_nil_iff {bytes : List Byte} (h : bytes ≠ []) : nullTerminated bytes = [] ↔ bytes[0]? = some 0#8 := by
  cases bytes with
  | nil => exact absurd rfl h
  | cons b bs => by_cases hb : b = 0#8 <;> simp [nullTerminated, hb]

/-- A legal name has a string of at most 15 bytes (10_state R32). -/
theorem length_nullTerminated_of_legal {n : Name} (h : Safety.NameLegal n) : (nullTerminated n.toList).length ≤ 15 :=
  length_nullTerminated_le (by simpa using h.1)

/-- Settles O35: the string of a field is fixed by the bytes up to any `00` in it, has all 16 bytes where there is none, and is
empty where the first byte is `00`. -/
theorem nameMatching : Obligations.NameMatching := by
  intro f n hf
  refine ⟨nameEq_iff f n, fun g k _ _ hk hg => ?_, fun hn hzero => ?_, ?_⟩
  · have htake : g.take (k + 1) = f.take (k + 1) := by
      refine List.ext_getElem? (fun j => ?_)
      by_cases hj : j < k + 1
      · rw [List.getElem?_take_of_lt hj, List.getElem?_take_of_lt hj, hg j (Nat.le_of_lt_succ hj)]
      · rw [List.getElem?_take_eq_none (not_lt.mp hj), List.getElem?_take_eq_none (not_lt.mp hj)]
    have hstr : nullTerminated g = nullTerminated f := by
      rw [← nullTerminated_take ((hg k (le_refl k)).trans hk), htake, nullTerminated_take hk]
    rw [nameEq, nameEq, hstr]
  · refine Bool.eq_false_iff.mpr (fun heq => ?_)
    have hlong : f.length ≤ 15 := by
      rw [← nullTerminated_of_not_mem hzero, (nameEq_iff f n).mp heq]
      exact length_nullTerminated_of_legal hn
    omega
  · have hempty : nullTerminated Name.empty.toList = [] := rfl
    rw [nameEq_iff, hempty, nullTerminated_eq_nil_iff (List.ne_nil_of_length_pos (by omega))]

/-! ## The lowest failing step (43_packet_parser R243, R256) -/

/-- An outcome of the parser is the one that the failing steps call for: the reason of the lowest one, and an acceptance where none
of the eight fails. -/
def DecidedBy (fails : Nat → Prop) : Except RejectReason Accepted → Prop
  | .error r => fails (reasonCode r).toNat ∧ ∀ j, j < (reasonCode r).toNat → ¬ fails j
  | .ok _ => ∀ j, j < 9 → ¬ fails j

/-- One step of the parser: where it fails it decides, otherwise the later steps do. -/
theorem decidedBy_ite {fails : Nat → Prop} {test : Prop} [Decidable test] {r : RejectReason}
    {rest : Except RejectReason Accepted} (htest : test ↔ fails (reasonCode r).toNat)
    (hbefore : ∀ j, j < (reasonCode r).toNat → ¬ fails j)
    (hrest : (∀ j, j < (reasonCode r).toNat + 1 → ¬ fails j) → DecidedBy fails rest) :
    DecidedBy fails (if test then .error r else rest) := by
  by_cases h : test
  · rw [if_pos h]
    exact ⟨htest.mp h, hbefore⟩
  · rw [if_neg h]
    exact hrest (Nat.forall_lt_succ_right.mpr ⟨hbefore, mt htest.mpr h⟩)

/-- A check as `parse` writes it, by what its test says. -/
theorem not_test_iff {test : Bool} {P : Prop} (h : test = true ↔ P) : (!test) = true ↔ ¬ P := by
  rw [← h, Bool.not_eq_true', Bool.not_eq_true]

/-- Step 3 with the decided codes, under either mask (43_packet_parser R247). -/
theorem isAudio_iff {p : Params} (h : p.DecidedCodes) (b : Byte) :
    isAudio p b = true ↔ b &&& checkMask p.subprotoCheck = 0#8 := by
  have hmask : subprotoMask p.subprotoCheck = checkMask p.subprotoCheck := by cases p.subprotoCheck <;> rfl
  rw [isAudio_decided h, hmask, decide_eq_true_iff]

/-- With the decided codes the eight checks of `parse` are the steps of 43_packet_parser R243, in their order. -/
theorem parse_decidedBy {p : Params} (h : p.DecidedCodes) (b : Nat → Byte) (len : Nat) (subscription : Name) :
    DecidedBy (StepFails p.subprotoCheck b len subscription) (parse p b len subscription) := by
  have hcodec : codecOf (b 7) ≠ p.codecPcm ↔ (b 7).extractLsb' 3 5 ≠ 0#5 := by rw [h.2.2]; rfl
  have hres : resolutionOf (b 7) ≠ p.resPcm16 ↔ (b 7).extractLsb' 0 3 ≠ 1#3 := by rw [h.2.1]; rfl
  have hzero : ∀ j, j < 1 → ¬ StepFails p.subprotoCheck b len subscription j := by
    intro j hj
    obtain rfl : j = 0 := by omega
    exact id
  refine decidedBy_ite Iff.rfl hzero fun h1 => ?_
  refine decidedBy_ite (not_test_iff (hasMagic_iff b)) h1 fun h2 => ?_
  refine decidedBy_ite (not_test_iff (isAudio_iff h (b 4))) h2 fun h3 => ?_
  refine decidedBy_ite hcodec h3 fun h4 => ?_
  refine decidedBy_ite hres h4 fun h5 => ?_
  refine decidedBy_ite Iff.rfl h5 fun h6 => ?_
  refine decidedBy_ite (not_test_iff (nameEq_iff _ _)) h6 fun h7 => ?_
  exact decidedBy_ite Iff.rfl h7 id

/-- The lowest failing step gives the reason, by its number (43_packet_parser R244). -/
theorem parse_of_lowest_failing {p : Params} (h : p.DecidedCodes) {b : Nat → Byte} {len : Nat} {subscription : Name} {k : Nat}
    (hk : k ≤ 8) (hfails : StepFails p.subprotoCheck b len subscription k)
    (hlowest : ∀ j, j < k → ¬ StepFails p.subprotoCheck b len subscription j) :
    ∃ r, parse p b len subscription = .error r ∧ reasonCode r = BitVec.ofNat 4 k := by
  have hdecided := parse_decidedBy h b len subscription
  cases hparse : parse p b len subscription with
  | ok a =>
    rw [hparse] at hdecided
    exact absurd hfails (hdecided k (Nat.lt_succ_of_le hk))
  | error r =>
    rw [hparse] at hdecided
    obtain ⟨hr, hbefore⟩ := hdecided
    have hkr : k = (reasonCode r).toNat :=
      le_antisymm (not_lt.mp fun hlt => hlowest _ hlt hr) (not_lt.mp fun hlt => hbefore k hlt hfails)
    exact ⟨r, rfl, by rw [hkr, BitVec.ofNat_toNat, BitVec.setWidth_eq]⟩

/-- Where no step fails the datagram is accepted with the counts, index, counter and samples that its bytes hold. -/
theorem parse_of_none_failing {p : Params} (h : p.DecidedCodes) {b : Nat → Byte} {len : Nat} {subscription : Name}
    (hnone : ∀ k, ¬ StepFails p.subprotoCheck b len subscription k) :
    parse p b len subscription = .ok
      { channels := (b 6).toNat + 1
        samples := (b 5).toNat + 1
        srIndex := srIndexOf (b 4)
        nuFrame := le32 (b 24) (b 25) (b 26) (b 27)
        buffers := deinterleave ((b 6).toNat + 1) ((b 5).toNat + 1) b } := by
  have hdecided := parse_decidedBy h b len subscription
  cases hparse : parse p b len subscription with
  | error r =>
    rw [hparse] at hdecided
    exact absurd hdecided.1 (hnone _)
  | ok a =>
    obtain ⟨-, -, -, -, -, -, -, -, ha⟩ := parse_ok hparse
    rw [ha]

/-! ## The command (43_packet_parser R240, R243, R245) -/

/-- A count is a byte plus one (43_packet_parser R253). -/
theorem toNat_byte_succ_le (b : Byte) : b.toNat + 1 ≤ 256 := b.isLt

/-- Settles O32: the outcome of `parse` by the failing steps, recorded by the streaming unit. -/
theorem parseCommandResult : Obligations.ParseCommandResult := by
  intro s len
  refine ⟨(decode_or_setWidth (by decide) 0x18#8 len).trans (argHalf_setWidth len _), fun hidle => exec_rxParse_of_idle hidle len,
    fun hcodes hrun k hk hfails hlowest => ?_, fun hcodes hrun hnone => ?_⟩
  · obtain ⟨r, hparse, hr⟩ := parse_of_lowest_failing hcodes hk hfails hlowest
    rw [exec_rxParse_of_rejected hrun hparse, State.rejectDatagram, hr]
  · have hchannels := toNat_ofNat_count (toNat_byte_succ_le (s.binAt 6))
    have hsamples := toNat_ofNat_count (toNat_byte_succ_le (s.binAt 5))
    refine ⟨_, exec_rxParse_of_accepted hrun (parse_of_none_failing hcodes hnone), rfl, rfl, hchannels, hsamples, rfl, rfl,
      fun c i hc hi => ?_, fun c i _ hi hout => ?_, rfl⟩
    · simp only [acceptDatagram_fields, hchannels, hsamples] at hc hi ⊢
      exact chbufAt_acceptDatagram s rfl (toNat_byte_succ_le _) (toNat_byte_succ_le _) hc hi
    · simp only [acceptDatagram_fields, hchannels, hsamples] at hout ⊢
      rw [read_deinterleave _ (toNat_byte_succ_le _) c i hi, if_neg hout]

/-- Settles O34: the command records an outcome of `parse`, which reads only the first `L` bytes. -/
theorem parserReadsOnlyItsDatagram : Obligations.ParserReadsOnlyItsDatagram := by
  intro s s' len t t' hpar hrun hrun' hname hbin ht ht'
  have hsame : parse s'.par s'.binAt len.toNat s'.rx.active.name = parse s.par s.binAt len.toNat s.rx.active.name := by
    rw [← hpar, ← hname, parse_congr _ _ hbin]
  cases hparse : parse s.par s.binAt len.toNat s.rx.active.name with
  | error r =>
    cases (exec_rxParse_of_rejected hrun hparse).symm.trans ht
    cases (exec_rxParse_of_rejected hrun' (hsame.trans hparse)).symm.trans ht'
    exact ⟨rfl, rfl, nofun⟩
  | ok a =>
    cases (exec_rxParse_of_accepted hrun hparse).symm.trans ht
    cases (exec_rxParse_of_accepted hrun' (hsame.trans hparse)).symm.trans ht'
    exact ⟨rfl, rfl, fun _ => ⟨rfl, rfl, rfl, rfl, rfl⟩⟩

/-- Every accepted datagram carries at least one sample behind its header (43_packet_parser R245, R253). -/
theorem lt_length_of_parse_ok {p : Params} {b : Nat → Byte} {len : Nat} {subscription : Name} {a : Accepted}
    (h : parse p b len subscription = .ok a) : 28 < len := by
  obtain ⟨-, -, -, -, -, -, -, hlen, -⟩ := parse_ok h
  have hpos : 0 < ((b 6).toNat + 1) * ((b 5).toNat + 1) := Nat.mul_pos (Nat.succ_pos _) (Nat.succ_pos _)
  omega

/-- No reason has the code of an acceptance (43_packet_parser R244). -/
theorem reasonCode_ne_zero (r : RejectReason) : reasonCode r ≠ 0#4 :=
  fun h => absurd (toNat_reasonCode r).1 (by rw [h]; decide)

/-- Settles O36: step 1 looks at the length alone, and a length of 28 leaves no room for a sample. -/
theorem shortDatagramsAreRejected : Obligations.ShortDatagramsAreRejected := by
  intro s len hrun
  refine ⟨fun hshort => ?_, fun hbare => ?_⟩
  · have hparse : parse s.par s.binAt len.toNat s.rx.active.name = .error .tooShort := if_pos hshort
    exact exec_rxParse_of_rejected hrun hparse
  · cases hparse : parse s.par s.binAt len.toNat s.rx.active.name with
    | error r => exact ⟨_, exec_rxParse_of_rejected hrun hparse, rfl, reasonCode_ne_zero r⟩
    | ok a => exact absurd (lt_length_of_parse_ok hparse) (by omega)

end Sys2Proof.Proofs.PacketParserFamily
end

section
/-! PROOF. The session control family: what a dirty boundary leaves of a unit (44_session_control R272 to R285), what each
configuration command leaves pending (R290 to R296), and that a boundary applies what came before it exactly once (R273). -/

namespace Sys2Proof.Proofs.SessionControlFamily

open Sys2Proof.Machine Sys2Proof.Claims Sys2Proof.Laws Sys2Proof.Proofs.StateFamily Sys2Proof.Proofs.MemoryFamily

/-! ## What a boundary leaves -/

theorem exec_blkBegin_of_clean {s : State} {u : SessionUnit} (h : (s.sess u).dirty = false) :
    exec (.blkBegin u) s = .next s := by
  simp [exec, execBlkBegin, h]

theorem exec_blkBegin_of_dirty {s : State} {u : SessionUnit} (h : (s.sess u).dirty = true) :
    exec (.blkBegin u) s = .next (s.reconfigure u) := by
  simp [exec, execBlkBegin, h]

@[simp] theorem sess_flag (s : State) (f : StatusBit) (u : SessionUnit) : (s.flag f).sess u = s.sess u :=
  sess_congr rfl rfl u

@[simp] theorem sess_countSample (s : State) (u : SessionUnit) : s.countSample.sess u = s.sess u :=
  sess_congr rfl rfl u

/-- The index of the start that a dirty boundary makes, if it makes one: the index that stays fixed, else the one the rate
resolves to (44_session_control R272, R280). -/
def startedIndex (s : State) (u : SessionUnit) : Option (BitVec 5) :=
  if (s.sess u).pEn then
    if (s.sess u).applied.srFixed then some (s.sess u).srIdx else resolveRate s.par s.sampledRate
  else none

/-- The registers of a unit after a dirty boundary that starts it on an index, or does not start it. -/
def afterBoundary (x : Session) : Option (BitVec 5) → Session
  | none => { x.applied with run := false }
  | some i => { x.applied with run := true, srIdx := i, srFixed := true }

/-- What a dirty boundary leaves is settled by the unit's registers and the index it starts on. -/
theorem reconfigure_result (s : State) (u : SessionUnit) :
    (s.reconfigure u).sess u = afterBoundary (s.sess u) (startedIndex s u) ∧
    (s.reconfigure u).linkOut = s.linkOut ++ (if (s.sess u).run then [LinkEvent.closed u] else []) ++
      (if (startedIndex s u).isSome then [LinkEvent.opened u (s.sess u).pending.host (s.sess u).pending.port] else []) ∧
    (s.reconfigure u).status =
      s.status ||| (if (s.sess u).pEn = true ∧ startedIndex s u = none then statusMask .cfgerr else 0#6) ∧
    (s.reconfigure u).nuFrame = (if u = .tx ∧ (startedIndex s u).isSome then 0#32 else s.nuFrame) := by
  have hactive : (s.sess u).applied.active = (s.sess u).pending := rfl
  have hrun : (s.sess u).applied.run = (s.sess u).run := rfl
  have hidx : (s.sess u).applied.srIdx = (s.sess u).srIdx := rfl
  rcases reconfigure_cases s u with ⟨hp, e⟩ | ⟨hp, hf, e⟩ | ⟨hp, hf, hr, e⟩ | ⟨hp, hf, i, hr, e⟩ <;> rw [e]
  · simp [startedIndex, afterBoundary, hp, hrun]
  · simp [startedIndex, afterBoundary, hp, hf, hactive, hrun, hidx]
  · simp [startedIndex, afterBoundary, hp, hf, hr, hrun]
  · simp [startedIndex, afterBoundary, hp, hf, hr, hactive, hrun]

/-- A start on an index that stays fixed looks nothing up (44_session_control R283). -/
theorem startedIndex_of_staysFixed {s : State} {u : SessionUnit} (h : StaysFixed (s.sess u)) :
    startedIndex s u = if (s.sess u).pEn then some (s.sess u).srIdx else none := by
  rw [startedIndex, if_pos ((applied_srFixed _).mpr h)]

theorem startedIndex_of_not_staysFixed {s : State} {u : SessionUnit} (h : ¬ StaysFixed (s.sess u)) :
    startedIndex s u = if (s.sess u).pEn then resolveRate s.par s.sampledRate else none := by
  rw [startedIndex, if_neg (mt (applied_srFixed _).mp h)]

/-- The rate resolves exactly where it is in the table (44_session_control R283). -/
theorem resolveRate_isSome_iff (s : State) : (resolveRate s.par s.sampledRate).isSome = true ↔ RateInTable s := by
  rw [← Option.ne_none_iff_isSome, ne_eq, resolveRate_none, RateInTable, not_forall_not]

/-- A dirty boundary starts the unit when it is asked to and has an index to start on (44_session_control R286). -/
theorem startedIndex_isSome_iff (s : State) (u : SessionUnit) :
    (startedIndex s u).isSome = true ↔ (s.sess u).pEn = true ∧ (StaysFixed (s.sess u) ∨ RateInTable s) := by
  by_cases h : StaysFixed (s.sess u)
  · rw [startedIndex_of_staysFixed h]
    cases (s.sess u).pEn <;> simp [h]
  · rw [startedIndex_of_not_staysFixed h, ← resolveRate_isSome_iff]
    cases (s.sess u).pEn <;> simp [h]

section AfterBoundary

variable (x : Session) (started : Option (BitVec 5))

theorem afterBoundary_fields :
    (afterBoundary x started).active = x.pending ∧ (afterBoundary x started).pending = x.pending ∧
    (afterBoundary x started).dirty = false ∧ (afterBoundary x started).pSrclr = false ∧
    (afterBoundary x started).pEn = x.pEn := by
  cases started <;> exact ⟨rfl, rfl, rfl, rfl, rfl⟩

@[simp] theorem afterBoundary_run : (afterBoundary x started).run = started.isSome := by
  cases started <;> rfl

theorem afterBoundary_srFixed :
    (afterBoundary x started).srFixed = true ↔ StaysFixed x ∨ started.isSome = true := by
  cases started
  · simp [afterBoundary, applied_srFixed, StaysFixed]
  · simp [afterBoundary]

@[simp] theorem afterBoundary_srIdx : (afterBoundary x started).srIdx = started.getD x.srIdx := by
  cases started <;> rfl

end AfterBoundary

/-- A unit streams after a dirty boundary exactly where it started (44_session_control R286). -/
theorem run_reconfigure (s : State) (u : SessionUnit) :
    ((s.reconfigure u).sess u).run = (startedIndex s u).isSome := by
  rw [(reconfigure_result s u).1, afterBoundary_run]

theorem getLsbD_statusMask (g f : StatusBit) : (statusMask g).getLsbD (statusIndex f) = decide (f = g) := by
  cases g <;> cases f <;> rfl

/-- A dirty boundary raises `CFGERR` where a start fails and no other bit (44_session_control R283). -/
theorem hasFlag_reconfigure (s : State) (u : SessionUnit) (f : StatusBit) :
    (s.reconfigure u).hasFlag f = true ↔
      s.hasFlag f = true ∨ (f = .cfgerr ∧ (s.sess u).pEn = true ∧ startedIndex s u = none) := by
  obtain ⟨-, -, hstatus, -⟩ := reconfigure_result s u
  rw [State.hasFlag, hstatus, BitVec.getLsbD_or, Bool.or_eq_true, ← State.hasFlag]
  refine or_congr_right ?_
  split
  · next hfails => simp [getLsbD_statusMask, hfails]
  · next hno => simp [hno]

/-- Settles O38: a clean unit does nothing; a dirty one goes through `reconfigure_result`. -/
theorem boundaryCommandResult : Obligations.BoundaryCommandResult := by
  intro s u
  refine ⟨by cases u <;> rfl, exec_blkBegin_of_clean, fun hdirty => ⟨_, exec_blkBegin_of_dirty hdirty, ?_⟩⟩
  obtain ⟨hsess, hlink, -, hcount⟩ := reconfigure_result s u
  obtain ⟨hactive, hpending, hclean, hrelease, hen⟩ := afterBoundary_fields (s.sess u) (startedIndex s u)
  obtain ⟨hwpos, hvalid⟩ := reconfigure_datapath s u
  have hrun := run_reconfigure s u
  have hstarts := startedIndex_isSome_iff s u
  refine ⟨hsess ▸ hactive, hsess ▸ hpending, hsess ▸ hclean, hsess ▸ hrelease, hsess ▸ hen, hrun ▸ hstarts, ?_,
    fun hp => ?_, hrun ▸ hlink, ?_, fun f hf => ?_, ?_, ?_, fun v hv => sess_reconfigure_of_ne s hv,
    reconfigure_frame s u⟩
  · rw [hsess, afterBoundary_srFixed, hstarts]
    tauto
  · rw [hsess, afterBoundary_srIdx, startedIndex, if_neg (by simp [hp]), Option.getD_none]
  · rw [hasFlag_reconfigure, ← Option.not_isSome_iff_eq_none, hstarts]
    tauto
  · rw [Bool.eq_iff_iff, hasFlag_reconfigure, or_iff_left (fun h => hf h.1)]
  · rintro rfl
    rw [show (s.reconfigure .tx).tx.run = (startedIndex s .tx).isSome from hrun]
    exact ⟨hwpos, by simpa using hcount, hvalid⟩
  · rintro rfl
    exact ⟨hvalid, hwpos, by simpa using hcount⟩

/-- Settles O39: the index of the start is read off `startedIndex`, by whether the index stays fixed. -/
theorem rateResolution : Obligations.RateResolution := by
  refine ⟨by decide, fun s u t hdirty ht => ?_⟩
  cases (exec_blkBegin_of_dirty hdirty).symm.trans ht
  obtain ⟨hsess, hlink, -, -⟩ := reconfigure_result s u
  simp only [hlink, hasFlag_reconfigure, hsess, afterBoundary_srIdx, afterBoundary_run, ← Bool.not_eq_true,
    afterBoundary_srFixed]
  refine ⟨fun hstays => ?_, fun hfree hp i hi hleast => ?_, fun hfree hp hno => ?_, fun hfree hp => ?_⟩
  · rw [startedIndex_of_staysFixed hstays]
    cases (s.sess u).pEn <;> simp [hstays]
  · have hlt : i.val < 32 := i.isLt.trans (by decide)
    simp [startedIndex_of_not_staysFixed hfree, hp, resolveRate_eq hi hleast, hlt]
  · have hnone : resolveRate s.par s.sampledRate = none := by
      rwa [← Option.not_isSome_iff_eq_none, resolveRate_isSome_iff]
    simp [startedIndex_of_not_staysFixed hfree, hp, hnone, hfree]
  · simp [startedIndex_of_not_staysFixed hfree, hp, hfree]

/-! ## A fixed index (44_session_control R283, 70_reset_and_hazards R369) -/

/-- `s` with another driven rate and another table. -/
def withRate (s : State) (rate : Option (BitVec 20)) (table : Vector Nat 21) : State :=
  { s with hostRate := rate, par := { s.par with srTable := table } }

section WithRate

variable (s : State) (u : SessionUnit) (rate : Option (BitVec 20)) (table : Vector Nat 21)

@[simp] theorem sess_withRate : (withRate s rate table).sess u = s.sess u := sess_congr rfl rfl u

theorem setSess_withRate (x : Session) :
    (withRate s rate table).setSess u x = withRate (s.setSess u x) rate table := by cases u <;> rfl

theorem stop_withRate : (withRate s rate table).stop u = withRate (s.stop u) rate table := by
  simp only [State.stop, sess_withRate]
  split <;> cases u <;> rfl

theorem openLink_withRate : (withRate s rate table).openLink u = withRate (s.openLink u) rate table := by
  cases u <;> rfl

end WithRate

/-- While the index stays fixed a dirty boundary is a stop and the opening of the link, if asked for. -/
theorem reconfigure_of_staysFixed {s : State} {u : SessionUnit} (h : StaysFixed (s.sess u)) :
    s.reconfigure u =
      if (s.sess u).pEn then ((s.setSess u (s.sess u).applied).stop u).openLink u
      else (s.setSess u (s.sess u).applied).stop u := by
  have hfixed := (applied_srFixed (s.sess u)).mpr h
  rcases reconfigure_cases s u with ⟨hp, e⟩ | ⟨hp, _, e⟩ | ⟨_, hf, _⟩ | ⟨_, hf, _⟩
  · rw [e, if_neg (by simp [hp])]
  · rw [e, if_pos hp]
  · cases hfixed.symm.trans hf
  · cases hfixed.symm.trans hf

/-- Settles O40: neither a stop nor the opening of the link reads the rate or the table. -/
theorem fixedIndexIgnoresHostRate : Obligations.FixedIndexIgnoresHostRate := by
  intro s u t rate table hstays ht
  have hstays' : StaysFixed ((withRate s rate table).sess u) := by rwa [sess_withRate]
  have hpar : withRate t rate table = { t with hostRate := rate, par := { s.par with srTable := table } } := by
    rw [withRate, (exec_inputs_par _ s t ht).2]
  rw [← hpar]
  change exec (.blkBegin u) (withRate s rate table) = _
  cases hdirty : (s.sess u).dirty
  · cases (exec_blkBegin_of_clean hdirty).symm.trans ht
    exact exec_blkBegin_of_clean (by rwa [sess_withRate])
  · cases (exec_blkBegin_of_dirty hdirty).symm.trans ht
    rw [exec_blkBegin_of_dirty (by rwa [sess_withRate]), reconfigure_of_staysFixed hstays',
      reconfigure_of_staysFixed hstays]
    simp only [sess_withRate, setSess_withRate, stop_withRate, openLink_withRate]
    split <;> rfl

/-! ## The configuration commands (44_session_control R290 to R296) -/

/-- A write of one unit's registers reaches nothing else. -/
theorem setSess_frame (s : State) (u : SessionUnit) (x : Session) :
    (∀ v, v ≠ u → (s.setSess u x).sess v = s.sess v) ∧
      s.setSess u x = { s with tx := (s.setSess u x).tx, rx := (s.setSess u x).rx } :=
  ⟨fun _ hv => sess_setSess_of_ne s hv x, by cases u <;> rfl⟩

/-- Every command answers a next state (60_exceptions R310). -/
theorem exec_completes (i : Instr) (s : State) : ∃ t, exec i s = .next t := by
  cases i <;> exact ⟨_, rfl⟩

/-- Settles O41: a configuration command writes the pending bank, the two requests and `DIRTY`. -/
theorem configurationTouchesPendingOnly : Obligations.ConfigurationTouchesPendingOnly := by
  intro i s u hc
  obtain ⟨t, ht⟩ := exec_completes i s
  obtain ⟨bank, en, release, rfl⟩ := exec_sess_of_configures ht hc
  refine ⟨_, ht, ?_⟩
  rw [sess_setSess_self]
  exact ⟨rfl, rfl, rfl, rfl, rfl, setSess_frame s u _⟩

/-- A word of a command with a unit, as the spec writes it out, is the word packed from its operation code, unit and operand
(30_encoding R101). -/
theorem decode_or_unitWord {n : Nat} (hn : n ≤ 20) (op : BitVec 8) (u : SessionUnit) (x : BitVec n) {i : Instr}
    (h : decode (pack op (unitBit u) (x.setWidth 20)) = .ok i) :
    decode (op.setWidth 32 <<< 24 ||| unitWord u ||| x.setWidth 32) = .ok i := by
  have hunit : unitWord u = (unitBit u).setWidth 32 <<< 23 := by cases u <;> rfl
  rwa [pack_eq_or, ← hunit, BitVec.setWidth_setWidth (by omega)] at h

/-- Settles O42: the string is loaded from `CIN`, where each written byte reads as itself. -/
theorem hostCommandResult : Obligations.HostCommandResult := by
  intro s u len
  refine ⟨decode_or_unitWord (by decide) 0x20#8 u len (RoundTrip.cfgHost u len rfl),
    s.configure u { (s.sess u).pending with host := s.cinBytes len.toNat }, rfl, ?_⟩
  rw [State.configure, sess_setSess_self]
  refine ⟨length_load _ _ _ _, fun k hk b hb => ?_, rfl, setSess_frame s u _⟩
  simp [State.cinBytes, getElem_load, hk, hb]

/-- Settles O43: the command is one write of the unit's registers. -/
theorem portCommandResult : Obligations.PortCommandResult := fun s u port =>
  ⟨decode_or_unitWord (by decide) 0x21#8 u port (RoundTrip.cfgPort u port rfl), _, rfl, sess_setSess_self s u _,
    setSess_frame s u _⟩

/-- Settles O44: the count written is the clamped one. -/
theorem channelCommandClamps : Obligations.ChannelCommandClamps := fun s u n =>
  ⟨decode_or_unitWord (le_refl 20) 0x22#8 u n (by rw [BitVec.setWidth_eq]; exact RoundTrip.cfgNch u n rfl), _, _, rfl,
    toNat_clampChannels n, sess_setSess_self s u _, setSess_frame s u _⟩

/-- `CIN` reads as the bytes written there. -/
theorem cinBytes_eq_of_read {s : State} {bytes : List Byte}
    (h : ∀ k (hk : k < bytes.length), s.cin.read k = some bytes[k]) : s.cinBytes bytes.length = bytes := by
  refine List.ext_getElem (length_load _ _ _ _) fun k _ hk => ?_
  simp [State.cinBytes, getElem_load, h k hk]

/-- Byte `k` of the register that `CFG.NAME` writes (44_session_control R294). -/
theorem getElem_configuredName (bytes : List Byte) (k : Nat) (hk : k < 16) :
    (configuredName bytes)[k] = (str (bytes.take 15))[k]?.getD 0#8 := getElem_nameOfBytes _ k hk

/-- Settles O45: the register holds the bytes before the first `00`, the rest is padding. -/
theorem nameCommandTruncates : Obligations.NameCommandTruncates := by
  intro s u len
  refine ⟨decode_or_unitWord (by decide) 0x23#8 u len (RoundTrip.cfgName u len rfl), _, _, rfl, configuredName_legal _,
    fun bytes hlen hread k hk => ?_, sess_setSess_self s u _, setSess_frame s u _⟩
  have hall : bytes.take 15 = bytes := List.take_of_length_le (hlen ▸ Nat.min_le_right _ _)
  have hcin : s.cinBytes (min len.toNat 15) = bytes := hlen ▸ cinBytes_eq_of_read hread
  simp only [Config.nameChars, hcin, getElem_configuredName, hall]

/-- Settles O46: each command is one write of the unit's registers. -/
theorem runAndReleaseCommandsRecordRequests : Obligations.RunAndReleaseCommandsRecordRequests := by
  refine fun s u => ⟨fun b => ⟨?_, _, rfl, sess_setSess_self s u _, setSess_frame s u _⟩, by cases u <;> rfl, _, rfl,
    sess_setSess_self s u _, setSess_frame s u _⟩
  have hbit : (BitVec.ofBool b).setWidth 20 = if b then 1#20 else 0#20 := by cases b <;> rfl
  exact decode_or_unitWord (by decide) 0x24#8 u (BitVec.ofBool b) (hbit ▸ RoundTrip.cfgRun u b rfl)

/-! ## Runs of commands -/

theorem execAll_cons {i : Instr} {is : List Instr} {s t : State} :
    execAll (i :: is) s = some t ↔ ∃ r, exec i s = .next r ∧ execAll is r = some t := by
  obtain ⟨r, hr⟩ := exec_completes i s
  simp [execAll, hr]

theorem execAll_completes (cs : List Instr) (s : State) : ∃ t, execAll cs s = some t := by
  induction cs generalizing s with
  | nil => exact ⟨s, rfl⟩
  | cons i is ih =>
    obtain ⟨r, hr⟩ := exec_completes i s
    obtain ⟨t, ht⟩ := ih r
    exact ⟨t, execAll_cons.mpr ⟨r, hr, ht⟩⟩

theorem execAll_append {is js : List Instr} {s t : State} :
    execAll (is ++ js) s = some t ↔ ∃ r, execAll is s = some r ∧ execAll js r = some t := by
  induction is generalizing s with
  | nil => simp [execAll]
  | cons i is ih =>
    simp only [List.cons_append, execAll_cons, ih]
    tauto

/-- What every command of a run keeps holds after the run. -/
theorem execAll_induction (P : State → Prop) {cs : List Instr}
    (hstep : ∀ i ∈ cs, ∀ r r', exec i r = .next r' → P r → P r') {s t : State} (h : execAll cs s = some t) (hs : P s) :
    P t := by
  induction cs generalizing s with
  | nil => cases h; exact hs
  | cons i is ih =>
    obtain ⟨r, hr, ht⟩ := execAll_cons.mp h
    rw [List.forall_mem_cons] at hstep
    exact ih hstep.2 ht (hstep.1 s r hr hs)

/-- What one command of a run establishes and every later one keeps holds after the run. The strings that the command finds in
`CIN` are those of the start, which no command writes. -/
theorem execAll_of_last (P : State → Prop) {before after : List Instr} {c : Instr} {s t : State}
    (h : execAll (before ++ c :: after) s = some t)
    (hset : ∀ r r', (∀ n, r.cinBytes n = s.cinBytes n) → exec c r = .next r' → P r')
    (hkeep : ∀ i ∈ after, ∀ r r', exec i r = .next r' → P r → P r') : P t := by
  obtain ⟨r, hr, hrest⟩ := execAll_append.mp h
  obtain ⟨r', hr', ht⟩ := execAll_cons.mp hrest
  have hcin : ∀ n, r.cinBytes n = s.cinBytes n :=
    execAll_induction (fun q => ∀ n, q.cinBytes n = s.cinBytes n)
      (fun _ _ _ _ hex hq n => (exec_cinBytes hex n).trans (hq n)) hr fun _ => rfl
  exact execAll_induction P hkeep ht (hset r r' hcin hr')

/-! ## Exactly once (44_session_control R273) -/

/-- Between its boundaries a unit's requests are overwritten only each by its own command; a release and `DIRTY` stand. -/
structure RequestsKept (i : Instr) (u : SessionUnit) (x y : Session) : Prop where
  host : (∀ len, i ≠ .cfgHost u len) → y.pending.host = x.pending.host
  port : (∀ port, i ≠ .cfgPort u port) → y.pending.port = x.pending.port
  nch : (∀ n, i ≠ .cfgNch u n) → y.pending.nch = x.pending.nch
  name : (∀ len, i ≠ .cfgName u len) → y.pending.name = x.pending.name
  en : (∀ b, i ≠ .cfgRun u b) → y.pEn = x.pEn
  release : x.pSrclr = true → y.pSrclr = true
  dirty : x.dirty = true → y.dirty = true

theorem exec_requestsKept {i : Instr} {s t : State} {u : SessionUnit} (h : exec i s = .next t)
    (hb : i ≠ .blkBegin u) : RequestsKept i u (s.sess u) (t.sess u) := by
  by_cases hc : Configures u i
  · cases i with
    | cfgHost v len | cfgPort v port | cfgNch v n | cfgName v len | cfgRun v b | cfgSrclr v =>
      cases hc; cases h
      constructor <;> simp [State.configure]
    | _ => exact hc.elim
  · rw [exec_sess_of_not h hc hb]
    exact ⟨fun _ => rfl, fun _ => rfl, fun _ => rfl, fun _ => rfl, fun _ => rfl, id, id⟩

/-- An event of the link output that neither opens nor closes the link of `u`. -/
def SparesLink (u : SessionUnit) (e : LinkEvent) : Prop := e ≠ .closed u ∧ ∀ host port, e ≠ .opened u host port

/-- A boundary of another unit opens and closes that unit's link only. -/
theorem reconfigure_sparesLink (s : State) {u v : SessionUnit} (hv : v ≠ u) :
    ∃ es, (s.reconfigure v).linkOut = s.linkOut ++ es ∧ ∀ e ∈ es, SparesLink u e := by
  obtain ⟨-, hlink, -, -⟩ := reconfigure_result s v
  refine ⟨_, by rw [hlink, List.append_assoc], fun e he => ?_⟩
  rcases List.mem_append.mp he with he | he
  all_goals
    split at he
    · cases List.mem_singleton.mp he
      simp [SparesLink, hv]
    · cases he

/-- A command that is not the unit's boundary neither opens nor closes the unit's link. -/
theorem exec_sparesLink {i : Instr} {s t : State} {u : SessionUnit} (h : exec i s = .next t) (hb : i ≠ .blkBegin u) :
    ∃ es, t.linkOut = s.linkOut ++ es ∧ ∀ e ∈ es, SparesLink u e := by
  by_cases hbnd : ∃ v, i = .blkBegin v
  · obtain ⟨v, rfl⟩ := hbnd
    have hv : v ≠ u := by rintro rfl; exact hb rfl
    cases h; split
    · exact reconfigure_sparesLink s hv
    · exact ⟨[], by simp⟩
  · obtain ⟨es, hes, hsend⟩ := exec_sends h fun v hv => hbnd ⟨v, hv⟩
    refine ⟨es, hes, fun e he => ?_⟩
    obtain ⟨bytes, rfl⟩ := hsend e he
    exact ⟨nofun, nofun⟩

section Run

variable {cs : List Instr} {s t t₁ : State} {u : SessionUnit}

/-- Without the unit's boundary a run leaves its active bank and its run state alone (10_state R34). -/
theorem execAll_active_run (h : execAll cs s = some t) (hb : Instr.blkBegin u ∉ cs) :
    (t.sess u).active = (s.sess u).active ∧ (t.sess u).run = (s.sess u).run := by
  refine execAll_induction (fun r => (r.sess u).active = (s.sess u).active ∧ (r.sess u).run = (s.sess u).run)
    (fun i hi r r' hex hr => ?_) h ⟨rfl, rfl⟩
  obtain ⟨-, hmoves⟩ := onlyBoundaryMovesUnit
  obtain ⟨hrun, hactive, -⟩ := (hmoves i r r' hex).1 u (ne_of_mem_of_not_mem hi hb)
  exact ⟨hactive.trans hr.1, hrun.trans hr.2⟩

/-- Without the unit's boundary a run neither opens nor closes its link. -/
theorem execAll_sparesLink (h : execAll cs s = some t) (hb : Instr.blkBegin u ∉ cs) :
    ∃ es, t.linkOut = s.linkOut ++ es ∧ ∀ e ∈ es, SparesLink u e := by
  refine execAll_induction (fun r => ∃ es, r.linkOut = s.linkOut ++ es ∧ ∀ e ∈ es, SparesLink u e)
    (fun i hi r r' hex hr => ?_) h ⟨[], by simp⟩
  obtain ⟨es, hes, hnot⟩ := hr
  obtain ⟨fs, hfs, hnot'⟩ := exec_sparesLink hex (ne_of_mem_of_not_mem hi hb)
  refine ⟨es ++ fs, by rw [hfs, hes, List.append_assoc], fun e he => ?_⟩
  exact (List.mem_append.mp he).elim (hnot e) (hnot' e)

/-- A run that neither configures the unit nor holds its boundary leaves its registers alone. -/
theorem execAll_sess_of_not (h : execAll cs s = some t) (hb : Instr.blkBegin u ∉ cs)
    (hc : ∀ c ∈ cs, ¬ Configures u c) : t.sess u = s.sess u :=
  execAll_induction (fun r => r.sess u = s.sess u)
    (fun i hi _ _ hex hr => (exec_sess_of_not hex (hc i hi) (ne_of_mem_of_not_mem hi hb)).trans hr) h rfl

/-- What a command of the run makes of the unit's registers, and every later command's `RequestsKept` keeps, holds after the
run. -/
theorem execAll_request (Q : Session → Prop) {before after : List Instr} {c : Instr}
    (h : execAll cs s = some t) (hb : Instr.blkBegin u ∉ cs) (hcs : cs = before ++ c :: after)
    (hset : ∀ r r', (∀ n, r.cinBytes n = s.cinBytes n) → exec c r = .next r' → Q (r'.sess u))
    (hkeep : ∀ i ∈ after, ∀ x y, RequestsKept i u x y → Q x → Q y) : Q (t.sess u) := by
  subst hcs
  refine execAll_of_last (fun r => Q (r.sess u)) h hset fun i hi r r' hex => hkeep i hi _ _ (exec_requestsKept hex ?_)
  rintro rfl
  exact hb (List.mem_append_right _ (List.mem_cons_of_mem _ hi))

/-- A run that configures the unit and does not hold its boundary leaves it dirty (10_state R33). -/
theorem execAll_dirty (h : execAll cs s = some t) (hb : Instr.blkBegin u ∉ cs) {c : Instr} (hc : c ∈ cs)
    (hconf : Configures u c) : (t.sess u).dirty = true := by
  obtain ⟨before, after, hcs⟩ := List.append_of_mem hc
  refine execAll_request (fun x => x.dirty = true) h hb hcs (fun r r' _ hex => ?_) fun _ _ _ _ hkept => hkept.dirty
  obtain ⟨bank, en, release, rfl⟩ := exec_sess_of_configures hex hconf
  rw [sess_setSess_self]

/-- A release asked for in a run stands to its end (44_session_control R296). -/
theorem execAll_release (h : execAll cs s = some t) (hb : Instr.blkBegin u ∉ cs) (hc : Instr.cfgSrclr u ∈ cs) :
    (t.sess u).pSrclr = true := by
  obtain ⟨before, after, hcs⟩ := List.append_of_mem hc
  refine execAll_request (fun x => x.pSrclr = true) h hb hcs (fun r r' _ hex => ?_) fun _ _ _ _ hkept => hkept.release
  cases hex
  simp

/-- The boundary after a run that configures the unit is a dirty one. -/
theorem boundary_of_configured (h : execAll cs s = some t) (hb : Instr.blkBegin u ∉ cs) {c : Instr} (hc : c ∈ cs)
    (hconf : Configures u c) (h₁ : exec (.blkBegin u) t = .next t₁) : t₁ = t.reconfigure u := by
  cases (exec_blkBegin_of_dirty (execAll_dirty h hb hc hconf)).symm.trans h₁
  rfl

/-- What a command of the run makes of the pending bank, and every later one keeps, holds of the active bank after the unit's
next boundary. -/
theorem active_of_request (Q : Bank → Prop) {before after : List Instr} {c : Instr} (h : execAll cs s = some t)
    (hb : Instr.blkBegin u ∉ cs) (h₁ : exec (.blkBegin u) t = .next t₁) (hcs : cs = before ++ c :: after)
    (hconf : Configures u c)
    (hset : ∀ r r', (∀ n, r.cinBytes n = s.cinBytes n) → exec c r = .next r' → Q (r'.sess u).pending)
    (hkeep : ∀ i ∈ after, ∀ x y, RequestsKept i u x y → Q x.pending → Q y.pending) : Q (t₁.sess u).active := by
  obtain ⟨hsess, -⟩ := reconfigure_result t u
  obtain ⟨hactive, -⟩ := afterBoundary_fields (t.sess u) (startedIndex t u)
  rw [boundary_of_configured h hb (by simp [hcs]) hconf h₁, hsess, hactive]
  exact execAll_request (fun x => Q x.pending) h hb hcs hset hkeep

end Run

/-- Settles O47: the run leaves the unit dirty exactly where it configures it; the boundary then applies what is pending, which
is what the last command of each kind left. -/
theorem configurationIsAppliedExactlyOnce : Obligations.ConfigurationIsAppliedExactlyOnce := by
  intro s u cs hclean hb
  obtain ⟨t₀, h₀⟩ := execAll_completes cs s
  obtain ⟨t₁, h₁⟩ := exec_completes (.blkBegin u) t₀
  obtain ⟨hkept, hrun⟩ := execAll_active_run h₀ hb
  obtain ⟨hsess, hlink, -, -⟩ := reconfigure_result t₀ u
  obtain ⟨hactive, -, -, hreleased, hen⟩ := afterBoundary_fields (t₀.sess u) (startedIndex t₀ u)
  have hbnd : ∀ c ∈ cs, Configures u c → t₁ = t₀.reconfigure u := fun c hc hconf =>
    boundary_of_configured h₀ hb hc hconf h₁
  refine ⟨t₀, t₁, h₀, h₁, exec_blkBegin_of_clean (exec_blkBegin_dirty h₁), hkept, hrun, execAll_sparesLink h₀ hb,
    fun hnone => ?_, ?_, fun before after port hcs hno => ?_, fun before after n hcs hno => ?_,
    fun before after len hcs hno => ?_, fun before after len hcs hno => ?_, fun before after b hcs hno => ?_,
    fun hsrclr => ⟨execAll_release h₀ hb hsrclr, ?_⟩⟩
  · have hsame := execAll_sess_of_not h₀ hb hnone
    cases (exec_blkBegin_of_clean (hsame ▸ hclean)).symm.trans h₁
    rfl
  · rintro ⟨c, hc, hconf⟩
    rw [hbnd c hc hconf, run_reconfigure, ← hrun]
    exact ⟨hsess ▸ hactive, hlink⟩
  · refine active_of_request (fun bank => bank.port = port) h₀ hb h₁ hcs rfl (fun r r' _ hex => ?_)
      fun i hi _ _ hkept hx => (hkept.port fun q => ne_of_mem_of_not_mem hi (hno q)).trans hx
    cases hex
    simp only [State.configure, sess_setSess_self]
  · refine active_of_request (fun bank => bank.nch.toNat = min 254 (max 1 n.toNat)) h₀ hb h₁ hcs rfl
      (fun r r' _ hex => ?_) fun i hi _ _ hkept hx => (hkept.nch fun m => ne_of_mem_of_not_mem hi (hno m)) ▸ hx
    cases hex
    simp only [State.configure, sess_setSess_self, toNat_clampChannels]
  · refine active_of_request (fun bank => bank.host = s.cinBytes len.toNat) h₀ hb h₁ hcs rfl
      (fun r r' hcin hex => ?_) fun i hi _ _ hkept hx => (hkept.host fun l => ne_of_mem_of_not_mem hi (hno l)).trans hx
    cases hex
    simp only [State.configure, sess_setSess_self, hcin]
  · refine active_of_request (fun bank => bank.name = configuredName (s.cinBytes (min len.toNat 15))) h₀ hb h₁ hcs rfl
      (fun r r' hcin hex => ?_) fun i hi _ _ hkept hx => (hkept.name fun l => ne_of_mem_of_not_mem hi (hno l)).trans hx
    cases hex
    simp only [State.configure, sess_setSess_self, hcin]
  · have hlast : (t₀.sess u).pEn = b := by
      refine execAll_request (fun x => x.pEn = b) h₀ hb hcs (fun r r' _ hex => ?_)
        fun i hi _ _ hkept hx => (hkept.en fun d => ne_of_mem_of_not_mem hi (hno d)).trans hx
      cases hex
      rw [sess_setSess_self]
    rw [hbnd (.cfgRun u b) (by simp [hcs]) rfl, hsess, hen, afterBoundary_run, startedIndex_isSome_iff, hlast]
    exact ⟨rfl, Iff.rfl⟩
  · rw [hbnd _ hsrclr rfl, hsess, hreleased]

end Sys2Proof.Proofs.SessionControlFamily
end

section
/-! PROOF. The exceptions family: no command and no other event traps (60_exceptions R310). -/

namespace Sys2Proof.Proofs.ExceptionsFamily

open Sys2Proof.Machine Sys2Proof.Proofs.SessionControlFamily

/-- An event is done at once or leaves one command to execute, and every command completes. -/
theorem step_completes (s : State) : ∃ t, step s = .next t := by
  unfold step
  cases takeInput s with
  | done t => exact ⟨t, rfl⟩
  | execute i t => exact exec_completes i t

/-- Settles O10: every command completes, and so does every step. -/
theorem everyStepCompletes : Obligations.EveryStepCompletes :=
  ⟨exec_completes, step_completes⟩

end Sys2Proof.Proofs.ExceptionsFamily
end

section
/-! PROOF. The reset and hazards family: the hardware reset input (70_reset_and_hazards R350). -/

namespace Sys2Proof.Proofs.ResetAndHazardsFamily

open Sys2Proof.Machine Sys2Proof.Laws

/-- Whatever the state, an element of a window or buffer has no value after a hardware reset (10_state R61). -/
theorem read_hardwareReset (s : State) (a : Nat) :
    s.hardwareReset.fin.read a = none ∧ s.hardwareReset.fout.read a = none ∧ s.hardwareReset.bin.read a = none ∧
      s.hardwareReset.bout.read a = none ∧ s.hardwareReset.cin.read a = none ∧ s.hardwareReset.abuf.read a = none ∧
      s.hardwareReset.chbuf.read a = none :=
  ⟨read_nil a, read_nil a, read_nil a, read_nil a, read_nil a, read_nil a, read_nil a⟩

/-- The reset input is one event, and no command is executed for it. -/
theorem step_reset {s : State} {rest : List Input} (h : s.inputs = Input.reset :: rest) :
    step s = .next { s with inputs := rest }.hardwareReset :=
  step_cons h

/-- Settles O2: the step is the hardware reset of the state that no longer holds the event, whose fields are those the statement
lists. -/
theorem resetInputRestoresResetState : Obligations.ResetInputRestoresResetState :=
  fun s rest h => ⟨{ s with inputs := rest }.hardwareReset, step_reset h, rfl, read_hardwareReset _⟩

end Sys2Proof.Proofs.ResetAndHazardsFamily
end
